-- ==== Sys2Proof/Word.lean ====
section
/-! DEFINITION. The widths of the block's values (spec/00_scope.md R11): every value is an unsigned bit vector. -/

namespace Sys2Proof

/-- A word: 32 bits, the widest transaction (R8 `WORD_BITS`, R11). -/
abbrev Word := BitVec 32

/-- A half: 16 bits, the narrow transaction (R8 `HALF_BITS`, R11). -/
abbrev HalfWord := BitVec 16

/-- A byte: 8 bits (R11). -/
abbrev Byte := BitVec 8

/-- A slot number: an event, an output record or a match/capture slot, 0 to 15 (R8 `NUM_EVENTS`, `NUM_OUTPUTS`, `NUM_SLOTS`). -/
abbrev Slot := Fin 16

/-- A state id of the configured machine: 5 bits (R8 `STATE_BITS`). -/
abbrev StateId := BitVec 5

end Sys2Proof
end

