-- ==== Sys2Proof/Syntax.lean ====
section
/-! DEFINITION. The operations of the block (spec/30_encoding.md R100 to R105): one constructor of `Instr` per row of
spec/opcode_table.json, with the operand types they carry. -/

namespace Sys2Proof

/-- The two halves of a split register (R27): the low half is bits 15:0, the high half bits 31:16 (R73). -/
inductive Half where
  | low
  | high
deriving DecidableEq, Repr

/-- Direction and data of a 32-bit transaction (R140, R141): a write carries a 32-bit value. -/
inductive Access32 where
  | read
  | write (v : Word)
deriving DecidableEq, Repr

/-- Direction and data of a 16-bit transaction (R142, R143): a write carries a 16-bit value. -/
inductive Access16 where
  | read
  | write (v : HalfWord)
deriving DecidableEq, Repr

/-- A declared way of addressing a register: one row of the opcode map (R103), with the index of a slot array. -/
inductive View where
  | config
  | control
  | controlLow
  | controlHigh
  | clearOnEvent
  | clearOnEventLow
  | clearOnEventHigh
  | haltOnEvent
  | haltOnEventLow
  | haltOnEventHigh
  | stopOnEvent
  | stopOnEventLow
  | stopOnEventHigh
  | startOnEvent
  | startOnEventLow
  | startOnEventHigh
  | count
  | countLow
  | countHigh
  | state
  | stateLow
  | stateHigh
  | input
  | registerMode
  | registerModeLow
  | registerModeHigh
  | output
  | outputDirectionControl
  | conflictResolution
  | dmaRequest0
  | dmaRequest1
  | interruptOnEvent
  | eventOccurred
  | interruptOnConflict
  | conflictOccurred
  | matchCapture (i : Slot)
  | matchCaptureLow (i : Slot)
  | matchCaptureHigh (i : Slot)
  | matchAliasLow (i : Slot)
  | matchAliasHigh (i : Slot)
  | captureControl (i : Slot)
  | captureControlLow (i : Slot)
  | captureControlHigh (i : Slot)
  | captureControlAliasLow (i : Slot)
  | captureControlAliasHigh (i : Slot)
  | eventEnabledInState (i : Slot)
  | eventControl (i : Slot)
  | outputOnEventSet (i : Slot)
  | outputOnEventClear (i : Slot)
deriving DecidableEq, Repr

/-- The name of a descriptor entry (R270, R271). `reserved off` is the padding entry the spec writes `reserved_<off>`;
`other n` is any further name a defective descriptor or a check may carry (log entry 32). -/
inductive FieldName where
  | config
  | control
  | clearOnEvent
  | haltOnEvent
  | stopOnEvent
  | startOnEvent
  | count
  | state
  | input
  | registerMode
  | output
  | outputDirectionControl
  | conflictResolution
  | dmaRequest
  | interruptOnEvent
  | eventOccurred
  | interruptOnConflict
  | conflictOccurred
  | matchCapture
  | matchAliasLow
  | matchAliasHigh
  | captureControl
  | captureControlAliasLow
  | captureControlAliasHigh
  | event
  | outputOnEvent
  | reserved (off : Nat)
  | other (n : Nat)
deriving DecidableEq, Repr

/-- The slot arrays of `SLOT_ADDR` (R210). -/
inductive SlotArray where
  | matchCapture
  | matchAliasLow
  | matchAliasHigh
  | captureControl
  | captureControlAliasLow
  | captureControlAliasHigh
  | event
  | outputOnEvent
deriving DecidableEq, Repr

/-- The word or half selectors of `SLOT_ADDR` (R210). -/
inductive SlotSelect where
  | word
  | lowHalf
  | highHalf
  | half
  | enabledInState
  | control
  | set
  | clear
deriving DecidableEq, Repr

/-- The draws of one evaluation (R240): the counter (both halves when split, the whole word when unified), the levels and
previous levels of the eight input lines and of the sixteen output pins. -/
structure EvalDraws where
  cnt     : Word
  inp     : Byte
  prev    : Byte
  out     : HalfWord
  outPrev : HalfWord
deriving DecidableEq, Repr

/-- The field values of `CONFIGURE_EVENT` (R219), one per sub-field of R118; an absent one is zero. Each is a byte, so that
a value too wide for its field can be handed over and refused (R112). -/
structure EventFields where
  matchRegister : Byte
  counterHalf   : Byte
  ioIsOutput    : Byte
  ioPin         : Byte
  ioCondition   : Byte
  condition     : Byte
  loadState     : Byte
  nextState     : Byte
deriving DecidableEq, Repr

/-- One operation of the block. The bus rows of R103 carry their direction and data; the rows of R105 their operands. The
register of `input` is read-only (R103), so its operation carries nothing. -/
inductive Instr where
  | config (a : Access32)
  | control (a : Access32)
  | controlLow (a : Access16)
  | controlHigh (a : Access16)
  | clearOnEvent (a : Access32)
  | clearOnEventLow (a : Access16)
  | clearOnEventHigh (a : Access16)
  | haltOnEvent (a : Access32)
  | haltOnEventLow (a : Access16)
  | haltOnEventHigh (a : Access16)
  | stopOnEvent (a : Access32)
  | stopOnEventLow (a : Access16)
  | stopOnEventHigh (a : Access16)
  | startOnEvent (a : Access32)
  | startOnEventLow (a : Access16)
  | startOnEventHigh (a : Access16)
  | count (a : Access32)
  | countLow (a : Access16)
  | countHigh (a : Access16)
  | state (a : Access32)
  | stateLow (a : Access16)
  | stateHigh (a : Access16)
  | input
  | registerMode (a : Access32)
  | registerModeLow (a : Access16)
  | registerModeHigh (a : Access16)
  | output (a : Access32)
  | outputDirectionControl (a : Access32)
  | conflictResolution (a : Access32)
  | dmaRequest0 (a : Access32)
  | dmaRequest1 (a : Access32)
  | interruptOnEvent (a : Access32)
  | eventOccurred (a : Access32)
  | interruptOnConflict (a : Access32)
  | conflictOccurred (a : Access32)
  | matchCapture (i : Slot) (a : Access32)
  | matchCaptureLow (i : Slot) (a : Access16)
  | matchCaptureHigh (i : Slot) (a : Access16)
  | matchAliasLow (i : Slot) (a : Access16)
  | matchAliasHigh (i : Slot) (a : Access16)
  | captureControl (i : Slot) (a : Access32)
  | captureControlLow (i : Slot) (a : Access16)
  | captureControlHigh (i : Slot) (a : Access16)
  | captureControlAliasLow (i : Slot) (a : Access16)
  | captureControlAliasHigh (i : Slot) (a : Access16)
  | eventEnabledInState (i : Slot) (a : Access32)
  | eventControl (i : Slot) (a : Access32)
  | outputOnEventSet (i : Slot) (a : Access32)
  | outputOnEventClear (i : Slot) (a : Access32)
  | verify
  | checkOffset (name : FieldName) (documented : Nat)
  | checkSize (documented : Nat)
  | checkStride (name : FieldName) (declared : Nat)
  | bind (base : Word)
  | fieldRd (reg : View) (off width : Nat)
  | fieldWr (reg : View) (off width : Nat) (f : Word)
  | slotAddr (arr : SlotArray) (index : Nat) (sel : SlotSelect)
  | sctEval (d : EvalDraws)
  | configureEvent (slot : Nat) (fields : EventFields) (gate : Word)
deriving DecidableEq, Repr

/-- An operation as it is presented to the block, before decoding: the code (a transaction code of R100, or, with bit 15
set, a selector of R105) and its operand words. The packing is the model's own, as R100 allows (log entry 1). -/
structure OpWord where
  code : HalfWord
  arg  : HalfWord
  data : Word
  x0   : HalfWord
  x1   : HalfWord
  x2   : HalfWord
  x3   : HalfWord
deriving DecidableEq, Repr

/-- Why a presented operation is no operation of the block (R102, R105). -/
inductive DecodeError where
  /-- The offset is at or past 0x580 (R80, R102 test 1). -/
  | outside
  /-- The offset is not a multiple of the transaction's width (R75, R102 test 2). -/
  | misaligned
  /-- The offset lies in a reserved region (R79, R102 test 3). -/
  | reserved
  /-- The register at the offset does not declare the width (R76, R102 test 4). -/
  | undeclaredWidth
  /-- A write to the read-only register `input` (R102 test 5). -/
  | readOnly
  /-- A selector 1010 to 1111 (R105). -/
  | unassignedSelector
  /-- An operand that names nothing: a field name, an array or a selector with no such number (log entry 1). -/
  | badOperand
  /-- A bit of the packing that the operation does not use is set (log entry 1). -/
  | malformed
deriving DecidableEq, Repr

end Sys2Proof
end

