-- ==== Sys2Proof/Decode.lean ====
section
/-! DEFINITION. The decoder (spec/30_encoding.md R100 to R105): total on every presented operation, rejecting by name; after it
the encoder, written from the same tables. -/

namespace Sys2Proof

/-- One row of the opcode map (R103): a code `c` selects the row when `(c & mask) = code`; the index of an array slot is
the four bits of `c` from `shift` up (R104). -/
structure OpcodeRow where
  code  : BitVec 13
  mask  : BitVec 13
  shift : Nat
  view  : Slot → View

/-- Whether a code selects a row (R103). -/
def OpcodeRow.matches (r : OpcodeRow) (c : BitVec 13) : Bool :=
  decide (c &&& r.mask = r.code)

/-- The slot index a code carries for a row (R104): `off[5:2]`, `off[4:1]` or `off[6:3]`. -/
def OpcodeRow.index (r : OpcodeRow) (c : BitVec 13) : Slot :=
  Fin.ofNat 16 (c >>> r.shift).toNat

/-- R103: the rows of the offsets 0x000 to 0x016. -/
def opcodeRowsControl : List OpcodeRow := [
  { code := 0x0000, mask := 0x1FFF, shift := 0, view := fun _ => .config },
  { code := 0x0004, mask := 0x1FFF, shift := 0, view := fun _ => .control },
  { code := 0x1004, mask := 0x1FFF, shift := 0, view := fun _ => .controlLow },
  { code := 0x1006, mask := 0x1FFF, shift := 0, view := fun _ => .controlHigh },
  { code := 0x0008, mask := 0x1FFF, shift := 0, view := fun _ => .clearOnEvent },
  { code := 0x1008, mask := 0x1FFF, shift := 0, view := fun _ => .clearOnEventLow },
  { code := 0x100A, mask := 0x1FFF, shift := 0, view := fun _ => .clearOnEventHigh },
  { code := 0x000C, mask := 0x1FFF, shift := 0, view := fun _ => .haltOnEvent },
  { code := 0x100C, mask := 0x1FFF, shift := 0, view := fun _ => .haltOnEventLow },
  { code := 0x100E, mask := 0x1FFF, shift := 0, view := fun _ => .haltOnEventHigh },
  { code := 0x0010, mask := 0x1FFF, shift := 0, view := fun _ => .stopOnEvent },
  { code := 0x1010, mask := 0x1FFF, shift := 0, view := fun _ => .stopOnEventLow },
  { code := 0x1012, mask := 0x1FFF, shift := 0, view := fun _ => .stopOnEventHigh },
  { code := 0x0014, mask := 0x1FFF, shift := 0, view := fun _ => .startOnEvent },
  { code := 0x1014, mask := 0x1FFF, shift := 0, view := fun _ => .startOnEventLow },
  { code := 0x1016, mask := 0x1FFF, shift := 0, view := fun _ => .startOnEventHigh }]

/-- R103: the rows of the offsets 0x040 to 0x0FC. -/
def opcodeRowsGlobal : List OpcodeRow := [
  { code := 0x0040, mask := 0x1FFF, shift := 0, view := fun _ => .count },
  { code := 0x1040, mask := 0x1FFF, shift := 0, view := fun _ => .countLow },
  { code := 0x1042, mask := 0x1FFF, shift := 0, view := fun _ => .countHigh },
  { code := 0x0044, mask := 0x1FFF, shift := 0, view := fun _ => .state },
  { code := 0x1044, mask := 0x1FFF, shift := 0, view := fun _ => .stateLow },
  { code := 0x1046, mask := 0x1FFF, shift := 0, view := fun _ => .stateHigh },
  { code := 0x0048, mask := 0x1FFF, shift := 0, view := fun _ => .input },
  { code := 0x004C, mask := 0x1FFF, shift := 0, view := fun _ => .registerMode },
  { code := 0x104C, mask := 0x1FFF, shift := 0, view := fun _ => .registerModeLow },
  { code := 0x104E, mask := 0x1FFF, shift := 0, view := fun _ => .registerModeHigh },
  { code := 0x0050, mask := 0x1FFF, shift := 0, view := fun _ => .output },
  { code := 0x0054, mask := 0x1FFF, shift := 0, view := fun _ => .outputDirectionControl },
  { code := 0x0058, mask := 0x1FFF, shift := 0, view := fun _ => .conflictResolution },
  { code := 0x005C, mask := 0x1FFF, shift := 0, view := fun _ => .dmaRequest0 },
  { code := 0x0060, mask := 0x1FFF, shift := 0, view := fun _ => .dmaRequest1 },
  { code := 0x00F0, mask := 0x1FFF, shift := 0, view := fun _ => .interruptOnEvent },
  { code := 0x00F4, mask := 0x1FFF, shift := 0, view := fun _ => .eventOccurred },
  { code := 0x00F8, mask := 0x1FFF, shift := 0, view := fun _ => .interruptOnConflict },
  { code := 0x00FC, mask := 0x1FFF, shift := 0, view := fun _ => .conflictOccurred }]

/-- R103: the rows of the slot arrays, offsets 0x100 to 0x57C. -/
def opcodeRowsSlots : List OpcodeRow := [
  { code := 0x0100, mask := 0x1FC3, shift := 2, view := .matchCapture },
  { code := 0x1100, mask := 0x1FC3, shift := 2, view := .matchCaptureLow },
  { code := 0x1102, mask := 0x1FC3, shift := 2, view := .matchCaptureHigh },
  { code := 0x1180, mask := 0x1FE1, shift := 1, view := .matchAliasLow },
  { code := 0x11C0, mask := 0x1FE1, shift := 1, view := .matchAliasHigh },
  { code := 0x0200, mask := 0x1FC3, shift := 2, view := .captureControl },
  { code := 0x1200, mask := 0x1FC3, shift := 2, view := .captureControlLow },
  { code := 0x1202, mask := 0x1FC3, shift := 2, view := .captureControlHigh },
  { code := 0x1280, mask := 0x1FE1, shift := 1, view := .captureControlAliasLow },
  { code := 0x12C0, mask := 0x1FE1, shift := 1, view := .captureControlAliasHigh },
  { code := 0x0300, mask := 0x1F87, shift := 3, view := .eventEnabledInState },
  { code := 0x0304, mask := 0x1F87, shift := 3, view := .eventControl },
  { code := 0x0500, mask := 0x1F87, shift := 3, view := .outputOnEventSet },
  { code := 0x0504, mask := 0x1F87, shift := 3, view := .outputOnEventClear }]

/-- The 49 bus rows of the opcode map (R103), in the table's order. -/
def opcodeRows : List OpcodeRow := opcodeRowsControl ++ opcodeRowsGlobal ++ opcodeRowsSlots

/-- The register a code `tc[12:0]` names (R103), or none where no row matches. -/
def viewOf (c : BitVec 13) : Option View :=
  opcodeRows.findSome? fun r => if r.matches c then some (r.view (r.index c)) else none

/-- The access width of a view in bits (R103 format column): 32 for `W32`, 16 for `H16`. -/
def View.bits : View → Nat
  | .config | .control | .clearOnEvent | .haltOnEvent | .stopOnEvent | .startOnEvent | .count | .state | .input
  | .registerMode | .output | .outputDirectionControl | .conflictResolution | .dmaRequest0 | .dmaRequest1
  | .interruptOnEvent | .eventOccurred | .interruptOnConflict | .conflictOccurred | .matchCapture _
  | .captureControl _ | .eventEnabledInState _ | .eventControl _ | .outputOnEventSet _ | .outputOnEventClear _ => 32
  | .controlLow | .controlHigh | .clearOnEventLow | .clearOnEventHigh | .haltOnEventLow | .haltOnEventHigh
  | .stopOnEventLow | .stopOnEventHigh | .startOnEventLow | .startOnEventHigh | .countLow | .countHigh | .stateLow
  | .stateHigh | .registerModeLow | .registerModeHigh | .matchCaptureLow _ | .matchCaptureHigh _ | .matchAliasLow _
  | .matchAliasHigh _ | .captureControlLow _ | .captureControlHigh _ | .captureControlAliasLow _
  | .captureControlAliasHigh _ => 16

/-- The reserved regions of the map as (first offset, offset past the end): the reserved rows of R30. -/
def reservedRegions : List (Nat × Nat) :=
  [(0x018, 0x040), (0x064, 0x0F0), (0x140, 0x180), (0x1A0, 0x1C0), (0x1E0, 0x200), (0x240, 0x280), (0x2A0, 0x2C0),
   (0x2E0, 0x300), (0x380, 0x500)]

/-- Whether an offset lies in a reserved row of R30. -/
def isReserved (off : Nat) : Bool :=
  reservedRegions.any fun p => decide (p.1 ≤ off) && decide (off < p.2)

/-- Decoding `(h, off)` to a register: the tests 1 to 4 of R102, in that order. `c` is `h ++ off`. -/
def lookupView (c : BitVec 13) : Except DecodeError View :=
  let off := c.toNat % 0x1000
  let half := c.getLsbD 12
  if 0x580 ≤ off then .error .outside
  else if off % (if half then 2 else 4) ≠ 0 then .error .misaligned
  else if isReserved off then .error .reserved
  else match viewOf c with
    | some v => .ok v
    | none => .error .undeclaredWidth

/-- Direction and data of a 32-bit transaction. -/
def access32 (write : Bool) (v : Word) : Access32 := if write then .write v else .read

/-- Direction and data of a 16-bit transaction: the low half of the data word is the value. -/
def access16 (write : Bool) (v : Word) : Access16 := if write then .write (v.setWidth 16) else .read

/-- The operation of a transaction on a view (R140 to R143). A read of `input` is the one form of its row. -/
def transactionOf (view : View) (write : Bool) (v : Word) : Instr :=
  match view with
  | .config => .config (access32 write v)
  | .control => .control (access32 write v)
  | .controlLow => .controlLow (access16 write v)
  | .controlHigh => .controlHigh (access16 write v)
  | .clearOnEvent => .clearOnEvent (access32 write v)
  | .clearOnEventLow => .clearOnEventLow (access16 write v)
  | .clearOnEventHigh => .clearOnEventHigh (access16 write v)
  | .haltOnEvent => .haltOnEvent (access32 write v)
  | .haltOnEventLow => .haltOnEventLow (access16 write v)
  | .haltOnEventHigh => .haltOnEventHigh (access16 write v)
  | .stopOnEvent => .stopOnEvent (access32 write v)
  | .stopOnEventLow => .stopOnEventLow (access16 write v)
  | .stopOnEventHigh => .stopOnEventHigh (access16 write v)
  | .startOnEvent => .startOnEvent (access32 write v)
  | .startOnEventLow => .startOnEventLow (access16 write v)
  | .startOnEventHigh => .startOnEventHigh (access16 write v)
  | .count => .count (access32 write v)
  | .countLow => .countLow (access16 write v)
  | .countHigh => .countHigh (access16 write v)
  | .state => .state (access32 write v)
  | .stateLow => .stateLow (access16 write v)
  | .stateHigh => .stateHigh (access16 write v)
  | .input => .input
  | .registerMode => .registerMode (access32 write v)
  | .registerModeLow => .registerModeLow (access16 write v)
  | .registerModeHigh => .registerModeHigh (access16 write v)
  | .output => .output (access32 write v)
  | .outputDirectionControl => .outputDirectionControl (access32 write v)
  | .conflictResolution => .conflictResolution (access32 write v)
  | .dmaRequest0 => .dmaRequest0 (access32 write v)
  | .dmaRequest1 => .dmaRequest1 (access32 write v)
  | .interruptOnEvent => .interruptOnEvent (access32 write v)
  | .eventOccurred => .eventOccurred (access32 write v)
  | .interruptOnConflict => .interruptOnConflict (access32 write v)
  | .conflictOccurred => .conflictOccurred (access32 write v)
  | .matchCapture i => .matchCapture i (access32 write v)
  | .matchCaptureLow i => .matchCaptureLow i (access16 write v)
  | .matchCaptureHigh i => .matchCaptureHigh i (access16 write v)
  | .matchAliasLow i => .matchAliasLow i (access16 write v)
  | .matchAliasHigh i => .matchAliasHigh i (access16 write v)
  | .captureControl i => .captureControl i (access32 write v)
  | .captureControlLow i => .captureControlLow i (access16 write v)
  | .captureControlHigh i => .captureControlHigh i (access16 write v)
  | .captureControlAliasLow i => .captureControlAliasLow i (access16 write v)
  | .captureControlAliasHigh i => .captureControlAliasHigh i (access16 write v)
  | .eventEnabledInState i => .eventEnabledInState i (access32 write v)
  | .eventControl i => .eventControl i (access32 write v)
  | .outputOnEventSet i => .outputOnEventSet i (access32 write v)
  | .outputOnEventClear i => .outputOnEventClear i (access32 write v)

/-- Whether the operand words a transaction does not use are clear: a read carries no data, a 16-bit write 16 bits of it. -/
def transactionPacked (op : OpWord) (view : View) (write : Bool) : Bool :=
  decide (op.arg = 0) && decide (op.x0 = 0) && decide (op.x1 = 0) && decide (op.x2 = 0) && decide (op.x3 = 0) &&
    (if write then decide (view.bits = 32) || decide (op.data >>> 16 = 0) else decide (op.data = 0))

/-- Decoding a bus transaction (R102): tests 1 to 4 by `lookupView`, test 5 (`input` is read-only), then the operation. -/
def decodeTransaction (op : OpWord) : Except DecodeError Instr :=
  if op.code.getLsbD 14 then .error .malformed
  else
    let write := op.code.getLsbD 13
    match lookupView (op.code.setWidth 13) with
    | .error e => .error e
    | .ok view =>
      if write && decide (view = .input) then .error .readOnly
      else if transactionPacked op view write then .ok (transactionOf view write op.data)
      else .error .malformed

/-- The field name with a number (log entry 1): 0 to 25 the named entries of R271 in its order, `0x1000 + off` a padding
entry, `0x8000 + n` any other name. -/
def fieldNameOf (n : Nat) : Except DecodeError FieldName :=
  match n with
  | 0 => .ok .config
  | 1 => .ok .control
  | 2 => .ok .clearOnEvent
  | 3 => .ok .haltOnEvent
  | 4 => .ok .stopOnEvent
  | 5 => .ok .startOnEvent
  | 6 => .ok .count
  | 7 => .ok .state
  | 8 => .ok .input
  | 9 => .ok .registerMode
  | 10 => .ok .output
  | 11 => .ok .outputDirectionControl
  | 12 => .ok .conflictResolution
  | 13 => .ok .dmaRequest
  | 14 => .ok .interruptOnEvent
  | 15 => .ok .eventOccurred
  | 16 => .ok .interruptOnConflict
  | 17 => .ok .conflictOccurred
  | 18 => .ok .matchCapture
  | 19 => .ok .matchAliasLow
  | 20 => .ok .matchAliasHigh
  | 21 => .ok .captureControl
  | 22 => .ok .captureControlAliasLow
  | 23 => .ok .captureControlAliasHigh
  | 24 => .ok .event
  | 25 => .ok .outputOnEvent
  | n =>
    if 0x8000 ≤ n then .ok (.other (n - 0x8000))
    else if 0x1000 ≤ n ∧ n < 0x2000 then .ok (.reserved (n - 0x1000))
    else .error .badOperand

/-- The array with a number, in the order of R210's table (log entry 1). -/
def slotArrayOf (n : Nat) : Except DecodeError SlotArray :=
  match n with
  | 0 => .ok .matchCapture
  | 1 => .ok .matchAliasLow
  | 2 => .ok .matchAliasHigh
  | 3 => .ok .captureControl
  | 4 => .ok .captureControlAliasLow
  | 5 => .ok .captureControlAliasHigh
  | 6 => .ok .event
  | 7 => .ok .outputOnEvent
  | _ => .error .badOperand

/-- The selector with a number, in the order of R210's table (log entry 1). -/
def slotSelectOf (n : Nat) : Except DecodeError SlotSelect :=
  match n with
  | 0 => .ok .word
  | 1 => .ok .lowHalf
  | 2 => .ok .highHalf
  | 3 => .ok .half
  | 4 => .ok .enabledInState
  | 5 => .ok .control
  | 6 => .ok .set
  | 7 => .ok .clear
  | _ => .error .badOperand

/-- The low byte of a half. -/
def loByte (v : HalfWord) : Byte := v.setWidth 8

/-- The high byte of a half. -/
def hiByte (v : HalfWord) : Byte := (v >>> 8).setWidth 8

/-- The operand words after the data word are clear. -/
def tailClear (op : OpWord) : Bool :=
  decide (op.x0 = 0) && decide (op.x1 = 0) && decide (op.x2 = 0) && decide (op.x3 = 0)

/-- The operation, if the unused bits of its packing are clear. -/
def packed (ok : Bool) (i : Instr) : Except DecodeError Instr :=
  if ok then .ok i else .error .malformed

/-- `CHECK_OFFSET`: the name's number in `arg`, the documented offset in `data`. -/
def decodeCheckOffset (op : OpWord) : Except DecodeError Instr :=
  match fieldNameOf op.arg.toNat with
  | .ok name => packed (tailClear op) (.checkOffset name op.data.toNat)
  | .error e => .error e

/-- `CHECK_STRIDE`: the name's number in `arg`, the declared stride in `data`. -/
def decodeCheckStride (op : OpWord) : Except DecodeError Instr :=
  match fieldNameOf op.arg.toNat with
  | .ok name => packed (tailClear op) (.checkStride name op.data.toNat)
  | .error e => .error e

/-- The register operand of `FIELD_RD` and `FIELD_WR`: the code `h ++ off` of one of its transactions, in `arg[12:0]`. -/
def decodeRegister (op : OpWord) : Except DecodeError View :=
  if op.arg.toNat < 0x2000 then lookupView (op.arg.setWidth 13) else .error .malformed

/-- `FIELD_RD`: the register in `arg`, the bit-offset in the low byte of `x0`, the bit-width less one in its high byte. -/
def decodeFieldRd (op : OpWord) : Except DecodeError Instr :=
  match decodeRegister op with
  | .ok view =>
    packed (decide (op.data = 0) && decide (op.x1 = 0) && decide (op.x2 = 0) && decide (op.x3 = 0))
      (.fieldRd view (loByte op.x0).toNat ((hiByte op.x0).toNat + 1))
  | .error e => .error e

/-- `FIELD_WR`: as `FIELD_RD`, with the value in `data`; its write transaction needs a writable register (R102 test 5). -/
def decodeFieldWr (op : OpWord) : Except DecodeError Instr :=
  match decodeRegister op with
  | .ok view =>
    if view = .input then .error .readOnly
    else packed (decide (op.x1 = 0) && decide (op.x2 = 0) && decide (op.x3 = 0))
      (.fieldWr view (loByte op.x0).toNat ((hiByte op.x0).toNat + 1) op.data)
  | .error e => .error e

/-- `SLOT_ADDR`: the array in `x0`, the selector in `x1`, the index in `arg`. -/
def decodeSlotAddr (op : OpWord) : Except DecodeError Instr :=
  match slotArrayOf op.x0.toNat, slotSelectOf op.x1.toNat with
  | .ok arr, .ok sel =>
    packed (decide (op.data = 0) && decide (op.x2 = 0) && decide (op.x3 = 0)) (.slotAddr arr op.arg.toNat sel)
  | .error e, _ => .error e
  | _, .error e => .error e

/-- `SCT_EVAL`: the counter in `data`, the inputs in the low and their previous levels in the high byte of `x0`, the pins
in `x1`, their previous levels in `x2`. -/
def decodeSctEval (op : OpWord) : Except DecodeError Instr :=
  packed (decide (op.arg = 0) && decide (op.x3 = 0))
    (.sctEval { cnt := op.data, inp := loByte op.x0, prev := hiByte op.x0, out := op.x1, outPrev := op.x2 })

/-- `CONFIGURE_EVENT`: the slot in `arg`, the gate in `data`, the eight field values in the bytes of `x0` to `x3`. -/
def decodeConfigureEvent (op : OpWord) : Except DecodeError Instr :=
  .ok (.configureEvent op.arg.toNat
    { matchRegister := loByte op.x0, counterHalf := hiByte op.x0, ioIsOutput := loByte op.x1, ioPin := hiByte op.x1,
      ioCondition := loByte op.x2, condition := hiByte op.x2, loadState := loByte op.x3, nextState := hiByte op.x3 }
    op.data)

/-- Decoding an operation of format `N` by its 4-bit selector (R105). -/
def decodeSelected (op : OpWord) : Except DecodeError Instr :=
  if op.code.toNat % 0x8000 / 16 ≠ 0 then .error .malformed
  else match op.code.toNat % 16 with
    | 0 => packed (decide (op.arg = 0) && decide (op.data = 0) && tailClear op) .verify
    | 1 => decodeCheckOffset op
    | 2 => packed (decide (op.arg = 0) && tailClear op) (.checkSize op.data.toNat)
    | 3 => decodeCheckStride op
    | 4 => packed (decide (op.arg = 0) && tailClear op) (.bind op.data)
    | 5 => decodeFieldRd op
    | 6 => decodeFieldWr op
    | 7 => decodeSlotAddr op
    | 8 => decodeSctEval op
    | 9 => decodeConfigureEvent op
    | _ => .error .unassignedSelector

/-- The decoder: bit 15 of the code tells a selector of R105 from a transaction code of R100 (log entry 1). -/
def decode (op : OpWord) : Except DecodeError Instr :=
  if op.code.getLsbD 15 then decodeSelected op else decodeTransaction op

/-! ## The encoder -/

/-- The code `h ++ off` of a view (R103, R104): the row's code with the slot index put at its place. -/
def View.code : View → BitVec 13
  | .config => 0x0000
  | .control => 0x0004
  | .controlLow => 0x1004
  | .controlHigh => 0x1006
  | .clearOnEvent => 0x0008
  | .clearOnEventLow => 0x1008
  | .clearOnEventHigh => 0x100A
  | .haltOnEvent => 0x000C
  | .haltOnEventLow => 0x100C
  | .haltOnEventHigh => 0x100E
  | .stopOnEvent => 0x0010
  | .stopOnEventLow => 0x1010
  | .stopOnEventHigh => 0x1012
  | .startOnEvent => 0x0014
  | .startOnEventLow => 0x1014
  | .startOnEventHigh => 0x1016
  | .count => 0x0040
  | .countLow => 0x1040
  | .countHigh => 0x1042
  | .state => 0x0044
  | .stateLow => 0x1044
  | .stateHigh => 0x1046
  | .input => 0x0048
  | .registerMode => 0x004C
  | .registerModeLow => 0x104C
  | .registerModeHigh => 0x104E
  | .output => 0x0050
  | .outputDirectionControl => 0x0054
  | .conflictResolution => 0x0058
  | .dmaRequest0 => 0x005C
  | .dmaRequest1 => 0x0060
  | .interruptOnEvent => 0x00F0
  | .eventOccurred => 0x00F4
  | .interruptOnConflict => 0x00F8
  | .conflictOccurred => 0x00FC
  | .matchCapture i => 0x0100 ||| (BitVec.ofNat 13 i.val <<< 2)
  | .matchCaptureLow i => 0x1100 ||| (BitVec.ofNat 13 i.val <<< 2)
  | .matchCaptureHigh i => 0x1102 ||| (BitVec.ofNat 13 i.val <<< 2)
  | .matchAliasLow i => 0x1180 ||| (BitVec.ofNat 13 i.val <<< 1)
  | .matchAliasHigh i => 0x11C0 ||| (BitVec.ofNat 13 i.val <<< 1)
  | .captureControl i => 0x0200 ||| (BitVec.ofNat 13 i.val <<< 2)
  | .captureControlLow i => 0x1200 ||| (BitVec.ofNat 13 i.val <<< 2)
  | .captureControlHigh i => 0x1202 ||| (BitVec.ofNat 13 i.val <<< 2)
  | .captureControlAliasLow i => 0x1280 ||| (BitVec.ofNat 13 i.val <<< 1)
  | .captureControlAliasHigh i => 0x12C0 ||| (BitVec.ofNat 13 i.val <<< 1)
  | .eventEnabledInState i => 0x0300 ||| (BitVec.ofNat 13 i.val <<< 3)
  | .eventControl i => 0x0304 ||| (BitVec.ofNat 13 i.val <<< 3)
  | .outputOnEventSet i => 0x0500 ||| (BitVec.ofNat 13 i.val <<< 3)
  | .outputOnEventClear i => 0x0504 ||| (BitVec.ofNat 13 i.val <<< 3)

/-- The operation word of a 32-bit transaction: `tc = w ++ 0 ++ off` with the data of a write. -/
def encode32 (view : View) : Access32 → OpWord
  | .read => { code := view.code.setWidth 16, arg := 0, data := 0, x0 := 0, x1 := 0, x2 := 0, x3 := 0 }
  | .write v => { code := 0x2000 ||| view.code.setWidth 16, arg := 0, data := v, x0 := 0, x1 := 0, x2 := 0, x3 := 0 }

/-- The operation word of a 16-bit transaction: `tc = w ++ 1 ++ off` with the data of a write. -/
def encode16 (view : View) : Access16 → OpWord
  | .read => { code := view.code.setWidth 16, arg := 0, data := 0, x0 := 0, x1 := 0, x2 := 0, x3 := 0 }
  | .write v =>
    { code := 0x2000 ||| view.code.setWidth 16, arg := 0, data := v.setWidth 32, x0 := 0, x1 := 0, x2 := 0, x3 := 0 }

/-- The operation word of a format-`N` operation: the selector with bit 15 set, and its operand words. -/
def encodeSelected (sel : HalfWord) (arg : HalfWord) (data : Word) (x0 x1 x2 x3 : HalfWord) : OpWord :=
  { code := 0x8000 ||| sel, arg := arg, data := data, x0 := x0, x1 := x1, x2 := x2, x3 := x3 }

/-- The number of a field name (log entry 1). -/
def FieldName.number : FieldName → Nat
  | .config => 0
  | .control => 1
  | .clearOnEvent => 2
  | .haltOnEvent => 3
  | .stopOnEvent => 4
  | .startOnEvent => 5
  | .count => 6
  | .state => 7
  | .input => 8
  | .registerMode => 9
  | .output => 10
  | .outputDirectionControl => 11
  | .conflictResolution => 12
  | .dmaRequest => 13
  | .interruptOnEvent => 14
  | .eventOccurred => 15
  | .interruptOnConflict => 16
  | .conflictOccurred => 17
  | .matchCapture => 18
  | .matchAliasLow => 19
  | .matchAliasHigh => 20
  | .captureControl => 21
  | .captureControlAliasLow => 22
  | .captureControlAliasHigh => 23
  | .event => 24
  | .outputOnEvent => 25
  | .reserved off => 0x1000 + off
  | .other n => 0x8000 + n

/-- The number of an array (log entry 1). -/
def SlotArray.number : SlotArray → HalfWord
  | .matchCapture => 0
  | .matchAliasLow => 1
  | .matchAliasHigh => 2
  | .captureControl => 3
  | .captureControlAliasLow => 4
  | .captureControlAliasHigh => 5
  | .event => 6
  | .outputOnEvent => 7

/-- The number of a selector (log entry 1). -/
def SlotSelect.number : SlotSelect → HalfWord
  | .word => 0
  | .lowHalf => 1
  | .highHalf => 2
  | .half => 3
  | .enabledInState => 4
  | .control => 5
  | .set => 6
  | .clear => 7

/-- Two bytes as a half, the second one high. -/
def joinBytes (lo hi : Byte) : HalfWord := hi ++ lo

/-- The half that carries a sub-field pair: the bit-offset low, the bit-width less one high. -/
def pairHalf (off width : Nat) : HalfWord := joinBytes (BitVec.ofNat 8 off) (BitVec.ofNat 8 (width - 1))

/-- The encoder: the operation word of an operation (R100, R105; the packing is log entry 1). -/
def encode : Instr → OpWord
  | .config a => encode32 .config a
  | .control a => encode32 .control a
  | .controlLow a => encode16 .controlLow a
  | .controlHigh a => encode16 .controlHigh a
  | .clearOnEvent a => encode32 .clearOnEvent a
  | .clearOnEventLow a => encode16 .clearOnEventLow a
  | .clearOnEventHigh a => encode16 .clearOnEventHigh a
  | .haltOnEvent a => encode32 .haltOnEvent a
  | .haltOnEventLow a => encode16 .haltOnEventLow a
  | .haltOnEventHigh a => encode16 .haltOnEventHigh a
  | .stopOnEvent a => encode32 .stopOnEvent a
  | .stopOnEventLow a => encode16 .stopOnEventLow a
  | .stopOnEventHigh a => encode16 .stopOnEventHigh a
  | .startOnEvent a => encode32 .startOnEvent a
  | .startOnEventLow a => encode16 .startOnEventLow a
  | .startOnEventHigh a => encode16 .startOnEventHigh a
  | .count a => encode32 .count a
  | .countLow a => encode16 .countLow a
  | .countHigh a => encode16 .countHigh a
  | .state a => encode32 .state a
  | .stateLow a => encode16 .stateLow a
  | .stateHigh a => encode16 .stateHigh a
  | .input => encode32 .input .read
  | .registerMode a => encode32 .registerMode a
  | .registerModeLow a => encode16 .registerModeLow a
  | .registerModeHigh a => encode16 .registerModeHigh a
  | .output a => encode32 .output a
  | .outputDirectionControl a => encode32 .outputDirectionControl a
  | .conflictResolution a => encode32 .conflictResolution a
  | .dmaRequest0 a => encode32 .dmaRequest0 a
  | .dmaRequest1 a => encode32 .dmaRequest1 a
  | .interruptOnEvent a => encode32 .interruptOnEvent a
  | .eventOccurred a => encode32 .eventOccurred a
  | .interruptOnConflict a => encode32 .interruptOnConflict a
  | .conflictOccurred a => encode32 .conflictOccurred a
  | .matchCapture i a => encode32 (.matchCapture i) a
  | .matchCaptureLow i a => encode16 (.matchCaptureLow i) a
  | .matchCaptureHigh i a => encode16 (.matchCaptureHigh i) a
  | .matchAliasLow i a => encode16 (.matchAliasLow i) a
  | .matchAliasHigh i a => encode16 (.matchAliasHigh i) a
  | .captureControl i a => encode32 (.captureControl i) a
  | .captureControlLow i a => encode16 (.captureControlLow i) a
  | .captureControlHigh i a => encode16 (.captureControlHigh i) a
  | .captureControlAliasLow i a => encode16 (.captureControlAliasLow i) a
  | .captureControlAliasHigh i a => encode16 (.captureControlAliasHigh i) a
  | .eventEnabledInState i a => encode32 (.eventEnabledInState i) a
  | .eventControl i a => encode32 (.eventControl i) a
  | .outputOnEventSet i a => encode32 (.outputOnEventSet i) a
  | .outputOnEventClear i a => encode32 (.outputOnEventClear i) a
  | .verify => encodeSelected 0 0 0 0 0 0 0
  | .checkOffset name d => encodeSelected 1 (BitVec.ofNat 16 name.number) (BitVec.ofNat 32 d) 0 0 0 0
  | .checkSize d => encodeSelected 2 0 (BitVec.ofNat 32 d) 0 0 0 0
  | .checkStride name s => encodeSelected 3 (BitVec.ofNat 16 name.number) (BitVec.ofNat 32 s) 0 0 0 0
  | .bind base => encodeSelected 4 0 base 0 0 0 0
  | .fieldRd reg o w => encodeSelected 5 (reg.code.setWidth 16) 0 (pairHalf o w) 0 0 0
  | .fieldWr reg o w f => encodeSelected 6 (reg.code.setWidth 16) f (pairHalf o w) 0 0 0
  | .slotAddr arr i sel => encodeSelected 7 (BitVec.ofNat 16 i) 0 arr.number sel.number 0 0
  | .sctEval d => encodeSelected 8 0 d.cnt (joinBytes d.inp d.prev) d.out d.outPrev 0
  | .configureEvent slot f gate =>
    encodeSelected 9 (BitVec.ofNat 16 slot) gate (joinBytes f.matchRegister f.counterHalf)
      (joinBytes f.ioIsOutput f.ioPin) (joinBytes f.ioCondition f.condition) (joinBytes f.loadState f.nextState)

/-! ## Table words -/

/-- The operation word whose bits, counted from bit 0 of the code, are the number `w`: the code first, then `arg`, `data`
and `x0` to `x3`. -/
def OpWord.ofBits (w : Nat) : OpWord :=
  { code := BitVec.ofNat 16 w, arg := BitVec.ofNat 16 (w / 2 ^ 16), data := BitVec.ofNat 32 (w / 2 ^ 32),
    x0 := BitVec.ofNat 16 (w / 2 ^ 64), x1 := BitVec.ofNat 16 (w / 2 ^ 80), x2 := BitVec.ofNat 16 (w / 2 ^ 96),
    x3 := BitVec.ofNat 16 (w / 2 ^ 112) }

/-- The operation a table word stands for. A row of more than eight bits is a transaction code (R103); a row of at most
eight bits is a selector (R105), which the packing marks with bit 15 of the code. -/
def OpWord.ofTable (nbits w : Nat) : OpWord :=
  if nbits ≤ 8 then OpWord.ofBits (0x8000 + w % 2 ^ nbits) else OpWord.ofBits (w % 2 ^ nbits)

/-- What the decoder reads from a table word; every bit above `nbits` is 0. -/
def decodeTableWord (nbits w : Nat) : Option Instr :=
  match decode (OpWord.ofTable nbits w) with
  | .ok i => some i
  | .error _ => none

end Sys2Proof
end

