-- ==== Sys2Proof/Config.lean ====
section
/-! DEFINITION. The fixed numbers of the block, the shapes of its parameters (spec/00_scope.md R8) and the free values
(R12 `draw`). The values of the layouts and tables stand in Machine/Layout.lean. -/

namespace Sys2Proof

/-- `MAP_SIZE`: the extent of the register map in bytes (R8). -/
abbrev mapSize : Nat := 0x580

/-- `ADDR_BITS`: the width of a bus address (R8). -/
abbrev addrBits : Nat := 32

/-- `NUM_INPUTS`: the input lines selectable as a condition source (R8). -/
abbrev numInputs : Nat := 8

/-- The draws of the environment (R12 `draw(T)`: "a free value ... chosen by the environment, under no law"). The constant
has no body: nothing can be proved of a value of it. The `n`-th draw of a run is `freeWord n`; State counts the draws
taken. -/
opaque Config.freeWord : Nat → Word

/-- `SLOT_MODE` (R8): the peripheral-global match-or-capture mode. -/
inductive SlotMode where
  | matching
  | capturing
deriving DecidableEq, Repr

/-- `FLAG_CLEAR_RULE` (R8, R312). -/
inductive FlagClearRule where
  | writeOneToClear
  | readClears
deriving DecidableEq, Repr

/-- `NOLOAD_RULE` (R8, R247). -/
inductive NoLoadRule where
  | draw
  | keep
  | add
deriving DecidableEq, Repr

/-- `MULTI_LOAD_RULE` (R8, R247). -/
inductive MultiLoadRule where
  | drawAmongLoaders
  | highestNumbered
deriving DecidableEq, Repr

/-- `CONFLICT_RULE` (R8, R254). -/
inductive ConflictRule where
  | draw
  | noChange
  | set
  | clear
  | toggle
deriving DecidableEq, Repr

/-- A sub-field position: the pair (bit-offset, bit-width) of R110. -/
structure SubField where
  off   : Nat
  width : Nat
deriving DecidableEq, Repr

/-- `CONFIG_LAYOUT` (R8, R115): the sub-fields of `config`. -/
structure ConfigLayout where
  unify             : SubField
  clockMode         : SubField
  clockEdge         : SubField
  clockInput        : SubField
  preventReloadLow  : SubField
  preventReloadHigh : SubField
deriving DecidableEq, Repr

/-- `CTRL_LAYOUT` (R8, R116): the sub-fields of one ControlRegister. -/
structure CtrlLayout where
  countDown      : SubField
  pauseCounter   : SubField
  haltSct        : SubField
  clearCounter   : SubField
  bidirectional  : SubField
  countPrescaler : SubField
deriving DecidableEq, Repr

/-- `EVCTRL_LAYOUT` (R8, R118): the sub-fields of `event[i].control`. -/
structure EvCtrlLayout where
  matchRegister : SubField
  counterHalf   : SubField
  ioIsOutput    : SubField
  ioPin         : SubField
  ioCondition   : SubField
  condition     : SubField
  loadState     : SubField
  nextState     : SubField
deriving DecidableEq, Repr

/-- The fields of a layout as a list, in the order of the spec's table. -/
def ConfigLayout.fields (l : ConfigLayout) : List SubField :=
  [l.unify, l.clockMode, l.clockEdge, l.clockInput, l.preventReloadLow, l.preventReloadHigh]

/-- The fields of a layout as a list, in the order of the spec's table. -/
def CtrlLayout.fields (l : CtrlLayout) : List SubField :=
  [l.countDown, l.pauseCounter, l.haltSct, l.clearCounter, l.bidirectional, l.countPrescaler]

/-- The fields of a layout as a list, in the order of the spec's table. -/
def EvCtrlLayout.fields (l : EvCtrlLayout) : List SubField :=
  [l.matchRegister, l.counterHalf, l.ioIsOutput, l.ioPin, l.ioCondition, l.condition, l.loadState, l.nextState]

/-- The kind of a descriptor entry (R270). -/
inductive EntryKind where
  | field
  | reserved
deriving DecidableEq, Repr

/-- The name of a part inside an element (R270, R271): a half of a split register or a word of a record. -/
inductive SubName where
  | low
  | high
  | enabledInState
  | control
  | set
  | clear
  | other (n : Nat)
deriving DecidableEq, Repr

/-- One part `(subname, suboffset, subbytes)` inside an element (R270). -/
structure SubEntry where
  name  : SubName
  off   : Nat
  bytes : Nat
deriving DecidableEq, Repr

/-- One entry `(name, kind, unit, count, subs)` of the descriptor (R270). -/
structure Entry where
  name  : FieldName
  kind  : EntryKind
  unit  : Nat
  count : Nat
  subs  : List SubEntry
deriving DecidableEq, Repr

end Sys2Proof
end

