-- ==== Sys2Proof/Machine/Operands.lean ====
section
/-! DEFINITION. The operand forms (spec/30_encoding.md R110 to R112, spec/20_memory.md R73, R74): sub-fields as explicit
(bit-offset, bit-width) pairs, the halves of a word, masks. -/

namespace Sys2Proof.Machine

/-- `mask(o, w) = ((1 << w) - 1) << o` at width `n` (R11, R148 b: `w = 32` gives the all-ones word). -/
def mask (n o w : Nat) : BitVec n := BitVec.ofNat n (2 ^ w - 1) <<< o

/-- Extraction (R111): `extract(v, o, w) = (v >> o) & ((1 << w) - 1)`. -/
def extract {n : Nat} (v : BitVec n) (o w : Nat) : BitVec n := (v >>> o) &&& BitVec.ofNat n (2 ^ w - 1)

/-- Insertion (R112): `insert(v, o, w, f) = (v & ~mask(o, w)) | ((f << o) & mask(o, w))`. -/
def insert {n : Nat} (v : BitVec n) (o w : Nat) (f : BitVec n) : BitVec n :=
  (v &&& ~~~ mask n o w) ||| ((f <<< o) &&& mask n o w)

/-- The value of a sub-field of a word (R111). -/
def fieldValue {n : Nat} (f : SubField) (v : BitVec n) : Nat := (extract v f.off f.width).toNat

/-- The value of a one-bit sub-field: the bit at its offset. -/
def fieldFlag {n : Nat} (f : SubField) (v : BitVec n) : Bool := v.getLsbD f.off

/-- The mask of a sub-field. -/
def fieldMask (n : Nat) (f : SubField) : BitVec n := mask n f.off f.width

/-- The bits of a word that some field of the list covers. -/
def fieldsMask (n : Nat) (fs : List SubField) : BitVec n := fs.foldr (fun f m => fieldMask n f ||| m) 0

/-- A half of a word (R73): bits 15:0 low, bits 31:16 high. -/
def halfOf (k : Half) (v : Word) : HalfWord :=
  match k with
  | .low => v.extractLsb' 0 16
  | .high => v.extractLsb' 16 16

/-- A word from its halves: `hi ++ lo` (R74). -/
def joinHalves (lo hi : HalfWord) : Word := hi ++ lo

/-- A word with one half replaced and the other kept (R74, R143). -/
def withHalf (k : Half) (v : Word) (x : HalfWord) : Word :=
  match k with
  | .low => joinHalves x (halfOf .high v)
  | .high => joinHalves (halfOf .low v) x

/-- The mask of a half in its word. -/
def halfMask : Half → Word
  | .low => 0x0000FFFF
  | .high => 0xFFFF0000

/-- The mask of the halves a predicate picks. -/
def halvesMask (p : Half → Bool) : Word := (if p .low then halfMask .low else 0) ||| (if p .high then halfMask .high else 0)

/-- The bit offset of a half in its word (R250 `off_h`). -/
def halfOff : Half → Nat
  | .low => 0
  | .high => 16

/-- Both halves of a word hold the same half: the two ControlRegisters share one layout (R116). -/
def inBothHalves (x : HalfWord) : Word := joinHalves x x

/-- `old` with the bits of `m` taken from `new`. -/
def merge {n : Nat} (m old new : BitVec n) : BitVec n := (old &&& ~~~ m) ||| (new &&& m)

/-- `old` with the bits of `m` drawn (R12): a word of which no bit is drawn is `old` itself. -/
def drawInto {n : Nat} (m old free : BitVec n) : BitVec n := if m = 0 then old else merge m old free

/-- The word whose bit `e` (`0 ≤ e ≤ 15`) is `f e` and whose other bits are 0: the bit-per-event and bit-per-pin format of
R119. -/
def slotBits (f : Slot → Bool) : Word :=
  (List.finRange 16).foldr (fun e m => if f e then m ||| (1#32 <<< e.val) else m) 0

/-- Where a view's content is stored (R142 `storage`): which part of a stored word it addresses. -/
inductive Part where
  | whole
  | half (k : Half)
deriving DecidableEq, Repr

/-- A sub-field pair `(o, w)` of an `N`-bit word (R110): `w ≥ 1` and `o + w ≤ N`. -/
def fieldPairOk (bits off width : Nat) : Bool :=
  decide (1 ≤ width) && decide (off + width ≤ bits)

/-- The selectors R210 declares for each array. -/
def slotDeclares : SlotArray → SlotSelect → Bool
  | .matchCapture, .word => true
  | .matchCapture, .lowHalf => true
  | .matchCapture, .highHalf => true
  | .captureControl, .word => true
  | .captureControl, .lowHalf => true
  | .captureControl, .highHalf => true
  | .matchAliasLow, .half => true
  | .matchAliasHigh, .half => true
  | .captureControlAliasLow, .half => true
  | .captureControlAliasHigh, .half => true
  | .event, .enabledInState => true
  | .event, .control => true
  | .outputOnEvent, .set => true
  | .outputOnEvent, .clear => true
  | _, _ => false

/-- A base the map can be bound to (R283): a multiple of 4 from which the map does not wrap. -/
def baseOk (base : Word) : Bool := decide (base.toNat % 4 = 0) && decide (base.toNat + mapSize ≤ 2 ^ addrBits)

end Sys2Proof.Machine
end

