-- ==== Sys2Proof/Machine/Image.lean ====
section
/-! DEFINITION. The register image (spec/10_state.md R24, R30): every stored word of the map under its own name, one reader
and one writer of it, and the storage of each view (R27, R46, R48). -/

namespace Sys2Proof.Machine

/-- The words of the map (R30). `input` is in the map and has no storage: it shows the pins (R36, R331). -/
inductive Reg where
  | config
  | control
  | clearOnEvent
  | haltOnEvent
  | stopOnEvent
  | startOnEvent
  | count
  | state
  | input
  | registerMode
  | output
  | outputDirectionControl
  | conflictResolution
  | dmaRequest0
  | dmaRequest1
  | interruptOnEvent
  | eventOccurred
  | interruptOnConflict
  | conflictOccurred
  | matchCapture (i : Slot)
  | captureControl (i : Slot)
  | eventEnabledInState (i : Slot)
  | eventControl (i : Slot)
  | outputOnEventSet (i : Slot)
  | outputOnEventClear (i : Slot)
deriving DecidableEq, Repr

/-- The register image: the content of every stored word (R24). The words of reserved regions hold an undefined value that
no operation can observe (R29, R79) and are not stored. -/
structure Regs where
  config                 : Word
  control                : Word
  clearOnEvent           : Word
  haltOnEvent            : Word
  stopOnEvent            : Word
  startOnEvent           : Word
  count                  : Word
  state                  : Word
  registerMode           : Word
  output                 : Word
  outputDirectionControl : Word
  conflictResolution     : Word
  dmaRequest0            : Word
  dmaRequest1            : Word
  interruptOnEvent       : Word
  eventOccurred          : Word
  interruptOnConflict    : Word
  conflictOccurred       : Word
  matchCapture           : Vector Word 16
  captureControl         : Vector Word 16
  eventEnabledInState    : Vector Word 16
  eventControl           : Vector Word 16
  outputOnEventSet       : Vector Word 16
  outputOnEventClear     : Vector Word 16
deriving DecidableEq, Repr

/-- The stored content of a word of the map: `x[offset/4]` (R12, R24). `input` stores nothing. -/
def Regs.get (x : Regs) : Reg → Word
  | .config => x.config
  | .control => x.control
  | .clearOnEvent => x.clearOnEvent
  | .haltOnEvent => x.haltOnEvent
  | .stopOnEvent => x.stopOnEvent
  | .startOnEvent => x.startOnEvent
  | .count => x.count
  | .state => x.state
  | .input => 0
  | .registerMode => x.registerMode
  | .output => x.output
  | .outputDirectionControl => x.outputDirectionControl
  | .conflictResolution => x.conflictResolution
  | .dmaRequest0 => x.dmaRequest0
  | .dmaRequest1 => x.dmaRequest1
  | .interruptOnEvent => x.interruptOnEvent
  | .eventOccurred => x.eventOccurred
  | .interruptOnConflict => x.interruptOnConflict
  | .conflictOccurred => x.conflictOccurred
  | .matchCapture i => x.matchCapture[i]
  | .captureControl i => x.captureControl[i]
  | .eventEnabledInState i => x.eventEnabledInState[i]
  | .eventControl i => x.eventControl[i]
  | .outputOnEventSet i => x.outputOnEventSet[i]
  | .outputOnEventClear i => x.outputOnEventClear[i]

/-- The image with one word replaced: `x[offset/4] <- v` (R12). Nothing is stored at `input`. -/
def Regs.set (x : Regs) (r : Reg) (v : Word) : Regs :=
  match r with
  | .config => { x with config := v }
  | .control => { x with control := v }
  | .clearOnEvent => { x with clearOnEvent := v }
  | .haltOnEvent => { x with haltOnEvent := v }
  | .stopOnEvent => { x with stopOnEvent := v }
  | .startOnEvent => { x with startOnEvent := v }
  | .count => { x with count := v }
  | .state => { x with state := v }
  | .input => x
  | .registerMode => { x with registerMode := v }
  | .output => { x with output := v }
  | .outputDirectionControl => { x with outputDirectionControl := v }
  | .conflictResolution => { x with conflictResolution := v }
  | .dmaRequest0 => { x with dmaRequest0 := v }
  | .dmaRequest1 => { x with dmaRequest1 := v }
  | .interruptOnEvent => { x with interruptOnEvent := v }
  | .eventOccurred => { x with eventOccurred := v }
  | .interruptOnConflict => { x with interruptOnConflict := v }
  | .conflictOccurred => { x with conflictOccurred := v }
  | .matchCapture i => { x with matchCapture := x.matchCapture.set i.val v i.isLt }
  | .captureControl i => { x with captureControl := x.captureControl.set i.val v i.isLt }
  | .eventEnabledInState i => { x with eventEnabledInState := x.eventEnabledInState.set i.val v i.isLt }
  | .eventControl i => { x with eventControl := x.eventControl.set i.val v i.isLt }
  | .outputOnEventSet i => { x with outputOnEventSet := x.outputOnEventSet.set i.val v i.isLt }
  | .outputOnEventClear i => { x with outputOnEventClear := x.outputOnEventClear.set i.val v i.isLt }

/-- The word and the part of it that a view addresses: a split register is one location under two views (R27); an alias slot
has no storage of its own (R46, R48, R212, R214). -/
def storage : View → Reg × Part
  | .config => (.config, .whole)
  | .control => (.control, .whole)
  | .controlLow => (.control, .half .low)
  | .controlHigh => (.control, .half .high)
  | .clearOnEvent => (.clearOnEvent, .whole)
  | .clearOnEventLow => (.clearOnEvent, .half .low)
  | .clearOnEventHigh => (.clearOnEvent, .half .high)
  | .haltOnEvent => (.haltOnEvent, .whole)
  | .haltOnEventLow => (.haltOnEvent, .half .low)
  | .haltOnEventHigh => (.haltOnEvent, .half .high)
  | .stopOnEvent => (.stopOnEvent, .whole)
  | .stopOnEventLow => (.stopOnEvent, .half .low)
  | .stopOnEventHigh => (.stopOnEvent, .half .high)
  | .startOnEvent => (.startOnEvent, .whole)
  | .startOnEventLow => (.startOnEvent, .half .low)
  | .startOnEventHigh => (.startOnEvent, .half .high)
  | .count => (.count, .whole)
  | .countLow => (.count, .half .low)
  | .countHigh => (.count, .half .high)
  | .state => (.state, .whole)
  | .stateLow => (.state, .half .low)
  | .stateHigh => (.state, .half .high)
  | .input => (.input, .whole)
  | .registerMode => (.registerMode, .whole)
  | .registerModeLow => (.registerMode, .half .low)
  | .registerModeHigh => (.registerMode, .half .high)
  | .output => (.output, .whole)
  | .outputDirectionControl => (.outputDirectionControl, .whole)
  | .conflictResolution => (.conflictResolution, .whole)
  | .dmaRequest0 => (.dmaRequest0, .whole)
  | .dmaRequest1 => (.dmaRequest1, .whole)
  | .interruptOnEvent => (.interruptOnEvent, .whole)
  | .eventOccurred => (.eventOccurred, .whole)
  | .interruptOnConflict => (.interruptOnConflict, .whole)
  | .conflictOccurred => (.conflictOccurred, .whole)
  | .matchCapture i => (.matchCapture i, .whole)
  | .matchCaptureLow i => (.matchCapture i, .half .low)
  | .matchCaptureHigh i => (.matchCapture i, .half .high)
  | .matchAliasLow i => (.matchCapture i, .half .low)
  | .matchAliasHigh i => (.matchCapture i, .half .high)
  | .captureControl i => (.captureControl i, .whole)
  | .captureControlLow i => (.captureControl i, .half .low)
  | .captureControlHigh i => (.captureControl i, .half .high)
  | .captureControlAliasLow i => (.captureControl i, .half .low)
  | .captureControlAliasHigh i => (.captureControl i, .half .high)
  | .eventEnabledInState i => (.eventEnabledInState i, .whole)
  | .eventControl i => (.eventControl i, .whole)
  | .outputOnEventSet i => (.outputOnEventSet i, .whole)
  | .outputOnEventClear i => (.outputOnEventClear i, .whole)

/-- The general-knowledge default of `RESET_IMAGE` (R331, log entry 4): `control` has `halt_sct = 1` in both halves, every
other word is 0. -/
def defaultImage : Regs :=
  { config := 0, control := 0x00040004, clearOnEvent := 0, haltOnEvent := 0, stopOnEvent := 0, startOnEvent := 0,
    count := 0, state := 0, registerMode := 0, output := 0, outputDirectionControl := 0, conflictResolution := 0,
    dmaRequest0 := 0, dmaRequest1 := 0, interruptOnEvent := 0, eventOccurred := 0, interruptOnConflict := 0,
    conflictOccurred := 0, matchCapture := Vector.replicate 16 0, captureControl := Vector.replicate 16 0,
    eventEnabledInState := Vector.replicate 16 0, eventControl := Vector.replicate 16 0,
    outputOnEventSet := Vector.replicate 16 0, outputOnEventClear := Vector.replicate 16 0 }

end Sys2Proof.Machine
end

