-- ==== Sys2Proof/Machine/Layout.lean ====
section
/-! DEFINITION. The tables of the spec: the sub-field layouts (spec/30_encoding.md R115, R116, R118), the descriptor `LAYOUT`
(spec/44_harness.md R271), the anchor table (R275) and the declared strides (R278). -/

namespace Sys2Proof.Machine

/-- R115: the positions of the fields of `config`. -/
def specConfigLayout : ConfigLayout :=
  { unify := { off := 0, width := 1 }, clockMode := { off := 1, width := 2 }, clockEdge := { off := 3, width := 1 },
    clockInput := { off := 4, width := 3 }, preventReloadLow := { off := 7, width := 1 },
    preventReloadHigh := { off := 8, width := 1 } }

/-- R116: the positions of the fields of a ControlRegister. -/
def specCtrlLayout : CtrlLayout :=
  { countDown := { off := 0, width := 1 }, pauseCounter := { off := 1, width := 1 }, haltSct := { off := 2, width := 1 },
    clearCounter := { off := 3, width := 1 }, bidirectional := { off := 4, width := 1 },
    countPrescaler := { off := 5, width := 8 } }

/-- R118: the positions of the fields of `event[i].control`. -/
def specEvCtrlLayout : EvCtrlLayout :=
  { matchRegister := { off := 0, width := 4 }, counterHalf := { off := 4, width := 1 },
    ioIsOutput := { off := 5, width := 1 }, ioPin := { off := 6, width := 4 }, ioCondition := { off := 10, width := 2 },
    condition := { off := 14, width := 2 }, loadState := { off := 16, width := 1 },
    nextState := { off := 17, width := 5 } }

/-- The halves of a split register (R271): low at +0, high at +2. -/
def halves : List SubEntry := [{ name := .low, off := 0, bytes := 2 }, { name := .high, off := 2, bytes := 2 }]

/-- The words of an event record (R271). -/
def eventWords : List SubEntry :=
  [{ name := .enabledInState, off := 0, bytes := 4 }, { name := .control, off := 4, bytes := 4 }]

/-- The words of an output record (R271). -/
def outputWords : List SubEntry := [{ name := .set, off := 0, bytes := 4 }, { name := .clear, off := 4, bytes := 4 }]

/-- A padding entry of R271, named by the offset it stands at. -/
def paddingEntry (off unit count : Nat) : Entry :=
  { name := .reserved off, kind := .reserved, unit := unit, count := count, subs := [] }

/-- R271 rows 1 to 7: offsets 0x000 to 0x03F. -/
def layoutControl : List Entry := [
  { name := .config, kind := .field, unit := 4, count := 1, subs := [] },
  { name := .control, kind := .field, unit := 4, count := 1, subs := halves },
  { name := .clearOnEvent, kind := .field, unit := 4, count := 1, subs := halves },
  { name := .haltOnEvent, kind := .field, unit := 4, count := 1, subs := halves },
  { name := .stopOnEvent, kind := .field, unit := 4, count := 1, subs := halves },
  { name := .startOnEvent, kind := .field, unit := 4, count := 1, subs := halves },
  paddingEntry 0x018 4 10]

/-- R271 rows 8 to 20: offsets 0x040 to 0x0FF. -/
def layoutGlobal : List Entry := [
  { name := .count, kind := .field, unit := 4, count := 1, subs := halves },
  { name := .state, kind := .field, unit := 4, count := 1, subs := halves },
  { name := .input, kind := .field, unit := 4, count := 1, subs := [] },
  { name := .registerMode, kind := .field, unit := 4, count := 1, subs := halves },
  { name := .output, kind := .field, unit := 4, count := 1, subs := [] },
  { name := .outputDirectionControl, kind := .field, unit := 4, count := 1, subs := [] },
  { name := .conflictResolution, kind := .field, unit := 4, count := 1, subs := [] },
  { name := .dmaRequest, kind := .field, unit := 4, count := 2, subs := [] },
  paddingEntry 0x064 4 35,
  { name := .interruptOnEvent, kind := .field, unit := 4, count := 1, subs := [] },
  { name := .eventOccurred, kind := .field, unit := 4, count := 1, subs := [] },
  { name := .interruptOnConflict, kind := .field, unit := 4, count := 1, subs := [] },
  { name := .conflictOccurred, kind := .field, unit := 4, count := 1, subs := [] }]

/-- R271 rows 21 to 26: offsets 0x100 to 0x1FF. -/
def layoutMatch : List Entry := [
  { name := .matchCapture, kind := .field, unit := 4, count := 16, subs := halves },
  paddingEntry 0x140 4 16,
  { name := .matchAliasLow, kind := .field, unit := 2, count := 16, subs := [] },
  paddingEntry 0x1A0 2 16,
  { name := .matchAliasHigh, kind := .field, unit := 2, count := 16, subs := [] },
  paddingEntry 0x1E0 2 16]

/-- R271 rows 27 to 32: offsets 0x200 to 0x2FF. -/
def layoutCapture : List Entry := [
  { name := .captureControl, kind := .field, unit := 4, count := 16, subs := halves },
  paddingEntry 0x240 4 16,
  { name := .captureControlAliasLow, kind := .field, unit := 2, count := 16, subs := [] },
  paddingEntry 0x2A0 2 16,
  { name := .captureControlAliasHigh, kind := .field, unit := 2, count := 16, subs := [] },
  paddingEntry 0x2E0 2 16]

/-- R271 rows 33 to 35: offsets 0x300 to 0x57F. -/
def layoutRecords : List Entry := [
  { name := .event, kind := .field, unit := 8, count := 16, subs := eventWords },
  paddingEntry 0x380 4 96,
  { name := .outputOnEvent, kind := .field, unit := 8, count := 16, subs := outputWords }]

/-- R271: the descriptor of this peripheral. -/
def specLayout : List Entry := layoutControl ++ layoutGlobal ++ layoutMatch ++ layoutCapture ++ layoutRecords

/-- R275: the anchor table, seven fields with their documented offsets. -/
def specAnchors : List (FieldName × Nat) :=
  [(.startOnEvent, 0x014), (.count, 0x040), (.interruptOnEvent, 0x0F0), (.matchAliasLow, 0x180),
   (.captureControlAliasLow, 0x280), (.event, 0x300), (.outputOnEvent, 0x500)]

/-- R275: the documented extent. -/
def specExtent : Nat := 0x580

/-- R278: the declared strides, in the order of the rule. -/
def specStrides : List (FieldName × Nat) :=
  [(.matchCapture, 4), (.captureControl, 4), (.event, 8), (.outputOnEvent, 8), (.matchAliasLow, 2), (.matchAliasHigh, 2),
   (.captureControlAliasLow, 2), (.captureControlAliasHigh, 2)]

end Sys2Proof.Machine
end

