-- ==== Sys2Proof/Machine/Params.lean ====
section
/-! DEFINITION. The parameters of the model (spec/00_scope.md R8): what is fixed for one launch of the machine. -/

namespace Sys2Proof.Machine

/-- The parameters a launch fixes (R8, R20). No operation changes them. -/
structure Params where
  layout        : List Entry
  anchors       : List (FieldName × Nat)
  extent        : Nat
  strides       : List (FieldName × Nat)
  configLayout  : ConfigLayout
  ctrlLayout    : CtrlLayout
  evCtrlLayout  : EvCtrlLayout
  resetImage    : Regs
  numStates     : Nat
  slotMode      : SlotMode
  flagClearRule : FlagClearRule
  noLoadRule    : NoLoadRule
  multiLoadRule : MultiLoadRule
  conflictRule  : ConflictRule
deriving DecidableEq, Repr

/-- Two sub-fields of one word do not overlap (R110). -/
def disjointFields (f g : SubField) : Bool :=
  decide (f.off + f.width ≤ g.off) || decide (g.off + g.width ≤ f.off)

/-- A layout of an `n`-bit word is legal (R110): each pair has `w ≥ 1` and `o + w ≤ n`, and no two fields overlap. -/
def fieldsLegal (n : Nat) : List SubField → Bool
  | [] => true
  | f :: fs => decide (1 ≤ f.width) && decide (f.off + f.width ≤ n) && fs.all (disjointFields f) && fieldsLegal n fs

/-- The parameters are ones the model takes as legal: legal layouts (R110) with the three source positions of R118, and a number of
states of 1 to 32 (R117). That every field has the width its table of R115, R116 or R118 gives it is the model's own restriction
(log entry 37: R116 and R118 fix the rows the source gives and that the fields do not overlap; R118 lets the others be wider). -/
def Params.legal (p : Params) : Bool :=
  fieldsLegal 32 p.configLayout.fields && fieldsLegal 16 p.ctrlLayout.fields && fieldsLegal 32 p.evCtrlLayout.fields &&
  decide (p.configLayout.fields.map SubField.width = [1, 2, 1, 3, 1, 1]) &&
  decide (p.ctrlLayout.fields.map SubField.width = [1, 1, 1, 1, 1, 8]) &&
  decide (p.evCtrlLayout.fields.map SubField.width = [4, 1, 1, 4, 2, 2, 1, 5]) &&
  decide (p.evCtrlLayout.matchRegister.off = 0) && decide (p.evCtrlLayout.condition.off = 14) &&
  decide (p.evCtrlLayout.nextState.off = 17) && decide (1 ≤ p.numStates) && decide (p.numStates ≤ 32)

/-- The parameters with the values and defaults of R8. -/
def Params.default : Params :=
  { layout := specLayout, anchors := specAnchors, extent := specExtent, strides := specStrides,
    configLayout := specConfigLayout, ctrlLayout := specCtrlLayout, evCtrlLayout := specEvCtrlLayout,
    resetImage := defaultImage, numStates := 32, slotMode := .matching, flagClearRule := .writeOneToClear,
    noLoadRule := .draw, multiLoadRule := .drawAmongLoaders, conflictRule := .draw }

end Sys2Proof.Machine
end

