-- ==== Sys2Proof/Machine/State.lean ====
section
/-! DEFINITION. The state of one instance (spec/10_state.md R20), what stops a step, and the state after reset
(spec/70_reset_and_hazards.md R331). -/

namespace Sys2Proof.Machine

/-- The lifecycle phase (R21). -/
inductive Phase where
  | unverified
  | buildHalted
  | verified
  | bound
deriving DecidableEq, Repr

/-- The conditions of descriptor well-formedness (R273), in the order the rule lists them. -/
inductive Condition where
  | duplicateName
  | badUnit
  | badCount
  | misalignedOffset
  | subOutsideElement
  | subsOverlap
deriving DecidableEq, Repr

/-- `BuildFailure(code, name, expected, actual)`, the one exception of the block (R300), by its cause (R301). -/
inductive BuildFailure where
  /-- `E_OFFSET`: documented offset, computed offset. -/
  | offset (name : FieldName) (expected actual : Nat)
  /-- `E_SIZE` of the whole map: documented extent, computed size. -/
  | size (expected actual : Nat)
  /-- `E_STRIDE`: declared stride, computed stride. -/
  | stride (name : FieldName) (expected actual : Nat)
  /-- `E_UNKNOWN_FIELD`: documented value; there is no actual one. -/
  | unknownField (name : FieldName) (expected : Nat)
  /-- `E_MALFORMED`: the violated condition, the entry and the offending value. -/
  | malformed (condition : Condition) (name : FieldName) (actual : Nat)
deriving DecidableEq, Repr

/-- What the last operation returned to its issuer (log entry 6): the value of a read (R140, R142), a sub-field (R145), an
address (R210), the pass of a check (R276 to R278, R280), or nothing. -/
inductive Result where
  | nothing
  | word (v : Word)
  | half (v : HalfWord)
  | field (v : Word)
  | address (a : Word)
  | passed
deriving DecidableEq, Repr

/-- An operation waiting to be performed (R22), with the evaluations the SCT agent takes between its two transactions where
it is one of two transactions (R81, R86, log entry 19). -/
structure Pending where
  word    : OpWord
  between : List EvalDraws
deriving DecidableEq, Repr

/-- The state of one instance (R20), with the model's own fields (`params` to `between`, log entries 1, 3, 5, 6, 19). -/
structure State where
  /-- The lifecycle phase (R21). -/
  phase     : Phase
  /-- `BASE`, written once by `BIND` (R21, R283); none while unbound. -/
  base      : Option Word
  /-- The register image (R24). -/
  regs      : Regs
  /-- Hidden device state (R26): the events that fired at the last evaluation, bit `e` for event `e`. -/
  firing    : HalfWord
  /-- Hidden device state (R26, R251): the DMA requests the last evaluation raised, bit `k` for request `k`. -/
  dmaRaised : BitVec 2
  /-- The failure record of a halted build (R304). -/
  failure   : Option BuildFailure
  /-- The parameters of the launch (R8). -/
  params    : Params
  /-- The operations still to be performed, the next one first (R22, R82). -/
  queue     : List Pending
  /-- What the last operation returned. -/
  result    : Result
  /-- How many draws of the environment have been taken (R12). -/
  draws     : Nat
  /-- The evaluations the schedule puts between the two transactions of the operation in progress. -/
  between   : List EvalDraws
deriving DecidableEq, Repr

/-- What stops the machine. The spec has no run-time fault (R302); the one exception, `BuildFailure`, is taken (R304). -/
inductive Fault where
  /-- Raised by `step` alone, when no operation is waiting: no agent acts and the machine takes no step. Safe. -/
  | idle
deriving DecidableEq, Repr

/-- Why the model gives an operation no meaning (R13 `refuse`). Every one is safe: no step is taken where the hardware
may go on. -/
inductive Refusal where
  /-- Raised by `exec` for an instruction that has no meaning yet. -/
  | notModelled (mnemonic : String)
  /-- Raised by `step` for an operation that does not decode (R102, R105, R132). -/
  | undecodable (e : DecodeError)
  /-- Raised by every transaction, `SCT_EVAL` and `SLOT_ADDR` in a phase other than `BOUND` (R149, R240, log entry 26). -/
  | notBound
  /-- Raised by the harness operations outside `UNVERIFIED` and by `BIND` outside `VERIFIED` (R280, R283, R320). -/
  | wrongPhase
  /-- Raised by `BIND` of a base that is not a multiple of 4 or from which the map wraps (R283). -/
  | badBase
  /-- Raised by a write to `count`, `state` or `output` while a counter half it concerns is not halted (R176, R177, R180). -/
  | counterRunning
  /-- Raised by a write to a match/capture slot in capture mode (R211). -/
  | captureModeWrite
  /-- Raised by a write to a status word under `FLAG_CLEAR_RULE = read_clears` (R185). -/
  | flagWriteUnderReadClears
  /-- Raised by a write to `input` (R178), which is read-only. -/
  | readOnly
  /-- Raised by a sub-field operation whose pair is not one of its view (R110, R145). -/
  | fieldOutsideView
  /-- Raised by a sub-field value wider than its field (R112). -/
  | fieldValueTooWide
  /-- Raised by a slot index outside 0 to 15 (R104, R210). -/
  | slotIndexOutOfRange
  /-- Raised by `SLOT_ADDR` for a selector the array does not have (R210). -/
  | undeclaredSelector
deriving DecidableEq, Repr

/-- What a step or a meaning answers. -/
abbrev Answer := Host.Outcome State Fault Refusal

/-- The state a launch with parameters `p` starts in (R330, R331): phase `UNVERIFIED`, no base, the reset image; the model's
own fields are empty (log entries 4, 5, 6). -/
def State.launch (p : Params) : State :=
  { phase := .unverified, base := none, regs := p.resetImage, firing := 0, dmaRaised := 0, failure := none, params := p,
    queue := [], result := .nothing, draws := 0, between := [] }

/-- The machine right after reset: a launch with the values and defaults of R8 and R331. -/
def State.reset : State := State.launch Params.default

end Sys2Proof.Machine
end

