-- ==== Sys2Proof/Machine/Descriptor.lean ====
section
/-! DEFINITION. The descriptor's arithmetic (spec/44_harness.md R272), its well-formedness (R273) and the checks of the harness
(R276 to R278, R280), in the natural numbers. -/

namespace Sys2Proof.Machine

/-- `bytes(e) = unit(e) * count(e)` (R272). -/
def entryBytes (e : Entry) : Nat := e.unit * e.count

/-- `size_of(L)` (R272): the sum of all entries' bytes. -/
def sizeOfLayout : List Entry → Nat
  | [] => 0
  | e :: L => entryBytes e + sizeOfLayout L

/-- `computed_offset(L, k)` (R272): the bytes of the entries before the `k`-th; the first entry is at 0. -/
def computedOffset (L : List Entry) (k : Nat) : Nat := sizeOfLayout (L.take k)

/-- The index of the entry called `n`. Where several entries have the name, which only an ill-formed descriptor does (R273), it is
the first one's (log entry 38). -/
def entryIndex (L : List Entry) (n : FieldName) : Option Nat := L.findIdx? fun e => decide (e.name = n)

/-- The entry called `n` (R272), the first one of the name (log entry 38). -/
def entryNamed (L : List Entry) (n : FieldName) : Option Entry := L.find? fun e => decide (e.name = n)

/-- `computed_offset(L, name)` (R272): that of the entry of the name; none where no entry has it. -/
def offsetNamed (L : List Entry) (n : FieldName) : Option Nat := (entryIndex L n).map (computedOffset L)

/-- `sub_offset(L, name, sub)` (R272): the offset of the entry plus that of its part, the
first one of the sub-name (log entry 40); none where the entry has no such part. -/
def subOffset (L : List Entry) (n : FieldName) (sub : SubName) : Option Nat :=
  match entryNamed L n, offsetNamed L n with
  | some e, some a => (e.subs.find? fun p => decide (p.name = sub)).map fun p => a + p.off
  | _, _ => none

/-- The offset of element `i` of an entry at offset `a`: `a + unit * i`, for `i < count` (R272). -/
def elementOffset (e : Entry) (a i : Nat) : Option Nat := if i < e.count then some (a + e.unit * i) else none

/-- `slot_offset(L, name, i)` (R272): the offset of the entry plus `unit * i`, for `i < count`. -/
def slotOffset (L : List Entry) (n : FieldName) (i : Nat) : Option Nat :=
  match entryNamed L n, offsetNamed L n with
  | some e, some a => elementOffset e a i
  | _, _ => none

/-! ## Well-formedness (R273) -/

/-- The access alignment of an entry (R273): 4 when `unit` is a multiple of 4, 2 otherwise. -/
def entryAlign (e : Entry) : Nat := if e.unit % 4 = 0 then 4 else 2

/-- The first entry whose name another entry has: the offending value is how many entries have it. -/
def duplicateName (L : List Entry) : Option BuildFailure :=
  L.findSome? fun e =>
    let n := (L.filter fun x => decide (x.name = e.name)).length
    if n = 1 then none else some (.malformed .duplicateName e.name n)

/-- The first entry whose `unit` is not a positive multiple of 2. -/
def badUnit (L : List Entry) : Option BuildFailure :=
  L.findSome? fun e => if 0 < e.unit ∧ e.unit % 2 = 0 then none else some (.malformed .badUnit e.name e.unit)

/-- The first entry with `count = 0`. -/
def badCount (L : List Entry) : Option BuildFailure :=
  L.findSome? fun e => if 1 ≤ e.count then none else some (.malformed .badCount e.name e.count)

/-- The first entry whose computed offset is not a multiple of its alignment. -/
def misalignedEntry (L : List Entry) : Option BuildFailure :=
  L.zipIdx.findSome? fun e =>
    if computedOffset L e.2 % entryAlign e.1 = 0 then none
    else some (.malformed .misalignedOffset e.1.name (computedOffset L e.2))

/-- The first part that does not lie in its element. -/
def subOutside (L : List Entry) : Option BuildFailure :=
  L.findSome? fun e => e.subs.findSome? fun p =>
    if p.off + p.bytes ≤ e.unit then none else some (.malformed .subOutsideElement e.name (p.off + p.bytes))

/-- Two parts of one element do not overlap: one ends where the other begins or before. A part of 0 bytes strictly inside another
part counts as overlapping it (log entry 39: R273 does not say what overlapping means for it). -/
def subsDisjoint (p q : SubEntry) : Bool := decide (p.off + p.bytes ≤ q.off) || decide (q.off + q.bytes ≤ p.off)

/-- The first part that overlaps an earlier one of its element. -/
def overlappingSub (seen : List SubEntry) : List SubEntry → Option SubEntry
  | [] => none
  | p :: ps => if seen.all (subsDisjoint p) then overlappingSub (p :: seen) ps else some p

/-- The first element with overlapping parts. -/
def subsOverlap (L : List Entry) : Option BuildFailure :=
  L.findSome? fun e => (overlappingSub [] e.subs).map fun p => .malformed .subsOverlap e.name p.off

/-- The first violated condition of R273, in the order the rule lists them (log entry 9); none when well-formed. -/
def malformation (L : List Entry) : Option BuildFailure :=
  [duplicateName L, badUnit L, badCount L, misalignedEntry L, subOutside L, subsOverlap L].findSome? id

/-! ## The checks -/

/-- `CHECK_OFFSET(L, n, d)` (R276); none is a pass. The well-formedness of `L` is `VERIFY`'s alone (R280, log entry 38). -/
def checkOffset (L : List Entry) (n : FieldName) (d : Nat) : Option BuildFailure :=
  match offsetNamed L n with
  | none => some (.unknownField n d)
  | some a => if a = d then none else some (.offset n d a)

/-- `CHECK_SIZE(L, d)` (R277); none is a pass. -/
def checkSize (L : List Entry) (d : Nat) : Option BuildFailure :=
  if sizeOfLayout L = d then none else some (.size d (sizeOfLayout L))

/-- The slots `i` and `i + 1` of an entry at offset `base` are `s` apart (R278). -/
def pairApart (e : Entry) (base s i : Nat) : Option BuildFailure :=
  match elementOffset e base i, elementOffset e base (i + 1) with
  | some a, some b => if b - a = s then none else some (.stride e.name s (b - a))
  | _, _ => none

/-- The first pair of neighbouring slots of an entry at offset `base` that are not `s` apart (R278). -/
def badPair (e : Entry) (base s : Nat) : Option BuildFailure := (List.range (e.count - 1)).findSome? (pairApart e base s)

/-- The parts of a record that do not add up to `s` bytes (R278). -/
def badRecord (e : Entry) (s : Nat) : Option BuildFailure :=
  if e.subs.isEmpty then none
  else
    let t := (e.subs.map SubEntry.bytes).sum
    if t = s then none else some (.stride e.name s t)

/-- `CHECK_STRIDE(L, n, s)` (R278); none is a pass. The well-formedness of `L` is `VERIFY`'s alone (R280, log entry 38). -/
def checkStride (L : List Entry) (n : FieldName) (s : Nat) : Option BuildFailure :=
  match entryNamed L n, offsetNamed L n with
  | some e, some base => (badPair e base s).or (badRecord e s)
  | _, _ => some (.unknownField n s)

/-- The first failure of the harness (R280, R303): well-formedness, the anchors in their order, the size, the strides in their
order; none when every check passes. It depends on the parameters only (R281). -/
def verifyFailure (L : List Entry) (anchors : List (FieldName × Nat)) (extent : Nat) (strides : List (FieldName × Nat)) :
    Option BuildFailure :=
  (((malformation L).or (anchors.findSome? fun a => checkOffset L a.1 a.2)).or (checkSize L extent)).or
    (strides.findSome? fun a => checkStride L a.1 a.2)

/-- The failure codes of R301. -/
def BuildFailure.code : BuildFailure → Nat
  | .offset _ _ _ => 1
  | .size _ _ => 2
  | .stride _ _ _ => 3
  | .unknownField _ _ => 4
  | .malformed _ _ _ => 5

end Sys2Proof.Machine
end

