-- ==== Sys2Proof/Machine/Flags.lean ====
section
/-! DEFINITION. The status flags (spec/10_state.md R51): how a flag is set, how it is cleared (spec/60_exceptions.md R312), and
the interrupt request they make (R310). The block has no condition codes. -/

namespace Sys2Proof.Machine

/-- The two status words (R42, R44). -/
def isStatus (r : Reg) : Bool :=
  decide (r = .eventOccurred) || decide (r = .conflictOccurred)

/-- Clearing by a write of ones (R185): `x & ~v[15:0]`. -/
def clearByOnes (x v : Word) : Word := x &&& ~~~ (v &&& 0x0000FFFF)

/-- Clearing by a read (R185): every flag returned as 1 is cleared. -/
def clearReturned (x returned : Word) : Word := x &&& ~~~ (returned &&& 0x0000FFFF)

/-- Setting flags (R249, R254): each bit of `m` sets its flag, the others keep theirs. -/
def setFlags (x m : Word) : Word := x ||| m

/-- The interrupt request of the block (R310). -/
def State.irq (s : State) : Bool :=
  decide ((s.regs.eventOccurred &&& s.regs.interruptOnEvent) &&& 0x0000FFFF ≠ 0) ||
    decide ((s.regs.conflictOccurred &&& s.regs.interruptOnConflict) &&& 0x0000FFFF ≠ 0)

end Sys2Proof.Machine
end

