-- ==== Sys2Proof/Machine/Ops.lean ====
section
/-! DEFINITION. The operations every register shares (spec/40_transactions.md R140 to R143, spec/41_global_registers.md): the
handle (spec/44_harness.md R284), the draws, the reading of the configuration, the read and the write of a word or a half, the
phase gates, and taking `BuildFailure` (spec/60_exceptions.md R304). -/

namespace Sys2Proof.Machine

/-! ## The handle -/

/-- The handle (R284): the pair of the descriptor, with a proof that `VERIFY` passes on it, and `BASE`. -/
structure Handle where
  params   : Params
  verified : verifyFailure params.layout params.anchors params.extent params.strides = none
  base     : Word

/-- The address a handle gives an offset of the map (R70, R210). -/
def Handle.address (h : Handle) (off : Nat) : Word := h.base + BitVec.ofNat 32 off

/-- The handle of a bound instance (R284); none before `BIND`. A state in phase `BOUND` whose descriptor does not pass, which the
lifecycle does not reach (R280, R283), has none either. -/
def State.handle (s : State) : Option Handle :=
  if s.phase = .bound then
    match s.base with
    | none => none
    | some b =>
      if h : verifyFailure s.params.layout s.params.anchors s.params.extent s.params.strides = none then
        some { params := s.params, verified := h, base := b }
      else none
  else none

/-! ## Draws -/

/-- The `n`-th draw from here (R12). -/
def State.draw (s : State) (n : Nat) : Word := Config.freeWord (s.draws + n)

/-! ## What the configuration says -/

/-- `config.unify` (R115, R133): one 32-bit counter instead of two 16-bit ones. -/
def State.unify (s : State) : Bool := fieldFlag s.params.configLayout.unify s.regs.config

/-- The ControlRegister of a half (R28, R32). -/
def State.controlOf (s : State) (k : Half) : HalfWord := halfOf k s.regs.control

/-- The ControlRegister that governs half `k` of the counter (R32, R133): its own when split, the low one when unified. -/
def State.governor (s : State) (k : Half) : Half := if s.unify then .low else k

/-- `halt_sct` of the register that governs half `k` (R116). -/
def State.halted (s : State) (k : Half) : Bool :=
  fieldFlag s.params.ctrlLayout.haltSct (s.controlOf (s.governor k))

/-- `pause_counter` of the register that governs half `k` (R116). -/
def State.paused (s : State) (k : Half) : Bool :=
  fieldFlag s.params.ctrlLayout.pauseCounter (s.controlOf (s.governor k))

/-- A counter half runs exactly when `pause_counter` and `halt_sct` are both 0 (R32, R171). -/
def State.runs (s : State) (k : Half) : Bool := !s.halted k && !s.paused k

/-- The counter halves in use (R133, R240): both when split, only L when unified. -/
def State.halvesInUse (s : State) : List Half := if s.unify then [.low] else [.low, .high]

/-! ## Reading -/

/-- The bits of an event mask word above the sixteen events (R119). -/
def aboveSlots : Word := 0xFFFF0000

/-- The bits of `state` outside `state_L` and `state_H` (R35). -/
def outsideStates : Word := 0xFFE0FFE0

/-- The reserved bits of a named word (R130, with R35, R36, R38, R40 to R44, R115 to R119). -/
def reservedBits (p : Params) : Reg → Word
  | .config => ~~~ fieldsMask 32 p.configLayout.fields
  | .control => inBothHalves (~~~ fieldsMask 16 p.ctrlLayout.fields)
  | .state => outsideStates
  | .input => 0xFF00FF00
  | .output => aboveSlots
  | .dmaRequest0 => 0x3FFF0000
  | .dmaRequest1 => 0x3FFF0000
  | .interruptOnEvent => aboveSlots
  | .eventOccurred => aboveSlots
  | .conflictOccurred => 0x3FFF0000
  | .eventEnabledInState _ => ~~~ BitVec.ofNat 32 (2 ^ p.numStates - 1)
  | .eventControl _ => ~~~ fieldsMask 32 p.evCtrlLayout.fields
  | .outputOnEventSet _ => aboveSlots
  | .outputOnEventClear _ => aboveSlots
  | .clearOnEvent | .haltOnEvent | .stopOnEvent | .startOnEvent | .count | .registerMode | .outputDirectionControl
  | .conflictResolution | .interruptOnConflict | .matchCapture _ | .captureControl _ => 0

/-- The device-owned bits of a named word that a read shows as a draw (R25, R36, R40, R44, R171, R176): the direction bit,
the halves of `count` that run, the input levels, the request and error bits. -/
def deviceBits (s : State) : Reg → Word
  | .control => inBothHalves (fieldMask 16 s.params.ctrlLayout.countDown)
  | .count => halvesMask s.runs
  | .input => 0x00FF00FF
  | .dmaRequest0 => 0xC0000000
  | .dmaRequest1 => 0xC0000000
  | .conflictOccurred => 0xC0000000
  | .config | .state | .output | .interruptOnEvent | .eventOccurred | .eventEnabledInState _ | .eventControl _
  | .outputOnEventSet _ | .outputOnEventClear _ | .clearOnEvent | .haltOnEvent | .stopOnEvent | .startOnEvent
  | .registerMode | .outputDirectionControl | .conflictResolution | .interruptOnConflict | .matchCapture _
  | .captureControl _ => 0

/-- The bits of a word a read returns as a draw (R13, R130, R140). -/
def drawnBits (s : State) (r : Reg) : Word := reservedBits s.params r ||| deviceBits s r

/-- The bits of a word that read as 0: `clear_counter` of both control registers (R116, R171). -/
def zeroBits (p : Params) : Reg → Word
  | .control => inBothHalves (fieldMask 16 p.ctrlLayout.clearCounter)
  | _ => 0

/-- The value a read of a word returns (R140 `read_effect`): its content, with the drawn bits from the next draw and the bits
that read as 0. -/
def readValue (r : Reg) (s : State) : Word :=
  drawInto (drawnBits s r) (s.regs.get r) (s.draw 0) &&& ~~~ zeroBits s.params r

/-- What a read does to the state (R140, R312): it takes one draw and, under `FLAG_CLEAR_RULE = read_clears`, clears the flags
it returned. -/
def readEffect (r : Reg) (s : State) : State :=
  { s with
    draws := s.draws + 1
    regs :=
      if isStatus r && decide (s.params.flagClearRule = .readClears) then
        s.regs.set r (clearReturned (s.regs.get r) (readValue r s))
      else s.regs }

/-- `RD32` of a word through a handle (R140, R284). -/
def read32 (_ : Handle) (r : Reg) (s : State) : State := { readEffect r s with result := .word (readValue r s) }

/-- `RD16` of a half of a word through a handle (R142, R284): the other half is not returned. -/
def read16 (_ : Handle) (r : Reg) (k : Half) (s : State) : State :=
  { readEffect r s with result := .half (halfOf k (readValue r s)) }

/-! ## Writing -/

/-- A counter half that ran in `s` and does not run in `t` holds a draw: the value it stopped at (R176, log entry 12). One
draw is taken. -/
def settleCount (s t : State) : State :=
  let stopped := halvesMask fun k => s.runs k && !t.runs k
  { t with
    draws := t.draws + 1
    regs := t.regs.set .count (drawInto stopped (t.regs.get .count) (t.draw 0)) }

/-- A write of `config` (R170): the new organisation is in force from this transaction on. -/
def writeConfig (v : Word) (s : State) : State := settleCount s { s with regs := s.regs.set .config v }

/-- The counter bits a write of `v` to the written halves `ks` of `control` clears (R171): the half's own when split; all 32
bits when unified and the low half is written with `clear_counter = 1`. -/
def clearedCount (ks : List Half) (v : Word) (s : State) : Word :=
  let asked (k : Half) : Bool := decide (k ∈ ks) && fieldFlag s.params.ctrlLayout.clearCounter (halfOf k v)
  if s.unify then (if asked .low then ~~~ 0 else 0) else halvesMask asked

/-- The bits of the written halves. -/
def writtenMask (ks : List Half) : Word := halvesMask fun k => decide (k ∈ ks)

/-- A write of the halves `ks` of `control`, `v` the whole new word (R171): `clear_counter` is stored as 0 and clears the
counter; `pause_counter`, `halt_sct`, `bidirectional` and `count_prescaler` take effect from this transaction on. -/
def writeControl (ks : List Half) (v : Word) (s : State) : State :=
  let stored := v &&& ~~~ (zeroBits s.params .control &&& writtenMask ks)
  let t := settleCount s { s with regs := s.regs.set .control stored }
  { t with regs := t.regs.set .count (t.regs.get .count &&& ~~~ clearedCount ks v s) }

/-- The state after a word of the image is replaced. -/
def store (r : Reg) (v : Word) (s : State) : State := { s with regs := s.regs.set r v }

/-- A write that is accepted only while the concerned counter halves are halted (R176, R177, R180). -/
def storeHalted (r : Reg) (ks : List Half) (v : Word) (s : State) : Answer :=
  if ks.all s.halted then .next (store r v s) else .refused .counterRunning

/-- A write to a status word (R185): ones clear under `write_one_to_clear`, refused under `read_clears`. -/
def storeFlags (r : Reg) (v : Word) (s : State) : Answer :=
  match s.params.flagClearRule with
  | .writeOneToClear => .next (store r (clearByOnes (s.regs.get r) v) s)
  | .readClears => .refused .flagWriteUnderReadClears

/-- A write to a match/capture slot (R211): refused in capture mode. -/
def storeSlot (r : Reg) (v : Word) (s : State) : Answer :=
  match s.params.slotMode with
  | .matching => .next (store r v s)
  | .capturing => .refused .captureModeWrite

/-- The write effect of a word (R141 `write_effect`): `v` is the whole new content, `ks` the halves the transaction writes.
The default is that the word becomes `v`. -/
def commit (r : Reg) (ks : List Half) (v : Word) (s : State) : Answer :=
  match r with
  | .config => .next (writeConfig v s)
  | .control => .next (writeControl ks v s)
  | .count => storeHalted .count ks v s
  | .state => storeHalted .state ks v s
  | .output => storeHalted .output s.halvesInUse v s
  | .input => .refused .readOnly
  | .eventOccurred => storeFlags .eventOccurred v s
  | .conflictOccurred => storeFlags .conflictOccurred v s
  | .dmaRequest0 => .next (store .dmaRequest0 (merge 0x3FFFFFFF s.regs.dmaRequest0 v) s)
  | .dmaRequest1 => .next (store .dmaRequest1 (merge 0x3FFFFFFF s.regs.dmaRequest1 v) s)
  | .matchCapture i => storeSlot (.matchCapture i) v s
  | .clearOnEvent => .next (store .clearOnEvent v s)
  | .haltOnEvent => .next (store .haltOnEvent v s)
  | .stopOnEvent => .next (store .stopOnEvent v s)
  | .startOnEvent => .next (store .startOnEvent v s)
  | .registerMode => .next (store .registerMode v s)
  | .outputDirectionControl => .next (store .outputDirectionControl v s)
  | .conflictResolution => .next (store .conflictResolution v s)
  | .interruptOnEvent => .next (store .interruptOnEvent v s)
  | .interruptOnConflict => .next (store .interruptOnConflict v s)
  | .captureControl i => .next (store (.captureControl i) v s)
  | .eventEnabledInState i => .next (store (.eventEnabledInState i) v s)
  | .eventControl i => .next (store (.eventControl i) v s)
  | .outputOnEventSet i => .next (store (.outputOnEventSet i) v s)
  | .outputOnEventClear i => .next (store (.outputOnEventClear i) v s)

/-- The state with nothing returned: a write returns no value. -/
def State.silent (s : State) : State := { s with result := .nothing }

/-- `WR32` of a word through a handle (R141, R284): all 32 bits at one moment; the reserved bits become 0 (R130, log entry 18). -/
def write32 (_ : Handle) (r : Reg) (v : Word) (s : State) : Answer :=
  commit r [.low, .high] (v &&& ~~~ reservedBits s.params r) s.silent

/-- `WR16` of a half of a word through a handle (R143, R284): the other half is kept; the written half's reserved bits become 0
(R130, log entry 18). -/
def write16 (_ : Handle) (r : Reg) (k : Half) (v : HalfWord) (s : State) : Answer :=
  commit r [k] (withHalf k (s.regs.get r) (v &&& ~~~ halfOf k (reservedBits s.params r))) s.silent

/-! ## Phase gates -/

/-- An operation of the bus master is handed the handle (R284); with no handle it is refused (R149). -/
def withHandle (s : State) (f : Handle → Answer) : Answer :=
  match s.handle with
  | none => .refused .notBound
  | some h => f h

/-- A step of the SCT agent needs `phase = BOUND` (R240); it is no transaction and takes no handle. -/
def whenBound (s : State) (a : Answer) : Answer := if s.phase = .bound then a else .refused .notBound

/-- A harness operation needs `phase = UNVERIFIED` (R9, R280, R320). -/
def whenUnverified (s : State) (a : Answer) : Answer := if s.phase = .unverified then a else .refused .wrongPhase

/-- A 32-bit transaction on a word (R140, R141), through the handle (R284). -/
def transact32 (r : Reg) (a : Access32) (s : State) : Answer :=
  withHandle s fun h =>
    match a with
    | .read => .next (read32 h r s)
    | .write v => write32 h r v s

/-- A 16-bit transaction on a half of a word (R142, R143), through the handle (R284). -/
def transact16 (r : Reg) (k : Half) (a : Access16) (s : State) : Answer :=
  withHandle s fun h =>
    match a with
    | .read => .next (read16 h r k s)
    | .write v => write16 h r k v s

/-! ## The exception -/

/-- Taking `BuildFailure` (R304): the phase becomes `BUILD_HALTED` and the record is kept as the output of the build; no state is
saved, no register is touched, no handler runs. There is no return: `BUILD_HALTED` is terminal. -/
def takeBuildFailure (f : BuildFailure) (s : State) : State :=
  { s with phase := .buildHalted, failure := some f, result := .nothing }

/-- The end of a check: it passes, or its failure is taken (R276 to R278). -/
def settleCheck (f : Option BuildFailure) (s : State) : State :=
  match f with
  | none => { s with result := .passed }
  | some e => takeBuildFailure e s

/-! ## Reset -/

/-- A hardware reset of a running system (R333): the image and the hidden device state return to their reset values; the
phase, `BASE` and the parameters do not change. It is no operation of the table and no step performs it (log entry 34). -/
def hardwareReset (s : State) : State := { s with regs := s.params.resetImage, firing := 0, dmaRaised := 0 }

end Sys2Proof.Machine
end

