-- ==== Sys2Proof/Machine/Sct.lean ====
section
/-! DEFINITION. `SCT_EVAL` (spec/43_event_semantics.md R240 to R257): one evaluation of the configured machine by the SCT
agent. Every part reads the state before the evaluation; the actions of all firing events take effect together (R240). -/

namespace Sys2Proof.Machine

/-! ## The event record -/

/-- The value of a sub-field of `event[e].control` (R118). -/
def State.eventField (s : State) (f : EvCtrlLayout → SubField) (e : Slot) : Nat :=
  fieldValue (f s.params.evCtrlLayout) s.regs.eventControl[e]

/-- The value of a one-bit sub-field of `event[e].control` (R118). -/
def State.eventFlag (s : State) (f : EvCtrlLayout → SubField) (e : Slot) : Bool :=
  fieldFlag (f s.params.evCtrlLayout) s.regs.eventControl[e]

/-- The counter half an event belongs to (R118 `counter_half`, R241): L when unified. -/
def State.eventHalf (s : State) (e : Slot) : Half :=
  if s.unify then .low else if s.eventFlag EvCtrlLayout.counterHalf e then .high else .low

/-- The state variable of a half (R35): bits 4:0 and bits 20:16 of `state`. -/
def State.stateId (s : State) (k : Half) : StateId := s.regs.state.extractLsb' (halfOff k) 5

/-- The state id an event loads (R118 `next_state`). -/
def State.nextStateId (s : State) (e : Slot) : StateId := BitVec.ofNat 5 (s.eventField EvCtrlLayout.nextState e)

/-! ## Gate and predicate -/

/-- The gate (R241): the bit of the current state in `enabled_in_state`, and the event's half is not halted (R116). -/
def State.eventEnabled (s : State) (e : Slot) : Bool :=
  let k := s.eventHalf e
  s.regs.eventEnabledInState[e].getLsbD (s.stateId k).toNat && !s.halted k

/-- The match condition (R242, R243): equality of the counter, or of the event's half, with the match slot; in capture mode a
draw. -/
def State.matchHolds (s : State) (d : EvalDraws) (e : Slot) : Bool :=
  match s.params.slotMode with
  | .matching =>
    let m := s.regs.matchCapture[Fin.ofNat 16 (s.eventField EvCtrlLayout.matchRegister e)]
    if s.unify then decide (d.cnt = m)
    else decide (halfOf (s.eventHalf e) d.cnt = halfOf (s.eventHalf e) m)
  | .capturing => (s.draw 1).getLsbD e.val

/-- The four I/O conditions (R120, R244). -/
def ioHolds (c : Nat) (old lvl : Bool) : Bool :=
  match c with
  | 0 => !lvl
  | 1 => !old && lvl
  | 2 => old && !lvl
  | _ => lvl

/-- The I/O condition of an event (R244): on an input line, or on an output pin; a draw where the number selects no line (there
R131 holds as well, so that draw is one of many). -/
def State.ioCondition (s : State) (d : EvalDraws) (e : Slot) : Bool :=
  let n := s.eventField EvCtrlLayout.ioPin e
  let c := s.eventField EvCtrlLayout.ioCondition e
  if s.eventFlag EvCtrlLayout.ioIsOutput e then
    if n < 16 then ioHolds c (d.outPrev.getLsbD n) (d.out.getLsbD n) else (s.draw 0).getLsbD e.val
  else if n < numInputs then ioHolds c (d.prev.getLsbD n) (d.inp.getLsbD n)
  else (s.draw 0).getLsbD e.val

/-- The four combination modes (R121, R245). -/
def combine (k : Nat) (matches_ io : Bool) : Bool :=
  match k with
  | 0 => matches_ || io
  | 1 => matches_
  | 2 => io
  | _ => matches_ && io

/-- Whether an event fires (R240, R246): `enabled(e) and predicate(e)`. -/
def State.fires (s : State) (d : EvalDraws) (e : Slot) : Bool :=
  s.eventEnabled e && combine (s.eventField EvCtrlLayout.condition e) (s.matchHolds d e) (s.ioCondition d e)

/-- The firing set `F` in ascending order (R246). -/
def State.firingSet (s : State) (d : EvalDraws) : List Slot := (List.finRange 16).filter (s.fires d)

/-- Whether some event of a set has its bit in a table word (R248): bit `off + e`. -/
def hits (F : List Slot) (w : Word) (off : Nat) : Bool := F.any fun e => w.getLsbD (off + e.val)

/-! ## The state action -/

/-- An element of a nonempty list chosen by a draw; of one element there is no choice. -/
def pickFrom (x : Slot) (xs : List Slot) (r : Word) : Slot :=
  match xs with
  | [] => x
  | y :: ys => (x :: y :: ys).getD (r.toNat % (ys.length + 2)) x

/-- The first draw of a half's state action. -/
def stateDraw : Half → Nat
  | .low => 2
  | .high => 3

/-- The draw that chooses among the events of a half. -/
def pickDraw : Half → Nat
  | .low => 4
  | .high => 5

/-- The state of half `k` after no event loads one (R247): unchanged if every firing event of the half has `next_state = 0`,
else by `NOLOAD_RULE`. -/
def State.unloadedState (s : State) (Fk : List Slot) (k : Half) : StateId :=
  if Fk.all fun e => decide (s.nextStateId e = 0) then s.stateId k
  else match s.params.noLoadRule with
    | .draw => (s.draw (stateDraw k)).setWidth 5
    | .keep => s.stateId k
    | .add =>
      match Fk with
      | [] => s.stateId k
      | x :: xs => s.stateId k + s.nextStateId (pickFrom x xs (s.draw (pickDraw k)))

/-- The state of half `k` after the events `Fk` of the half fire (R247). -/
def State.newStateId (s : State) (Fk : List Slot) (k : Half) : StateId :=
  match Fk.filter (s.eventFlag EvCtrlLayout.loadState) with
  | [] => s.unloadedState Fk k
  | [e] => s.nextStateId e
  | x :: y :: zs =>
    match s.params.multiLoadRule with
    | .drawAmongLoaders => s.nextStateId (pickFrom x (y :: zs) (s.draw (pickDraw k)))
    | .highestNumbered => s.nextStateId (zs.foldl max (max x y))

/-- The firing events of a half. -/
def State.firingOf (s : State) (F : List Slot) (k : Half) : List Slot := F.filter fun e => decide (s.eventHalf e = k)

/-- `state` after the state actions of the halves in use (R247). -/
def State.newState (s : State) (F : List Slot) : Word :=
  s.halvesInUse.foldl
    (fun w k => insert w (halfOff k) 5 ((s.newStateId (s.firingOf F k) k).setWidth 32)) s.regs.state

/-! ## Counter control -/

/-- A one-bit sub-field set to a value. -/
def putFlag (f : SubField) (b : Bool) (v : HalfWord) : HalfWord := insert v f.off 1 (if b then 1 else 0)

/-- `halt_sct` of half `k` after the evaluation (R250): set by a halt action; a draw where a start action opposes it (U13 of
spec/93_implementation_defined.md). -/
def State.newHalt (s : State) (F : List Slot) (k : Half) : Bool :=
  let f := s.params.ctrlLayout.haltSct
  if hits F s.regs.haltOnEvent (halfOff k) then
    if hits F s.regs.startOnEvent (halfOff k) then (halfOf k (s.draw 6)).getLsbD f.off else true
  else fieldFlag f (s.controlOf k)

/-- `pause_counter` of half `k` after the evaluation (R250): set by a stop, cleared by a start, a draw where a stop or a halt
opposes a start (R175, U13). -/
def State.newPause (s : State) (F : List Slot) (k : Half) : Bool :=
  let f := s.params.ctrlLayout.pauseCounter
  if hits F s.regs.startOnEvent (halfOff k) then
    if hits F s.regs.stopOnEvent (halfOff k) || hits F s.regs.haltOnEvent (halfOff k) then
      (halfOf k (s.draw 6)).getLsbD f.off
    else false
  else if hits F s.regs.stopOnEvent (halfOff k) then true
  else fieldFlag f (s.controlOf k)

/-- `control` after the halt, stop and start actions on the halves in use (R250). -/
def State.newControl (s : State) (F : List Slot) : Word :=
  s.halvesInUse.foldl
    (fun w k =>
      withHalf k w
        (putFlag s.params.ctrlLayout.haltSct (s.newHalt F k)
          (putFlag s.params.ctrlLayout.pauseCounter (s.newPause F k) (halfOf k w))))
    s.regs.control

/-- `count` before any clear of this evaluation: a half that runs is at the counter value of the evaluation, the other keeps
its value (R176, R240, log entry 10). -/
def State.countNow (s : State) (d : EvalDraws) : Word :=
  merge (halvesMask s.runs) s.regs.count d.cnt

/-- `prevent_reload` of a half (R115, R256). -/
def State.preventReload (s : State) (k : Half) : Bool :=
  match k with
  | .low => fieldFlag s.params.configLayout.preventReloadLow s.regs.config
  | .high => fieldFlag s.params.configLayout.preventReloadHigh s.regs.config

/-- `count` after the clear actions (R250, R256): split, a clear is suppressed by `prevent_reload` of the half; unified with
`prevent_reload_low` its effect is a draw. -/
def State.newCount (s : State) (d : EvalDraws) (F : List Slot) : Word :=
  let cleared (k : Half) : Bool := hits F s.regs.clearOnEvent (halfOff k)
  let now := s.countNow d
  if s.unify then
    if cleared .low then (if s.preventReload .low then s.draw 7 else 0) else now
  else
    now &&& ~~~ halvesMask fun k => cleared k && !s.preventReload k

/-! ## DMA, capture, outputs -/

/-- The DMA requests raised (R251): bit `k` for request `k`. -/
def State.newDma (s : State) (F : List Slot) : BitVec 2 :=
  (if hits F s.regs.dmaRequest0 0 then 1 else 0) ||| (if hits F s.regs.dmaRequest1 0 then 2 else 0)

/-- The bits of slot `i` that receive the counter (R253): the whole word when unified, the selected halves when split. -/
def State.capturedBits (s : State) (F : List Slot) (i : Slot) : Word :=
  let w := s.regs.captureControl[i]
  if s.unify then (if hits F w 0 then ~~~ 0 else 0)
  else halvesMask fun k => hits F w (halfOff k)

/-- The match/capture slots after the captures (R253): the counter of this evaluation, before any clear. -/
def State.newSlots (s : State) (d : EvalDraws) (F : List Slot) : Vector Word 16 :=
  match s.params.slotMode with
  | .matching => s.regs.matchCapture
  | .capturing => Vector.ofFn fun i : Slot => merge (s.capturedBits F i) s.regs.matchCapture[i] d.cnt

/-- A set request on pin `p` (R252 `S_p`). -/
def State.setsPin (s : State) (F : List Slot) (p : Slot) : Bool := hits F s.regs.outputOnEventSet[p] 0

/-- A clear request on pin `p` (R252 `C_p`). -/
def State.clearsPin (s : State) (F : List Slot) (p : Slot) : Bool := hits F s.regs.outputOnEventClear[p] 0

/-- A conflict on pin `p` (R254): both are requested. -/
def State.conflictOn (s : State) (F : List Slot) (p : Slot) : Bool := s.setsPin F p && s.clearsPin F p

/-- The level of pin `p` after the output actions (R252), by `CONFLICT_RULE` on a conflict (R254). -/
def State.newLevel (s : State) (F : List Slot) (p : Slot) : Bool :=
  let old := s.regs.output.getLsbD p.val
  if s.conflictOn F p then
    match s.params.conflictRule with
    | .draw => (s.draw 8).getLsbD p.val
    | .noChange => old
    | .set => true
    | .clear => false
    | .toggle => !old
  else if s.setsPin F p then true
  else if s.clearsPin F p then false
  else old

/-! ## One evaluation -/

/-- The draws one evaluation takes. -/
def evalDraws : Nat := 32

/-- A record that holds a reserved value (R131): a `next_state` that is `≥ NUM_STATES`, or an input number of 8 or more. -/
def State.recordReserved (s : State) (e : Slot) : Bool :=
  decide (s.params.numStates ≤ s.eventField EvCtrlLayout.nextState e) ||
    (!s.eventFlag EvCtrlLayout.ioIsOutput e && decide (numInputs ≤ s.eventField EvCtrlLayout.ioPin e))

/-- A reserved value in force (R131, log entry 14): `clock_mode = 3`, a half in use in a state `≥ NUM_STATES`, or an event record,
whether its event fires or not, that holds one. -/
def State.reservedInForce (s : State) : Bool :=
  decide (3 ≤ fieldValue s.params.configLayout.clockMode s.regs.config) ||
    s.halvesInUse.any (fun k => decide (s.params.numStates ≤ (s.stateId k).toNat)) ||
    (List.finRange 16).any s.recordReserved

/-- The bits of `control` the SCT agent may change (R25, R343): direction, pause and halt of both halves. `clear_counter`, which
R25 names device-owned too, is not among them: it reads as 0 (R116), and the model keeps it stored as 0 (log entry 15, deduced). -/
def agentControlBits (p : Params) : Word :=
  inBothHalves (fieldMask 16 p.ctrlLayout.countDown ||| fieldMask 16 p.ctrlLayout.pauseCounter |||
    fieldMask 16 p.ctrlLayout.haltSct)

/-- The evaluation under a reserved value (R131): the rules do not apply and every device-owned bit (R25) of the model's list (log
entry 15) becomes a draw. `clear_counter` is not in the list and stays 0 (R116). -/
def evaluateReserved (s : State) : State :=
  { s with
    draws := s.draws + evalDraws
    firing := (s.draw 15).setWidth 16
    dmaRaised := ((s.draw 15) >>> 16).setWidth 2
    regs := { s.regs with
      count := s.draw 9
      state := merge (~~~ outsideStates) s.regs.state (s.draw 10)
      output := merge (~~~ aboveSlots) s.regs.output (s.draw 11)
      eventOccurred := merge (~~~ aboveSlots) s.regs.eventOccurred (s.draw 12)
      conflictOccurred := merge (~~~ aboveSlots) s.regs.conflictOccurred (s.draw 13)
      control := merge (agentControlBits s.params) s.regs.control (s.draw 14)
      matchCapture :=
        match s.params.slotMode with
        | .matching => s.regs.matchCapture
        | .capturing => Vector.ofFn fun i : Slot => s.draw (16 + i.val) } }

/-- The evaluation by the rules (R240): the firing set `F` and all its actions, together. -/
def evaluateRules (d : EvalDraws) (F : List Slot) (s : State) : State :=
  { s with
    draws := s.draws + evalDraws
    firing := (slotBits fun e => decide (e ∈ F)).setWidth 16
    dmaRaised := s.newDma F
    regs := { s.regs with
      state := s.newState F
      eventOccurred := setFlags s.regs.eventOccurred (slotBits fun e => decide (e ∈ F))
      control := s.newControl F
      count := s.newCount d F
      matchCapture := s.newSlots d F
      output := merge (~~~ aboveSlots) s.regs.output (slotBits (s.newLevel F))
      conflictOccurred := setFlags s.regs.conflictOccurred (slotBits (s.conflictOn F)) } }

/-- One evaluation of the configured machine (R240). -/
def evaluate (d : EvalDraws) (s : State) : State :=
  if s.reservedInForce then evaluateReserved s else evaluateRules d (s.firingSet d) s

/-- `SCT_EVAL` (R240). -/
def execSctEval (d : EvalDraws) (s : State) : Answer := whenBound s (.next (evaluate d s).silent)

/-- The evaluations the schedule puts between the two transactions of the operation in progress (R81, R86, log entry 19), in their
order; they are used up. -/
def runBetween (s : State) : State := { s.between.foldl (fun t d => evaluate d t) s with between := [] }

end Sys2Proof.Machine
end

