-- ==== Sys2Proof/Machine/Fields.lean ====
section
/-! DEFINITION. The derived accessors (spec/40_transactions.md R145, R146): the read and the write of a named sub-field. -/

namespace Sys2Proof.Machine

/-- The value a sub-field read extracts (R145): from the word or the half the view declares, with one transaction of that
width. -/
def fieldRead (_ : Handle) (reg : View) (off width : Nat) (s : State) : Word :=
  match storage reg with
  | (r, .whole) => extract (readValue r s) off width
  | (r, .half k) => (extract (halfOf k (readValue r s)) off width).setWidth 32

/-- `FIELD_RD` (R145): one read of the declared width, then `extract`. -/
def execFieldRd (reg : View) (off width : Nat) (s : State) : Answer :=
  withHandle s fun h =>
    if fieldPairOk reg.bits off width then
      .next { readEffect (storage reg).1 s with result := .field (fieldRead h reg off width s) }
    else .refused .fieldOutsideView

/-- The two transactions of a sub-field write (R146): the read, the evaluations scheduled between them, the write of the value
read with the field inserted. Reserved bits are written back as read (R130). -/
def fieldWrite (_ : Handle) (reg : View) (off width : Nat) (f : Word) (s : State) : Answer :=
  match storage reg with
  | (r, .whole) =>
    let t := runBetween (readEffect r s)
    commit r [.low, .high] (insert (readValue r s) off width f) t.silent
  | (r, .half k) =>
    let t := runBetween (readEffect r s)
    let new := insert (halfOf k (readValue r s)) off width (f.setWidth 16)
    commit r [k] (withHalf k (t.regs.get r) new) t.silent

/-- `FIELD_WR` (R146): refused where the pair is not one of the view (R110), the value is wider than the field (R112) or the
register is read-only. -/
def execFieldWr (reg : View) (off width : Nat) (f : Word) (s : State) : Answer :=
  withHandle s fun h =>
    if fieldPairOk reg.bits off width then
      if f.toNat < 2 ^ width then (if reg = .input then .refused .readOnly else fieldWrite h reg off width f s)
      else .refused .fieldValueTooWide
    else .refused .fieldOutsideView

end Sys2Proof.Machine
end

