-- ==== Sys2Proof/Machine/Global.lean ====
section
/-! DEFINITION. The global registers, offsets 0x000 to 0x0FC (spec/41_global_registers.md R170 to R187): one meaning per row of the
opcode map, over the shared transactions of Machine/Ops.lean, whose read and write effects follow these rules. -/

namespace Sys2Proof.Machine

/-- `config` (R170). -/
def execConfig (a : Access32) (s : State) : Answer := transact32 .config a s

/-- `control` (R171). -/
def execControl (a : Access32) (s : State) : Answer := transact32 .control a s

/-- The low half of `control` (R171). -/
def execControlLow (a : Access16) (s : State) : Answer := transact16 .control .low a s

/-- The high half of `control` (R171). -/
def execControlHigh (a : Access16) (s : State) : Answer := transact16 .control .high a s

/-- `clear_on_event` (R172). -/
def execClearOnEvent (a : Access32) (s : State) : Answer := transact32 .clearOnEvent a s

/-- The low half of `clear_on_event` (R172). -/
def execClearOnEventLow (a : Access16) (s : State) : Answer := transact16 .clearOnEvent .low a s

/-- The high half of `clear_on_event` (R172). -/
def execClearOnEventHigh (a : Access16) (s : State) : Answer := transact16 .clearOnEvent .high a s

/-- `halt_on_event` (R173). -/
def execHaltOnEvent (a : Access32) (s : State) : Answer := transact32 .haltOnEvent a s

/-- The low half of `halt_on_event` (R173). -/
def execHaltOnEventLow (a : Access16) (s : State) : Answer := transact16 .haltOnEvent .low a s

/-- The high half of `halt_on_event` (R173). -/
def execHaltOnEventHigh (a : Access16) (s : State) : Answer := transact16 .haltOnEvent .high a s

/-- `stop_on_event` (R174). -/
def execStopOnEvent (a : Access32) (s : State) : Answer := transact32 .stopOnEvent a s

/-- The low half of `stop_on_event` (R174). -/
def execStopOnEventLow (a : Access16) (s : State) : Answer := transact16 .stopOnEvent .low a s

/-- The high half of `stop_on_event` (R174). -/
def execStopOnEventHigh (a : Access16) (s : State) : Answer := transact16 .stopOnEvent .high a s

/-- `start_on_event` (R175). -/
def execStartOnEvent (a : Access32) (s : State) : Answer := transact32 .startOnEvent a s

/-- The low half of `start_on_event` (R175). -/
def execStartOnEventLow (a : Access16) (s : State) : Answer := transact16 .startOnEvent .low a s

/-- The high half of `start_on_event` (R175). -/
def execStartOnEventHigh (a : Access16) (s : State) : Answer := transact16 .startOnEvent .high a s

/-- `count` (R176). -/
def execCount (a : Access32) (s : State) : Answer := transact32 .count a s

/-- The low half of `count` (R176). -/
def execCountLow (a : Access16) (s : State) : Answer := transact16 .count .low a s

/-- The high half of `count` (R176). -/
def execCountHigh (a : Access16) (s : State) : Answer := transact16 .count .high a s

/-- `state` (R177). -/
def execState (a : Access32) (s : State) : Answer := transact32 .state a s

/-- The low half of `state` (R177). -/
def execStateLow (a : Access16) (s : State) : Answer := transact16 .state .low a s

/-- The high half of `state` (R177). -/
def execStateHigh (a : Access16) (s : State) : Answer := transact16 .state .high a s

/-- `input` (R178): a read returns a draw in every bit; the row has no write. -/
def execInput (s : State) : Answer := transact32 .input .read s

/-- `register_mode` (R179). -/
def execRegisterMode (a : Access32) (s : State) : Answer := transact32 .registerMode a s

/-- The low half of `register_mode` (R179). -/
def execRegisterModeLow (a : Access16) (s : State) : Answer := transact16 .registerMode .low a s

/-- The high half of `register_mode` (R179). -/
def execRegisterModeHigh (a : Access16) (s : State) : Answer := transact16 .registerMode .high a s

/-- `output` (R180). -/
def execOutput (a : Access32) (s : State) : Answer := transact32 .output a s

/-- `output_direction_control` (R181). -/
def execOutputDirectionControl (a : Access32) (s : State) : Answer := transact32 .outputDirectionControl a s

/-- `conflict_resolution` (R182). -/
def execConflictResolution (a : Access32) (s : State) : Answer := transact32 .conflictResolution a s

/-- `dma_request_0` (R183). -/
def execDmaRequest0 (a : Access32) (s : State) : Answer := transact32 .dmaRequest0 a s

/-- `dma_request_1` (R183). -/
def execDmaRequest1 (a : Access32) (s : State) : Answer := transact32 .dmaRequest1 a s

/-- `interrupt_on_event` (R184). -/
def execInterruptOnEvent (a : Access32) (s : State) : Answer := transact32 .interruptOnEvent a s

/-- `event_occurred` (R185). -/
def execEventOccurred (a : Access32) (s : State) : Answer := transact32 .eventOccurred a s

/-- `interrupt_on_conflict` (R186). -/
def execInterruptOnConflict (a : Access32) (s : State) : Answer := transact32 .interruptOnConflict a s

/-- `conflict_occurred` (R187). -/
def execConflictOccurred (a : Access32) (s : State) : Answer := transact32 .conflictOccurred a s

end Sys2Proof.Machine
end

