-- ==== Sys2Proof/Machine/Harness.lean ====
section
/-! DEFINITION. The harness and lifecycle operations (spec/44_harness.md): `VERIFY`, the three checks and `BIND`. -/

namespace Sys2Proof.Machine

/-- `VERIFY` (R280): every check in order; the phase becomes `VERIFIED`, or the first failure is taken. -/
def execVerify (s : State) : Answer :=
  whenUnverified s <|
    match verifyFailure s.params.layout s.params.anchors s.params.extent s.params.strides with
    | none => .next { s with phase := .verified, result := .passed }
    | some f => .next (takeBuildFailure f s)

/-- `CHECK_OFFSET` (R276): it passes, or its failure is taken (R304, log entry 7). -/
def execCheckOffset (name : FieldName) (documented : Nat) (s : State) : Answer :=
  whenUnverified s (.next (settleCheck (checkOffset s.params.layout name documented) s))

/-- `CHECK_SIZE` (R277): it passes, or its failure is taken (R304, log entry 7). -/
def execCheckSize (documented : Nat) (s : State) : Answer :=
  whenUnverified s (.next (settleCheck (checkSize s.params.layout documented) s))

/-- `CHECK_STRIDE` (R278): it passes, or its failure is taken (R304, log entry 7). -/
def execCheckStride (name : FieldName) (declared : Nat) (s : State) : Answer :=
  whenUnverified s (.next (settleCheck (checkStride s.params.layout name declared) s))

/-- `BIND` (R283): `BASE <- base`, the phase becomes `BOUND`; no register is touched. -/
def execBind (base : Word) (s : State) : Answer :=
  if s.phase = .verified then
    if baseOk base then .next { s with phase := .bound, base := some base, result := .nothing } else .refused .badBase
  else .refused .wrongPhase

end Sys2Proof.Machine
end

