-- ==== Sys2Proof/Machine/Slots.lean ====
section
/-! DEFINITION. The slot arrays, offsets 0x100 to 0x57C (spec/42_slot_arrays.md): the transactions on their slots, `SLOT_ADDR`
and `CONFIGURE_EVENT`. -/

namespace Sys2Proof.Machine

/-! ## Transactions on slots -/

/-- `match_capture[i]` (R211). -/
def execMatchCapture (i : Slot) (a : Access32) (s : State) : Answer := transact32 (.matchCapture i) a s

/-- The low half of `match_capture[i]` (R211). -/
def execMatchCaptureLow (i : Slot) (a : Access16) (s : State) : Answer := transact16 (.matchCapture i) .low a s

/-- The high half of `match_capture[i]` (R211). -/
def execMatchCaptureHigh (i : Slot) (a : Access16) (s : State) : Answer := transact16 (.matchCapture i) .high a s

/-- `match_alias_low[i]` (R212): the low half of `match_capture[i]`. -/
def execMatchAliasLow (i : Slot) (a : Access16) (s : State) : Answer := transact16 (.matchCapture i) .low a s

/-- `match_alias_high[i]` (R212): the high half of `match_capture[i]`. -/
def execMatchAliasHigh (i : Slot) (a : Access16) (s : State) : Answer := transact16 (.matchCapture i) .high a s

/-- `capture_control[i]` (R213). -/
def execCaptureControl (i : Slot) (a : Access32) (s : State) : Answer := transact32 (.captureControl i) a s

/-- The low half of `capture_control[i]` (R213). -/
def execCaptureControlLow (i : Slot) (a : Access16) (s : State) : Answer := transact16 (.captureControl i) .low a s

/-- The high half of `capture_control[i]` (R213). -/
def execCaptureControlHigh (i : Slot) (a : Access16) (s : State) : Answer := transact16 (.captureControl i) .high a s

/-- `capture_control_alias_low[i]` (R214): the low half of `capture_control[i]`. -/
def execCaptureControlAliasLow (i : Slot) (a : Access16) (s : State) : Answer := transact16 (.captureControl i) .low a s

/-- `capture_control_alias_high[i]` (R214): the high half of `capture_control[i]`. -/
def execCaptureControlAliasHigh (i : Slot) (a : Access16) (s : State) : Answer := transact16 (.captureControl i) .high a s

/-- `event[i].enabled_in_state` (R215). -/
def execEventEnabledInState (i : Slot) (a : Access32) (s : State) : Answer := transact32 (.eventEnabledInState i) a s

/-- `event[i].control` (R216). -/
def execEventControl (i : Slot) (a : Access32) (s : State) : Answer := transact32 (.eventControl i) a s

/-- `output_on_event[p].set` (R217). -/
def execOutputOnEventSet (i : Slot) (a : Access32) (s : State) : Answer := transact32 (.outputOnEventSet i) a s

/-- `output_on_event[p].clear` (R218). -/
def execOutputOnEventClear (i : Slot) (a : Access32) (s : State) : Answer := transact32 (.outputOnEventClear i) a s

/-! ## `SLOT_ADDR` -/

/-- The base offset `A` of an array (R210). -/
def arrayOffset : SlotArray → Nat
  | .matchCapture => 0x100
  | .matchAliasLow => 0x180
  | .matchAliasHigh => 0x1C0
  | .captureControl => 0x200
  | .captureControlAliasLow => 0x280
  | .captureControlAliasHigh => 0x2C0
  | .event => 0x300
  | .outputOnEvent => 0x500

/-- The stride `S` of an array (R210). -/
def arrayStride : SlotArray → Nat
  | .matchCapture => 4
  | .captureControl => 4
  | .event => 8
  | .outputOnEvent => 8
  | .matchAliasLow => 2
  | .matchAliasHigh => 2
  | .captureControlAliasLow => 2
  | .captureControlAliasHigh => 2

/-- The offset `W` of a selector inside a slot (R210). -/
def selectOffset : SlotSelect → Nat
  | .word => 0
  | .lowHalf => 0
  | .highHalf => 2
  | .half => 0
  | .enabledInState => 0
  | .control => 4
  | .set => 0
  | .clear => 4

/-- The offset of a slot (R71, R210): `A(a) + S(a) * i + W(a, j)`. -/
def slotByteOffset (arr : SlotArray) (i : Nat) (sel : SlotSelect) : Nat :=
  arrayOffset arr + arrayStride arr * i + selectOffset sel

/-- `SLOT_ADDR` (R210): `BASE` plus the slot's offset; no transaction. It takes the handle (R284, log entry 26). -/
def execSlotAddr (arr : SlotArray) (index : Nat) (sel : SlotSelect) (s : State) : Answer :=
  withHandle s fun h =>
    if index < 16 then
      if slotDeclares arr sel then .next { s with result := .address (h.address (slotByteOffset arr index sel)) }
      else .refused .undeclaredSelector
    else .refused .slotIndexOutOfRange

/-! ## `CONFIGURE_EVENT` -/

/-- The field values of `CONFIGURE_EVENT` with their positions, in the order of R118. -/
def eventFieldList (l : EvCtrlLayout) (f : EventFields) : List (SubField × Byte) :=
  [(l.matchRegister, f.matchRegister), (l.counterHalf, f.counterHalf), (l.ioIsOutput, f.ioIsOutput), (l.ioPin, f.ioPin),
   (l.ioCondition, f.ioCondition), (l.condition, f.condition), (l.loadState, f.loadState), (l.nextState, f.nextState)]

/-- Every value fits its field (R112). -/
def eventFieldsFit (l : EvCtrlLayout) (f : EventFields) : Bool :=
  (eventFieldList l f).all fun p => decide (p.2.toNat < 2 ^ p.1.width)

/-- The control word assembled from zero by `insert` of each field (R219). -/
def eventWord (l : EvCtrlLayout) (f : EventFields) : Word :=
  (eventFieldList l f).foldl (fun w p => insert w p.1.off p.1.width (p.2.setWidth 32)) 0

/-- `CONFIGURE_EVENT` (R219): two transactions, the gate first; between them the evaluations scheduled there (R86). -/
def execConfigureEvent (slot : Nat) (fields : EventFields) (gate : Word) (s : State) : Answer :=
  withHandle s fun handle =>
    if h : slot < 16 then
      if eventFieldsFit s.params.evCtrlLayout fields then
        match write32 handle (.eventEnabledInState ⟨slot, h⟩) gate s with
        | .next t => write32 handle (.eventControl ⟨slot, h⟩) (eventWord s.params.evCtrlLayout fields) (runBetween t)
        | other => other
      else .refused .fieldValueTooWide
    else .refused .slotIndexOutOfRange

end Sys2Proof.Machine
end

