-- ==== Sys2Proof/Machine/Dispatch.lean ====
section
/-! DEFINITION. The dispatch: one arm per operation, each one direct call of its meaning. -/

namespace Sys2Proof.Machine

def exec (i : Instr) (s : State) : Host.Outcome State Fault Refusal :=
  match i with
  | .config a => Sys2Proof.Machine.execConfig a s
  | .control a => Sys2Proof.Machine.execControl a s
  | .controlLow a => Sys2Proof.Machine.execControlLow a s
  | .controlHigh a => Sys2Proof.Machine.execControlHigh a s
  | .clearOnEvent a => Sys2Proof.Machine.execClearOnEvent a s
  | .clearOnEventLow a => Sys2Proof.Machine.execClearOnEventLow a s
  | .clearOnEventHigh a => Sys2Proof.Machine.execClearOnEventHigh a s
  | .haltOnEvent a => Sys2Proof.Machine.execHaltOnEvent a s
  | .haltOnEventLow a => Sys2Proof.Machine.execHaltOnEventLow a s
  | .haltOnEventHigh a => Sys2Proof.Machine.execHaltOnEventHigh a s
  | .stopOnEvent a => Sys2Proof.Machine.execStopOnEvent a s
  | .stopOnEventLow a => Sys2Proof.Machine.execStopOnEventLow a s
  | .stopOnEventHigh a => Sys2Proof.Machine.execStopOnEventHigh a s
  | .startOnEvent a => Sys2Proof.Machine.execStartOnEvent a s
  | .startOnEventLow a => Sys2Proof.Machine.execStartOnEventLow a s
  | .startOnEventHigh a => Sys2Proof.Machine.execStartOnEventHigh a s
  | .count a => Sys2Proof.Machine.execCount a s
  | .countLow a => Sys2Proof.Machine.execCountLow a s
  | .countHigh a => Sys2Proof.Machine.execCountHigh a s
  | .state a => Sys2Proof.Machine.execState a s
  | .stateLow a => Sys2Proof.Machine.execStateLow a s
  | .stateHigh a => Sys2Proof.Machine.execStateHigh a s
  | .input => Sys2Proof.Machine.execInput s
  | .registerMode a => Sys2Proof.Machine.execRegisterMode a s
  | .registerModeLow a => Sys2Proof.Machine.execRegisterModeLow a s
  | .registerModeHigh a => Sys2Proof.Machine.execRegisterModeHigh a s
  | .output a => Sys2Proof.Machine.execOutput a s
  | .outputDirectionControl a => Sys2Proof.Machine.execOutputDirectionControl a s
  | .conflictResolution a => Sys2Proof.Machine.execConflictResolution a s
  | .dmaRequest0 a => Sys2Proof.Machine.execDmaRequest0 a s
  | .dmaRequest1 a => Sys2Proof.Machine.execDmaRequest1 a s
  | .interruptOnEvent a => Sys2Proof.Machine.execInterruptOnEvent a s
  | .eventOccurred a => Sys2Proof.Machine.execEventOccurred a s
  | .interruptOnConflict a => Sys2Proof.Machine.execInterruptOnConflict a s
  | .conflictOccurred a => Sys2Proof.Machine.execConflictOccurred a s
  | .matchCapture slot a => Sys2Proof.Machine.execMatchCapture slot a s
  | .matchCaptureLow slot a => Sys2Proof.Machine.execMatchCaptureLow slot a s
  | .matchCaptureHigh slot a => Sys2Proof.Machine.execMatchCaptureHigh slot a s
  | .matchAliasLow slot a => Sys2Proof.Machine.execMatchAliasLow slot a s
  | .matchAliasHigh slot a => Sys2Proof.Machine.execMatchAliasHigh slot a s
  | .captureControl slot a => Sys2Proof.Machine.execCaptureControl slot a s
  | .captureControlLow slot a => Sys2Proof.Machine.execCaptureControlLow slot a s
  | .captureControlHigh slot a => Sys2Proof.Machine.execCaptureControlHigh slot a s
  | .captureControlAliasLow slot a => Sys2Proof.Machine.execCaptureControlAliasLow slot a s
  | .captureControlAliasHigh slot a => Sys2Proof.Machine.execCaptureControlAliasHigh slot a s
  | .eventEnabledInState slot a => Sys2Proof.Machine.execEventEnabledInState slot a s
  | .eventControl slot a => Sys2Proof.Machine.execEventControl slot a s
  | .outputOnEventSet slot a => Sys2Proof.Machine.execOutputOnEventSet slot a s
  | .outputOnEventClear slot a => Sys2Proof.Machine.execOutputOnEventClear slot a s
  | .verify => Sys2Proof.Machine.execVerify s
  | .checkOffset name documented => Sys2Proof.Machine.execCheckOffset name documented s
  | .checkSize documented => Sys2Proof.Machine.execCheckSize documented s
  | .checkStride name declared => Sys2Proof.Machine.execCheckStride name declared s
  | .bind base => Sys2Proof.Machine.execBind base s
  | .fieldRd reg off width => Sys2Proof.Machine.execFieldRd reg off width s
  | .fieldWr reg off width f => Sys2Proof.Machine.execFieldWr reg off width f s
  | .slotAddr arr index sel => Sys2Proof.Machine.execSlotAddr arr index sel s
  | .sctEval d => Sys2Proof.Machine.execSctEval d s
  | .configureEvent slot fields gate => Sys2Proof.Machine.execConfigureEvent slot fields gate s

end Sys2Proof.Machine
end

