-- ==== Sys2Proof/Machine/Step.lean ====
section
/-! DEFINITION. One step of the machine (spec/10_state.md R22, spec/20_memory.md R82): the next waiting operation is decoded and
performed. -/

namespace Sys2Proof.Machine

/-- The state in which the operation at the head of the queue is performed: it is taken from the queue, and the evaluations
scheduled between its transactions stand ready. -/
def State.take (s : State) (p : Pending) (rest : List Pending) : State := { s with queue := rest, between := p.between }

/-- One step (R22: the operations are "consumed front to back"): decode and perform the next operation; an operation that does
not decode is refused; with none waiting the machine is idle. -/
def step (s : State) : Host.Outcome State Fault Refusal :=
  match s.queue with
  | [] => .fault .idle
  | p :: rest =>
    match decode p.word with
    | .ok i => exec i (s.take p rest)
    | .error e => .refused (.undecodable e)

/-- The phase in which the agent of an operation acts (R9, R320): the harness in `UNVERIFIED`, the binder in `VERIFIED`, the bus
master and the SCT agent in `BOUND`. -/
def homePhase : Instr → Phase
  | .verify => .unverified
  | .checkOffset _ _ => .unverified
  | .checkSize _ => .unverified
  | .checkStride _ _ => .unverified
  | .bind _ => .verified
  | _ => .bound

/-- The state brought to the phase in which an operation can be presented (log entry 2). A bound instance has a base: the one
it had, else 0. -/
def State.inPhaseOf (s : State) (op : OpWord) : State :=
  match decode op with
  | .error _ => s
  | .ok i =>
    match homePhase i with
    | .bound => { s with phase := .bound, base := some (s.base.getD 0), failure := none }
    | q => { s with phase := q, base := none, failure := none }

/-- The state with the operation of a table word next (log entry 2): it stands at the front of the queue, and the lifecycle is in
the phase in which that operation is presented. -/
def State.withFetchWord (s : State) (nbits w : Nat) : State :=
  let op := OpWord.ofTable nbits w
  let t := s.inPhaseOf op
  { t with queue := { word := op, between := [] } :: t.queue }

end Sys2Proof.Machine
end

