-- ==== Sys2Proof/WellFormed.lean ====
section
/-! DEFINITION. What makes an operation well-formed: the conditions the spec puts on its operands alone. -/

namespace Sys2Proof

open Machine (fieldPairOk baseOk slotDeclares)

/-- The names an operation can carry: the model numbers them in 16 bits (log entry 1). -/
def FieldName.wellFormed : FieldName → Bool
  | .reserved off => decide (off < 0x1000)
  | .other n => decide (n < 0x8000)
  | _ => true

/-- An operation is well-formed when its operands are ones the spec allows it: documented numbers of at most 32 bits,
a base address that is aligned and does not wrap (R283), a sub-field that lies in its view (R110) with a value that fits
(R112) and, for a write, a view that is writable (R102), a slot index 0 to 15 and a selector its array declares (R210). -/
def Instr.wellFormed : Instr → Bool
  | .checkOffset name d => name.wellFormed && decide (d < 2 ^ 32)
  | .checkSize d => decide (d < 2 ^ 32)
  | .checkStride name s => name.wellFormed && decide (s < 2 ^ 32)
  | .bind base => baseOk base
  | .fieldRd reg o w => fieldPairOk reg.bits o w
  | .fieldWr reg o w f => fieldPairOk reg.bits o w && decide (f.toNat < 2 ^ w) && decide (reg ≠ .input)
  | .slotAddr arr i sel => decide (i < 16) && slotDeclares arr sel
  | .configureEvent slot _ _ => decide (slot < 16)
  | _ => true

end Sys2Proof
end

