-- ==== Sys2Proof/Safety.lean ====
section
/-! DEFINITION. What counts as a sound state, and the words in which the statements say what an operation leaves alone. -/

namespace Sys2Proof.Machine

/-- The invariant of the machine: a base is bound exactly in phase `BOUND` and is one `BIND` accepts (R21, R283); a failure
record is kept exactly in `BUILD_HALTED` (R304); past the harness every check passes (R280); the parameters are legal (R8,
R110); the stored `clear_counter` bits are 0 (R171; under a reserved value log entry 15). -/
structure Invariant (s : State) : Prop where
  base_iff_bound : s.base.isSome = decide (s.phase = .bound)
  base_ok        : s.base.all baseOk = true
  failure_iff    : s.failure.isSome = decide (s.phase = .buildHalted)
  past_harness   : s.phase = .verified ∨ s.phase = .bound →
    verifyFailure s.params.layout s.params.anchors s.params.extent s.params.strides = none
  params_legal   : s.params.legal = true
  clear_is_zero  : s.regs.control &&& zeroBits s.params .control = 0

/-- The instance has a handle (R284): it is in phase `BOUND`, a base is bound, and its descriptor passes every check. Every
state in phase `BOUND` that meets the invariant has one. -/
structure Bound (s : State) : Prop where
  phase    : s.phase = .bound
  base     : s.base.isSome = true
  verified : verifyFailure s.params.layout s.params.anchors s.params.extent s.params.strides = none

/-- The lifecycle, the parameters and the waiting operations are the same. -/
structure SameLaunch (s t : State) : Prop where
  phase   : t.phase = s.phase
  base    : t.base = s.base
  failure : t.failure = s.failure
  params  : t.params = s.params
  queue   : t.queue = s.queue

/-- What the SCT agent holds beside the registers is the same. -/
structure SameAgent (s t : State) : Prop where
  firing    : t.firing = s.firing
  dmaRaised : t.dmaRaised = s.dmaRaised

/-- Every stored word of the map outside the list is the same, every bit of it. -/
def WordsKeptExcept (rs : List Reg) (s t : State) : Prop := ∀ r, r ∉ rs → t.regs.get r = s.regs.get r

/-- The frame of an operation that may change only the words of the list (and, the model's own, `result`, `draws` and
`between`). -/
structure Frame (rs : List Reg) (s t : State) : Prop where
  launch : SameLaunch s t
  agent  : SameAgent s t
  words  : WordsKeptExcept rs s t

/-- An operation of the bus master that is one transaction: a row of R103. -/
def isTransaction : Instr → Bool
  | .verify => false
  | .checkOffset _ _ => false
  | .checkSize _ => false
  | .checkStride _ _ => false
  | .bind _ => false
  | .fieldRd _ _ _ => false
  | .fieldWr _ _ _ _ => false
  | .slotAddr _ _ _ => false
  | .sctEval _ => false
  | .configureEvent _ _ _ => false
  | _ => true

/-- The other half. -/
def otherHalf : Half → Half
  | .low => .high
  | .high => .low

/-- A 32-bit read completes where the instance is bound: it returns the stored word on the bits `shown`, a draw on the bits
`drawn`, and 0 elsewhere; it takes one draw and changes nothing else. -/
def WordRead (mk : Access32 → Instr) (r : Reg) (shown drawn : State → Word) : Prop :=
  ∀ s, Bound s → ∃ t,
    exec (mk .read) s = .next t ∧
    t.result = .word ((s.regs.get r &&& shown s) ||| (Config.freeWord s.draws &&& drawn s)) ∧
    t.draws = s.draws + 1 ∧ t.between = s.between ∧ Frame [] s t

/-- A 32-bit write completes where the instance is bound under a condition on the state: the word becomes the value on the bits
`kept` and 0 elsewhere, and nothing else changes. -/
def WordWrite (mk : Access32 → Instr) (r : Reg) (ok : State → Prop) (kept : Params → Word) : Prop :=
  ∀ s v, Bound s → ok s → ∃ t,
    exec (mk (.write v)) s = .next t ∧ t.regs.get r = v &&& kept s.params ∧
    t.result = .nothing ∧ t.draws = s.draws ∧ t.between = s.between ∧ Frame [r] s t

/-- A 16-bit read completes where the instance is bound: it returns its half of the stored word on the bits `shown`, a draw on
the bits `drawn`, and 0 elsewhere; it takes one draw and changes nothing else. -/
def HalfRead (mk : Access16 → Instr) (r : Reg) (k : Half) (shown drawn : State → HalfWord) : Prop :=
  ∀ s, Bound s → ∃ t,
    exec (mk .read) s = .next t ∧
    t.result = .half ((halfOf k (s.regs.get r) &&& shown s) ||| (halfOf k (Config.freeWord s.draws) &&& drawn s)) ∧
    t.draws = s.draws + 1 ∧ t.between = s.between ∧ Frame [] s t

/-- A 16-bit write completes where the instance is bound under a condition on the state: the half becomes the value on the bits
`kept` and 0 elsewhere; the other half of the word and everything else is kept. -/
def HalfWrite (mk : Access16 → Instr) (r : Reg) (k : Half) (ok : State → Prop) (kept : Params → HalfWord) : Prop :=
  ∀ s v, Bound s → ok s → ∃ t,
    exec (mk (.write v)) s = .next t ∧ halfOf k (t.regs.get r) = v &&& kept s.params ∧
    halfOf (otherHalf k) (t.regs.get r) = halfOf (otherHalf k) (s.regs.get r) ∧
    t.result = .nothing ∧ t.draws = s.draws ∧ t.between = s.between ∧ Frame [r] s t

/-- The split-register law (R144) of a word, one of its halves and a set of its bits: a 32-bit write of `a` and a 16-bit write
of `b` complete, and a 32-bit read after them returns `a` with that half replaced by `b`. -/
def SplitLaw (ok : State → Prop) (named : Params → Word) (word : Access32 → Instr) (half : Access16 → Instr) (k : Half) : Prop :=
  ∀ (s : State) (a : Word) (b : HalfWord), Bound s → ok s → ∃ t u r x,
    exec (word (.write a)) s = .next t ∧ exec (half (.write b)) t = .next u ∧ exec (word .read) u = .next r ∧
    r.result = .word x ∧
    x &&& named s.params = (match k with
      | .low => halfOf .high a ++ b
      | .high => b ++ halfOf .low a) &&& named s.params

/-- Every bit of a word. -/
def allBits (_ : Params) : Word := ~~~ 0

/-- The bits of a ControlRegister that read as they are stored (R116, R171): those of its fields but `count_down`, which is a
draw, and `clear_counter`, which reads 0. -/
def steadyControl (p : Params) : HalfWord :=
  fieldsMask 16 p.ctrlLayout.fields &&& ~~~ fieldMask 16 p.ctrlLayout.countDown &&& ~~~ fieldMask 16 p.ctrlLayout.clearCounter

/-- No condition on the state. -/
def always (_ : State) : Prop := True

/-- The slots hold thresholds (R133). -/
def inMatchMode (s : State) : Prop := s.params.slotMode = .matching

/-- The words only a bus write changes (R25), a match slot in match mode among them; `control` and the request words hold
device-owned bits beside their software-owned ones. -/
def softwareOwned (p : Params) : Reg → Bool
  | .config => true
  | .clearOnEvent => true
  | .haltOnEvent => true
  | .stopOnEvent => true
  | .startOnEvent => true
  | .registerMode => true
  | .outputDirectionControl => true
  | .conflictResolution => true
  | .interruptOnEvent => true
  | .interruptOnConflict => true
  | .captureControl _ => true
  | .eventEnabledInState _ => true
  | .eventControl _ => true
  | .outputOnEventSet _ => true
  | .outputOnEventClear _ => true
  | .matchCapture _ => decide (p.slotMode = .matching)
  | _ => false

/-- The words the SCT agent may change (R25, R343): `match_capture` only in capture mode. -/
def agentWords (p : Params) : List Reg :=
  [.count, .state, .control, .output, .eventOccurred, .conflictOccurred] ++
    (match p.slotMode with
     | .matching => []
     | .capturing => (List.finRange 16).map Reg.matchCapture)

/-! ## Transactions as codes -/

/-- The operation word of a transaction `(w, h, off)` with a data word (R100). -/
def transactionWord (w h : Bool) (off : Nat) (data : Word) : OpWord :=
  { code := BitVec.ofNat 16 ((if w then 0x2000 else 0) + (if h then 0x1000 else 0) + off), arg := 0, data := data, x0 := 0,
    x1 := 0, x2 := 0, x3 := 0 }

/-- The entry of a descriptor that a byte offset lies in, with the offset inside it. -/
def entryAt : List Entry → Nat → Option (Entry × Nat)
  | [], _ => none
  | e :: L, off => if off < e.unit * e.count then some (e, off) else entryAt L (off - e.unit * e.count)

/-- Whether a descriptor has a padding entry at an offset. -/
def inPadding (L : List Entry) (off : Nat) : Bool :=
  match entryAt L off with
  | none => false
  | some (e, _) => decide (e.kind = .reserved)

/-- Whether a descriptor declares an access of a width at an offset (R30, R76): a 16-bit one at each element of an entry of
2-byte elements and at each 2-byte part; a 32-bit one at each element of an entry of 4-byte elements and at each 4-byte part. -/
def declaresAccess (L : List Entry) (h : Bool) (off : Nat) : Bool :=
  match entryAt L off with
  | none => false
  | some (e, k) =>
    let n := if h then 2 else 4
    decide (e.kind = .field) &&
      (decide (e.unit = n ∧ k % n = 0) || e.subs.any fun p => decide (p.bytes = n ∧ k % e.unit = p.off))

/-- The view a slot address names (R210). -/
def slotView (i : Slot) : SlotArray → SlotSelect → View
  | .matchCapture, .lowHalf => .matchCaptureLow i
  | .matchCapture, .highHalf => .matchCaptureHigh i
  | .matchCapture, _ => .matchCapture i
  | .matchAliasLow, _ => .matchAliasLow i
  | .matchAliasHigh, _ => .matchAliasHigh i
  | .captureControl, .lowHalf => .captureControlLow i
  | .captureControl, .highHalf => .captureControlHigh i
  | .captureControl, _ => .captureControl i
  | .captureControlAliasLow, _ => .captureControlAliasLow i
  | .captureControlAliasHigh, _ => .captureControlAliasHigh i
  | .event, .control => .eventControl i
  | .event, _ => .eventEnabledInState i
  | .outputOnEvent, .clear => .outputOnEventClear i
  | .outputOnEvent, _ => .outputOnEventSet i

/-! ## The words of an evaluation -/

/-- No reserved value is in force (R131): the clock mode is one of the three, every half in use is in a declared state, and every
event record names a declared state and, where it looks at an input, one of the eight lines. Any event record counts, whether its
event fires or not (log entry 14). -/
structure NoReservedValue (s : State) : Prop where
  clock  : fieldValue s.params.configLayout.clockMode (s.regs.get .config) < 3
  states : ∀ k ∈ s.halvesInUse, (s.stateId k).toNat < s.params.numStates
  next   : ∀ e : Slot, fieldValue s.params.evCtrlLayout.nextState (s.regs.get (.eventControl e)) < s.params.numStates
  input  : ∀ e : Slot, fieldFlag s.params.evCtrlLayout.ioIsOutput (s.regs.get (.eventControl e)) = true ∨
    fieldValue s.params.evCtrlLayout.ioPin (s.regs.get (.eventControl e)) < 8

/-- A draw an operation that leads from `s` to `t` takes (R12). -/
def Drawn (s t : State) (x : Word) : Prop := ∃ n, s.draws ≤ n ∧ n < t.draws ∧ x = Config.freeWord n

/-- Event `e` fired in the evaluation that led to `t` (R246). -/
def State.fired (t : State) (e : Slot) : Prop := t.firing.getLsbD e.val = true

/-- Some event that fired has its bit in a table word, `off` bits up (R248). -/
def State.tableHit (t : State) (w : Word) (off : Nat) : Prop := ∃ e : Slot, t.fired e ∧ w.getLsbD (off + e.val) = true

/-- The total size of a list of descriptor entries (R272). -/
def totalBytes (L : List Entry) : Nat := (L.map fun e => e.unit * e.count).sum

end Sys2Proof.Machine
end

