-- ==== Sys2Proof/Certificates/Slice0/Obligations.lean ====
section
/-! DEFINITION. The statements for the provers. Each docstring names the rule of spec/ the statement formalises, or the log entry a
clause rests on. -/

open Sys2Proof Sys2Proof.Machine

/-! ## Encoding -/

/-- Decoding the encoding of a well-formed operation gives the operation back (R100, R103 to R105; the packing is log entry 1). -/
def Obligations.DecodeOfEncode : Prop := ∀ i : Instr, i.wellFormed = true → decode (encode i) = .ok i

/-- Every presented operation that decodes is the encoding of what it decodes to: no two presentations stand for one operation
and no bit is dropped (R100, R105; the packing is log entry 1). -/
def Obligations.EncodeOfDecode : Prop := ∀ (op : OpWord) (i : Instr), decode op = .ok i → encode i = op

/-- No code selects two rows of the opcode map (R103). -/
def Obligations.OpcodeRowsDisjoint : Prop :=
  opcodeRows.Pairwise fun a b => ∀ c : BitVec 13, ¬ (a.matches c = true ∧ b.matches c = true)

/-- R102: the verdict on every `(w, h, off)`, by the six tests in their order. The reserved rows and the declared widths of R30
are read from the descriptor that lists them (R271). A 16-bit write carries 16 bits and a read none (log entry 1). -/
def Obligations.TransactionVerdict : Prop :=
  ∀ (w h : Bool) (off : Nat) (data : Word), off < 0x1000 →
    (w = false → data = 0) → (h = true → data >>> 16 = 0) →
    let verdict := decode (transactionWord w h off data)
    if 0x580 ≤ off then verdict = .error .outside
    else if off % (if h then 2 else 4) ≠ 0 then verdict = .error .misaligned
    else if inPadding specLayout off then verdict = .error .reserved
    else if declaresAccess specLayout h off = false then verdict = .error .undeclaredWidth
    else if w = true ∧ off = 0x048 then verdict = .error .readOnly
    else ∃ r ∈ opcodeRows, ∃ i : Slot,
      BitVec.ofNat 13 ((if h then 0x1000 else 0) + off) &&& r.mask = r.code ∧
      i.val = ((if h then 0x1000 else 0) + off) / 2 ^ r.shift % 16 ∧ verdict = .ok (transactionOf (r.view i) w data)

/-- Words written out from R100 and R103 decode to the operations they stand for: the vectors of 95_test_vectors.md 2.1 and P1. The
four selectors are those of R105; that bit 15 of the code marks a selector, and where the operands of a selected operation stand, is
the model's packing (log entry 1, a design choice), not the spec's. -/
def Obligations.SpecWordsDecode : Prop :=
  decode (transactionWord false false 0x014 0) = .ok (.startOnEvent .read) ∧
  decode ⟨0x3016, 0, 1, 0, 0, 0, 0⟩ = .ok (.startOnEventHigh (.write 1)) ∧
  decode ⟨0x119E, 0, 0, 0, 0, 0, 0⟩ = .ok (.matchAliasLow 15 .read) ∧
  decode ⟨0x113E, 0, 0, 0, 0, 0, 0⟩ = .ok (.matchCaptureHigh 15 .read) ∧
  decode ⟨0x231C, 0, 0x000B4002, 0, 0, 0, 0⟩ = .ok (.eventControl 3 (.write 0x000B4002)) ∧
  decode ⟨0x257C, 0, 2, 0, 0, 0, 0⟩ = .ok (.outputOnEventClear 15 (.write 2)) ∧
  decode ⟨0x20F4, 0, 8, 0, 0, 0, 0⟩ = .ok (.eventOccurred (.write 8)) ∧
  decode ⟨0x8000, 0, 0, 0, 0, 0, 0⟩ = .ok .verify ∧
  decode ⟨0x8004, 0, 0x40000000, 0, 0, 0, 0⟩ = .ok (.bind 0x40000000) ∧
  decode ⟨0x8008, 0, 1000, 0, 0, 0, 0⟩ = .ok (.sctEval ⟨1000, 0, 0, 0, 0⟩) ∧
  decode ⟨0x800A, 0, 0, 0, 0, 0, 0⟩ = .error .unassignedSelector

/-! ## Steps, reset and the lifecycle -/

/-- A step performs the operation at the head of the queue, which it takes from the queue with the evaluations scheduled inside
it; an operation that does not decode is refused; with no operation waiting there is no step (R22, R102; log entries 1, 19,
28). -/
def Obligations.StepRunsDecoded : Prop :=
  (∀ (s : State) (p : Pending) (rest : List Pending) (i : Instr), s.queue = p :: rest → decode p.word = .ok i →
    step s = exec i { s with queue := rest, between := p.between }) ∧
  (∀ (s : State) (p : Pending) (rest : List Pending) (e : DecodeError), s.queue = p :: rest → decode p.word = .error e →
    step s = .refused (.undecodable e)) ∧
  ∀ s : State, s.queue = [] → step s = .fault .idle

/-- A launch starts in `UNVERIFIED` with no base and the launch's reset image; the default image holds 0x00040004 in `control` and
0 elsewhere (R331; the default image is log entry 4, the model's own fields are log entries 4, 5 and 6). A hardware reset of a
running system brings back the image and the hidden device state and keeps the phase and the base (R333; it is no operation of the
table, log entry 34). -/
def Obligations.ResetState : Prop :=
  (∀ p : Params, (State.launch p).phase = .unverified ∧ (State.launch p).base = none ∧
    (State.launch p).regs = p.resetImage ∧ (State.launch p).failure = none ∧ (State.launch p).queue = []) ∧
  State.reset = State.launch Params.default ∧
  (∀ r : Reg, State.reset.regs.get r = if r = .control then 0x00040004 else 0) ∧
  ∀ s : State, (hardwareReset s).regs = s.params.resetImage ∧ (hardwareReset s).phase = s.phase ∧
    (hardwareReset s).base = s.base ∧ (hardwareReset s).params = s.params ∧
    (hardwareReset s).firing = (State.launch s.params).firing ∧ (hardwareReset s).dmaRaised = (State.launch s.params).dmaRaised

/-- The invariant holds after a launch with any legal parameters whose reset image stores `clear_counter` as 0 (R330, R331: the
reset image is a parameter the spec leaves open; that it stores `clear_counter` as 0 is a premise, as R171 makes every write do).
So it holds after reset with the model's default image (log entry 4, presumed). -/
def Obligations.ResetInvariant : Prop :=
  (∀ p : Params, p.legal = true → p.resetImage.get .control &&& zeroBits p .control = 0 → Invariant (State.launch p)) ∧
  Invariant State.reset

/-- Every step keeps the invariant: a base is bound exactly in `BOUND` and is aligned and does not wrap, a failure is recorded
exactly in `BUILD_HALTED`, past the harness every check passes, the parameters are legal, `clear_counter` is stored as 0 (R21,
R283, R304, R280, R110, R171). -/
def Obligations.StepKeepsInvariant : Prop := ∀ s t : State, Invariant s → step s = .next t → Invariant t

/-- The lifecycle (R21): only `VERIFY` verifies, only `BIND` binds, a build is halted only from `UNVERIFIED` by a harness operation
(the single checks among them: log entry 7), and the base, once written, never changes; the parameters never change. -/
def Obligations.LifecycleOrder : Prop :=
  ∀ (i : Instr) (s t : State), exec i s = .next t →
    t.params = s.params ∧
    (t.phase = s.phase ∧ t.base = s.base ∨
      s.phase = .unverified ∧ t.phase = .verified ∧ i = .verify ∧ t.base = s.base ∨
      s.phase = .unverified ∧ t.phase = .buildHalted ∧ t.base = s.base ∧
        (i = .verify ∨ (∃ n d, i = .checkOffset n d) ∨ (∃ d, i = .checkSize d) ∨ ∃ n d, i = .checkStride n d) ∨
      s.phase = .verified ∧ t.phase = .bound ∧ ∃ base, i = .bind base ∧ t.base = some base)

/-- R149: where the instance is not bound no transaction is defined and the model refuses it; so it refuses the operations made of
transactions (R145, R146, R219) and `SLOT_ADDR`, which takes the handle (R284; log entry 26). The step of the SCT agent is refused
outside phase `BOUND` (R240). -/
def Obligations.NothingBeforeBinding : Prop :=
  ∀ (i : Instr) (s : State),
    (¬ Bound s →
      (isTransaction i = true ∨ (∃ r o w, i = .fieldRd r o w) ∨ (∃ r o w f, i = .fieldWr r o w f) ∨
        (∃ n f g, i = .configureEvent n f g) ∨ ∃ a n sel, i = .slotAddr a n sel) →
      exec i s = .refused .notBound) ∧
    (s.phase ≠ .bound → (∃ d, i = .sctEval d) → exec i s = .refused .notBound)

/-- A transaction on a bound instance completes or is refused for being outside the contract (R150): a write of `count`, `state`
or `output` while a counter half runs (R176, R177, R180), of a slot in capture mode (R211), of a status word under `read_clears`
(R185). It is refused for nothing else, a read never; every declared transaction that meets none of the three completes. None ends
the bound phase, and no operation faults (R302). -/
def Obligations.TransactionsComplete : Prop :=
  (∀ (i : Instr) (s : State), isTransaction i = true → Bound s →
    (∃ t, exec i s = .next t ∧ t.phase = .bound ∧ t.failure = s.failure ∧ t.queue = s.queue) ∨
      exec i s = .refused .counterRunning ∨ exec i s = .refused .captureModeWrite ∨
      exec i s = .refused .flagWriteUnderReadClears) ∧
  (∀ (v : View) (w : Bool) (x : Word) (s : State), Bound s →
    (w = true → v ≠ .input ∧
      ((storage v).1 = .count ∨ (storage v).1 = .state ∨ (storage v).1 = .output →
        s.halted .low = true ∧ s.halted .high = true) ∧
      ((storage v).1 = .eventOccurred ∨ (storage v).1 = .conflictOccurred → s.params.flagClearRule = .writeOneToClear) ∧
      ∀ i, (storage v).1 = .matchCapture i → s.params.slotMode = .matching) →
    ∃ t, exec (transactionOf v w x) s = .next t) ∧
  ∀ (i : Instr) (s : State) (f : Fault), exec i s ≠ .fault f

/-- R304: `BUILD_HALTED` is terminal. In every state that meets the invariant no operation has a step from it. -/
def Obligations.BuildHaltedTerminal : Prop :=
  ∀ (i : Instr) (s : State), Invariant s → s.phase = .buildHalted → ∃ r, exec i s = .refused r

/-! ## The harness -/

/-- The computed offsets (R272): the `k`-th entry lies after the bytes of the entries before it, and so does the first entry of a
name; a part, the first of its sub-name (log entry 40), and a slot lie inside their entry. `CHECK_OFFSET` (R276) compares the
documented offset with that of the first entry of the name (log entry 38); it passes with nothing changed, or `BuildFailure` is
taken (R304; that a single check halts the build is log entry 7). Outside `UNVERIFIED` it is refused (R280, R320). -/
def Obligations.CheckOffsetVerdict : Prop :=
  (∀ (A B : List Entry) (e : Entry), computedOffset (A ++ e :: B) A.length = totalBytes A ∧ ((∀ x ∈ A, x.name ≠ e.name) →
    offsetNamed (A ++ e :: B) e.name = some (totalBytes A) ∧
    (∀ i, slotOffset (A ++ e :: B) e.name i = if i < e.count then some (totalBytes A + e.unit * i) else none) ∧
    (∀ P p Q, e.subs = P ++ p :: Q → (∀ q ∈ P, q.name ≠ p.name) →
      subOffset (A ++ e :: B) e.name p.name = some (totalBytes A + p.off)) ∧
    ∀ n, (∀ q ∈ e.subs, q.name ≠ n) → subOffset (A ++ e :: B) e.name n = none)) ∧
  (∀ (s : State) (A B : List Entry) (e : Entry) (d : Nat), s.phase = .unverified → s.params.layout = A ++ e :: B →
    (∀ x ∈ A, x.name ≠ e.name) →
    exec (.checkOffset e.name d) s = .next (if totalBytes A = d then { s with result := .passed }
      else { s with phase := .buildHalted, failure := some (.offset e.name d (totalBytes A)), result := .nothing })) ∧
  (∀ (s : State) (n : FieldName) (d : Nat), s.phase = .unverified → (∀ x ∈ s.params.layout, x.name ≠ n) →
    exec (.checkOffset n d) s =
      .next { s with phase := .buildHalted, failure := some (.unknownField n d), result := .nothing }) ∧
  ∀ (s : State) (n : FieldName) (d : Nat), s.phase ≠ .unverified → exec (.checkOffset n d) s = .refused .wrongPhase

/-- `CHECK_SIZE` (R277): it compares the documented extent with the bytes of all entries (R304, log entry 7). Outside `UNVERIFIED`
it is refused (R280, R320). -/
def Obligations.CheckSizeVerdict : Prop :=
  (∀ (s : State) (d : Nat), s.phase = .unverified →
    exec (.checkSize d) s = .next (if totalBytes s.params.layout = d then { s with result := .passed }
      else { s with phase := .buildHalted, failure := some (.size d (totalBytes s.params.layout)), result := .nothing })) ∧
  ∀ (s : State) (d : Nat), s.phase ≠ .unverified → exec (.checkSize d) s = .refused .wrongPhase

/-- `CHECK_STRIDE` (R278): it passes exactly when every two neighbouring slots are the declared stride apart and, where the
element has parts, their bytes add up to it; otherwise the build is halted and names the entry (R304, log entry 7). Of several
entries of the name the first is taken (log entry 38). Outside `UNVERIFIED` it is refused (R280, R320). -/
def Obligations.CheckStrideVerdict : Prop :=
  (∀ (s : State) (A B : List Entry) (e : Entry) (d : Nat), s.phase = .unverified → s.params.layout = A ++ e :: B →
    (∀ x ∈ A, x.name ≠ e.name) →
    ((e.count ≤ 1 ∨ e.unit = d) ∧ (e.subs = [] ∨ (e.subs.map SubEntry.bytes).sum = d) →
      exec (.checkStride e.name d) s = .next { s with result := .passed }) ∧
    (¬ (e.count ≤ 1 ∨ e.unit = d) → exec (.checkStride e.name d) s =
      .next { s with phase := .buildHalted, failure := some (.stride e.name d e.unit), result := .nothing }) ∧
    ((e.count ≤ 1 ∨ e.unit = d) → ¬ (e.subs = [] ∨ (e.subs.map SubEntry.bytes).sum = d) → exec (.checkStride e.name d) s =
      .next { s with phase := .buildHalted, failure := some (.stride e.name d (e.subs.map SubEntry.bytes).sum),
                     result := .nothing })) ∧
  (∀ (s : State) (n : FieldName) (d : Nat), s.phase = .unverified → (∀ x ∈ s.params.layout, x.name ≠ n) →
    exec (.checkStride n d) s =
      .next { s with phase := .buildHalted, failure := some (.unknownField n d), result := .nothing }) ∧
  ∀ (s : State) (n : FieldName) (d : Nat), s.phase ≠ .unverified → exec (.checkStride n d) s = .refused .wrongPhase

/-- The descriptor of R271 passes every check, its computed offsets are the seven documented anchors and its size is 0x580 (R275).
What the checks establish (R279): where two anchors pass, the bytes of the entries from the first to the second are right;
where an anchor and the size pass, so are the bytes from the anchor to the end. Two exchanged entries of one size between the
same anchors are not seen (R279 a). -/
def Obligations.AnchorsFixSizesBetween : Prop :=
  (verifyFailure specLayout specAnchors specExtent specStrides = none ∧ totalBytes specLayout = 0x580 ∧
    specAnchors.map Prod.snd = [0x014, 0x040, 0x0F0, 0x180, 0x280, 0x300, 0x500] ∧
    specAnchors.map (fun a => offsetNamed specLayout a.1) = specAnchors.map fun a => some a.2) ∧
  (∀ (L : List Entry) (n m : FieldName) (a b : Nat), a < b → checkOffset L n a = none → checkOffset L m b = none →
    totalBytes ((L.dropWhile fun e => decide (e.name ≠ n)).takeWhile fun e => decide (e.name ≠ m)) = b - a) ∧
  (∀ (L : List Entry) (n : FieldName) (a b : Nat), checkOffset L n a = none → checkSize L b = none →
    totalBytes (L.dropWhile fun e => decide (e.name ≠ n)) = b - a ∧ a ≤ b) ∧
  verifyFailure (specLayout.set 3 (specLayout.getD 4 (paddingEntry 0 4 1)) |>.set 4 (specLayout.getD 3 (paddingEntry 0 4 1)))
    specAnchors specExtent specStrides = none

/-- Well-formedness of a descriptor (R273): no violation is found exactly when the names are unique, every unit is a positive
multiple of 2, every count is at least 1, every entry lies at a multiple of its alignment, and the parts of an element lie in it
and do not overlap (log entry 39 says what that is for a part of 0 bytes). -/
def Obligations.WellFormedDescriptor : Prop :=
  ∀ L : List Entry, malformation L = none ↔
    (L.map Entry.name).Nodup ∧ (∀ e ∈ L, 0 < e.unit ∧ e.unit % 2 = 0 ∧ 1 ≤ e.count) ∧
    (∀ (A B : List Entry) (e : Entry), L = A ++ e :: B → totalBytes A % (if e.unit % 4 = 0 then 4 else 2) = 0) ∧
    (∀ e ∈ L, ∀ p ∈ e.subs, p.off + p.bytes ≤ e.unit) ∧
    ∀ e ∈ L, e.subs.Pairwise fun p q => p.off + p.bytes ≤ q.off ∨ q.off + q.bytes ≤ p.off

/-- `VERIFY` in `UNVERIFIED` (R280, R303): with a well-formed descriptor and every anchor, the size and every stride right the phase
becomes `VERIFIED`; otherwise the build is halted with the first failure in the order well-formedness, anchors, size, strides. In
every other phase, `BOUND` among them, it is refused: it cannot be run again (R280). -/
def Obligations.VerifyVerdict : Prop :=
  (∀ s : State, s.phase ≠ .unverified → exec .verify s = .refused .wrongPhase) ∧
  ∀ s : State, s.phase = .unverified →
    let L := s.params.layout
    (malformation L = none → (∀ a ∈ s.params.anchors, checkOffset L a.1 a.2 = none) → checkSize L s.params.extent = none →
      (∀ a ∈ s.params.strides, checkStride L a.1 a.2 = none) →
      exec .verify s = .next { s with phase := .verified, result := .passed }) ∧
    (∀ f, malformation L = some f →
      exec .verify s = .next { s with phase := .buildHalted, failure := some f, result := .nothing }) ∧
    (∀ A a B f, malformation L = none → s.params.anchors = A ++ a :: B → (∀ x ∈ A, checkOffset L x.1 x.2 = none) →
      checkOffset L a.1 a.2 = some f →
      exec .verify s = .next { s with phase := .buildHalted, failure := some f, result := .nothing }) ∧
    (∀ f, malformation L = none → (∀ a ∈ s.params.anchors, checkOffset L a.1 a.2 = none) →
      checkSize L s.params.extent = some f →
      exec .verify s = .next { s with phase := .buildHalted, failure := some f, result := .nothing }) ∧
    ∀ A a B f, malformation L = none → (∀ x ∈ s.params.anchors, checkOffset L x.1 x.2 = none) →
      checkSize L s.params.extent = none → s.params.strides = A ++ a :: B → (∀ x ∈ A, checkStride L x.1 x.2 = none) →
      checkStride L a.1 a.2 = some f →
      exec .verify s = .next { s with phase := .buildHalted, failure := some f, result := .nothing }

/-- R281: the result of `VERIFY` depends on the descriptor, the anchors, the extent and the strides only, never on the base or a
register; `VERIFY` touches no register, no hidden device state and no base, and takes no transaction; after `VERIFIED` nothing
of the harness remains but the phase (and the model's own `result`, log entry 6). -/
def Obligations.VerifyIsPure : Prop :=
  ∀ s u : State, s.phase = .unverified → u.phase = .unverified →
    s.params.layout = u.params.layout → s.params.anchors = u.params.anchors → s.params.extent = u.params.extent →
    s.params.strides = u.params.strides →
    ∃ t v, exec .verify s = .next t ∧ exec .verify u = .next v ∧ t.phase = v.phase ∧
      (t.phase = .buildHalted → t.failure = v.failure) ∧
      (t.phase = .verified → t = { s with phase := .verified, result := t.result }) ∧
      t.base = s.base ∧ t.params = s.params ∧ t.queue = s.queue ∧ t.draws = s.draws ∧ SameAgent s t ∧ WordsKeptExcept [] s t

/-- `BIND` (R283): in `VERIFIED` a base that is a multiple of 4 with `base + 0x580 ≤ 2^32` is bound and nothing else changes; any
other base is refused; in any other phase, `BOUND` among them, `BIND` is refused. -/
def Obligations.BindVerdict : Prop :=
  ∀ (s : State) (base : Word),
    (s.phase = .verified → base.toNat % 4 = 0 → base.toNat + 0x580 ≤ 2 ^ 32 →
      exec (.bind base) s = .next { s with phase := .bound, base := some base, result := .nothing }) ∧
    (s.phase = .verified → ¬ (base.toNat % 4 = 0 ∧ base.toNat + 0x580 ≤ 2 ^ 32) → exec (.bind base) s = .refused .badBase) ∧
    (s.phase ≠ .verified → exec (.bind base) s = .refused .wrongPhase)

/-! ## The global registers -/

/-- A 32-bit read of a word without reserved or device-owned bits returns all 32 stored bits (R140, R172 to R175, R179, R181, R182,
R186, R211, R213). -/
def Obligations.PlainWordReads : Prop :=
  WordRead .clearOnEvent .clearOnEvent (fun _ => ~~~ 0) (fun _ => 0) ∧
  WordRead .haltOnEvent .haltOnEvent (fun _ => ~~~ 0) (fun _ => 0) ∧
  WordRead .stopOnEvent .stopOnEvent (fun _ => ~~~ 0) (fun _ => 0) ∧
  WordRead .startOnEvent .startOnEvent (fun _ => ~~~ 0) (fun _ => 0) ∧
  WordRead .registerMode .registerMode (fun _ => ~~~ 0) (fun _ => 0) ∧
  WordRead .outputDirectionControl .outputDirectionControl (fun _ => ~~~ 0) (fun _ => 0) ∧
  WordRead .conflictResolution .conflictResolution (fun _ => ~~~ 0) (fun _ => 0) ∧
  WordRead .interruptOnConflict .interruptOnConflict (fun _ => ~~~ 0) (fun _ => 0) ∧
  ∀ i : Slot, WordRead (.matchCapture i) (.matchCapture i) (fun _ => ~~~ 0) (fun _ => 0) ∧
    WordRead (.captureControl i) (.captureControl i) (fun _ => ~~~ 0) (fun _ => 0)

/-- A 32-bit write of a word without reserved or device-owned bits replaces all 32 bits and nothing else (R141, R172 to R175, R179,
R181, R182, R186, R213), of a match slot in match mode (R211). -/
def Obligations.PlainWordWrites : Prop :=
  WordWrite .clearOnEvent .clearOnEvent always (fun _ => ~~~ 0) ∧
  WordWrite .haltOnEvent .haltOnEvent always (fun _ => ~~~ 0) ∧
  WordWrite .stopOnEvent .stopOnEvent always (fun _ => ~~~ 0) ∧
  WordWrite .startOnEvent .startOnEvent always (fun _ => ~~~ 0) ∧
  WordWrite .registerMode .registerMode always (fun _ => ~~~ 0) ∧
  WordWrite .outputDirectionControl .outputDirectionControl always (fun _ => ~~~ 0) ∧
  WordWrite .conflictResolution .conflictResolution always (fun _ => ~~~ 0) ∧
  WordWrite .interruptOnConflict .interruptOnConflict always (fun _ => ~~~ 0) ∧
  ∀ i : Slot, WordWrite (.matchCapture i) (.matchCapture i) inMatchMode (fun _ => ~~~ 0) ∧
    WordWrite (.captureControl i) (.captureControl i) always (fun _ => ~~~ 0)

/-- A 32-bit read of a word with reserved bits returns the stored value on the named bits and a draw on the reserved ones (R130,
R140, R170, R177, R180, R183, R184, R215 to R218); the request bits 31:30 are a draw (R183); a read of `input` is a draw in every
bit (R178). -/
def Obligations.MaskedWordReads : Prop :=
  WordRead .config .config (fun s => fieldsMask 32 s.params.configLayout.fields)
    (fun s => ~~~ fieldsMask 32 s.params.configLayout.fields) ∧
  WordRead .state .state (fun _ => 0x001F001F) (fun _ => 0xFFE0FFE0) ∧
  WordRead .output .output (fun _ => 0x0000FFFF) (fun _ => 0xFFFF0000) ∧
  WordRead .dmaRequest0 .dmaRequest0 (fun _ => 0x0000FFFF) (fun _ => 0xFFFF0000) ∧
  WordRead .dmaRequest1 .dmaRequest1 (fun _ => 0x0000FFFF) (fun _ => 0xFFFF0000) ∧
  WordRead .interruptOnEvent .interruptOnEvent (fun _ => 0x0000FFFF) (fun _ => 0xFFFF0000) ∧
  (∀ s : State, Bound s → ∃ t, exec .input s = .next t ∧ t.result = .word (Config.freeWord s.draws) ∧
    t.draws = s.draws + 1 ∧ t.between = s.between ∧ Frame [] s t) ∧
  ∀ i : Slot,
    WordRead (.eventEnabledInState i) (.eventEnabledInState i) (fun s => BitVec.ofNat 32 (2 ^ s.params.numStates - 1))
      (fun s => ~~~ BitVec.ofNat 32 (2 ^ s.params.numStates - 1)) ∧
    WordRead (.eventControl i) (.eventControl i) (fun s => fieldsMask 32 s.params.evCtrlLayout.fields)
      (fun s => ~~~ fieldsMask 32 s.params.evCtrlLayout.fields) ∧
    WordRead (.outputOnEventSet i) (.outputOnEventSet i) (fun _ => 0x0000FFFF) (fun _ => 0xFFFF0000) ∧
    WordRead (.outputOnEventClear i) (.outputOnEventClear i) (fun _ => 0x0000FFFF) (fun _ => 0xFFFF0000)

/-- A 32-bit write of a word with reserved bits replaces the named bits, puts zero in the reserved ones and changes nothing else
(R130, R141, R184, R215 to R218). -/
def Obligations.MaskedWordWrites : Prop :=
  WordWrite .interruptOnEvent .interruptOnEvent always (fun _ => 0x0000FFFF) ∧
  ∀ i : Slot,
    WordWrite (.eventEnabledInState i) (.eventEnabledInState i) always (fun p => BitVec.ofNat 32 (2 ^ p.numStates - 1)) ∧
    WordWrite (.eventControl i) (.eventControl i) always (fun p => fieldsMask 32 p.evCtrlLayout.fields) ∧
    WordWrite (.outputOnEventSet i) (.outputOnEventSet i) always (fun _ => 0x0000FFFF) ∧
    WordWrite (.outputOnEventClear i) (.outputOnEventClear i) always (fun _ => 0x0000FFFF)

/-- A 16-bit read returns its half of the one stored word, through the half-view or the alias (R142, R172 to R175, R179, R211 to
R214); the reserved bits of a half of `state` are a draw (R177). -/
def Obligations.HalfReads : Prop :=
  HalfRead .clearOnEventLow .clearOnEvent .low (fun _ => ~~~ 0) (fun _ => 0) ∧
  HalfRead .clearOnEventHigh .clearOnEvent .high (fun _ => ~~~ 0) (fun _ => 0) ∧
  HalfRead .haltOnEventLow .haltOnEvent .low (fun _ => ~~~ 0) (fun _ => 0) ∧
  HalfRead .haltOnEventHigh .haltOnEvent .high (fun _ => ~~~ 0) (fun _ => 0) ∧
  HalfRead .stopOnEventLow .stopOnEvent .low (fun _ => ~~~ 0) (fun _ => 0) ∧
  HalfRead .stopOnEventHigh .stopOnEvent .high (fun _ => ~~~ 0) (fun _ => 0) ∧
  HalfRead .startOnEventLow .startOnEvent .low (fun _ => ~~~ 0) (fun _ => 0) ∧
  HalfRead .startOnEventHigh .startOnEvent .high (fun _ => ~~~ 0) (fun _ => 0) ∧
  HalfRead .registerModeLow .registerMode .low (fun _ => ~~~ 0) (fun _ => 0) ∧
  HalfRead .registerModeHigh .registerMode .high (fun _ => ~~~ 0) (fun _ => 0) ∧
  HalfRead .stateLow .state .low (fun _ => 0x001F) (fun _ => 0xFFE0) ∧
  HalfRead .stateHigh .state .high (fun _ => 0x001F) (fun _ => 0xFFE0) ∧
  ∀ i : Slot,
    HalfRead (.matchCaptureLow i) (.matchCapture i) .low (fun _ => ~~~ 0) (fun _ => 0) ∧
    HalfRead (.matchCaptureHigh i) (.matchCapture i) .high (fun _ => ~~~ 0) (fun _ => 0) ∧
    HalfRead (.matchAliasLow i) (.matchCapture i) .low (fun _ => ~~~ 0) (fun _ => 0) ∧
    HalfRead (.matchAliasHigh i) (.matchCapture i) .high (fun _ => ~~~ 0) (fun _ => 0) ∧
    HalfRead (.captureControlLow i) (.captureControl i) .low (fun _ => ~~~ 0) (fun _ => 0) ∧
    HalfRead (.captureControlHigh i) (.captureControl i) .high (fun _ => ~~~ 0) (fun _ => 0) ∧
    HalfRead (.captureControlAliasLow i) (.captureControl i) .low (fun _ => ~~~ 0) (fun _ => 0) ∧
    HalfRead (.captureControlAliasHigh i) (.captureControl i) .high (fun _ => ~~~ 0) (fun _ => 0)

/-- A 16-bit write replaces exactly its half, through the half-view or the alias, and leaves the other half and every other word
unchanged (R27, R143, R172 to R175, R179, R213, R214), of a match slot in match mode (R211, R212). -/
def Obligations.HalfWrites : Prop :=
  HalfWrite .clearOnEventLow .clearOnEvent .low always (fun _ => ~~~ 0) ∧
  HalfWrite .clearOnEventHigh .clearOnEvent .high always (fun _ => ~~~ 0) ∧
  HalfWrite .haltOnEventLow .haltOnEvent .low always (fun _ => ~~~ 0) ∧
  HalfWrite .haltOnEventHigh .haltOnEvent .high always (fun _ => ~~~ 0) ∧
  HalfWrite .stopOnEventLow .stopOnEvent .low always (fun _ => ~~~ 0) ∧
  HalfWrite .stopOnEventHigh .stopOnEvent .high always (fun _ => ~~~ 0) ∧
  HalfWrite .startOnEventLow .startOnEvent .low always (fun _ => ~~~ 0) ∧
  HalfWrite .startOnEventHigh .startOnEvent .high always (fun _ => ~~~ 0) ∧
  HalfWrite .registerModeLow .registerMode .low always (fun _ => ~~~ 0) ∧
  HalfWrite .registerModeHigh .registerMode .high always (fun _ => ~~~ 0) ∧
  ∀ i : Slot,
    HalfWrite (.matchCaptureLow i) (.matchCapture i) .low inMatchMode (fun _ => ~~~ 0) ∧
    HalfWrite (.matchCaptureHigh i) (.matchCapture i) .high inMatchMode (fun _ => ~~~ 0) ∧
    HalfWrite (.matchAliasLow i) (.matchCapture i) .low inMatchMode (fun _ => ~~~ 0) ∧
    HalfWrite (.matchAliasHigh i) (.matchCapture i) .high inMatchMode (fun _ => ~~~ 0) ∧
    HalfWrite (.captureControlLow i) (.captureControl i) .low always (fun _ => ~~~ 0) ∧
    HalfWrite (.captureControlHigh i) (.captureControl i) .high always (fun _ => ~~~ 0) ∧
    HalfWrite (.captureControlAliasLow i) (.captureControl i) .low always (fun _ => ~~~ 0) ∧
    HalfWrite (.captureControlAliasHigh i) (.captureControl i) .high always (fun _ => ~~~ 0)

/-- In capture mode a write of a match/capture slot, whole, by half or through an alias, is refused (R211). -/
def Obligations.CaptureModeRefusesWrites : Prop :=
  ∀ (s : State) (i : Slot) (v : Word) (x : HalfWord), Bound s → s.params.slotMode = .capturing →
    exec (.matchCapture i (.write v)) s = .refused .captureModeWrite ∧
    exec (.matchCaptureLow i (.write x)) s = .refused .captureModeWrite ∧
    exec (.matchCaptureHigh i (.write x)) s = .refused .captureModeWrite ∧
    exec (.matchAliasLow i (.write x)) s = .refused .captureModeWrite ∧
    exec (.matchAliasHigh i (.write x)) s = .refused .captureModeWrite

/-- A write of `config` (R170): its fields become the value, its reserved bits 0; no other word changes but `count`, where a half
that ran and no longer runs holds a draw, the value it stopped at (R176; log entry 12). -/
def Obligations.ConfigWrite : Prop :=
  ∀ (s : State) (v : Word), Bound s → ∃ t, exec (.config (.write v)) s = .next t ∧
    t.regs.get .config = v &&& fieldsMask 32 s.params.configLayout.fields ∧
    (∀ k, halfOf k (t.regs.get .count) =
      if s.runs k = true ∧ t.runs k = false then halfOf k (Config.freeWord s.draws) else halfOf k (s.regs.get .count)) ∧
    t.draws = s.draws + 1 ∧ t.result = .nothing ∧ t.between = s.between ∧ Frame [.config, .count] s t

/-- A read of `control` or of a half of it (R171, R116): `clear_counter` reads 0, `count_down` and the reserved bits are a draw, the
rest is as stored. -/
def Obligations.ControlReads : Prop :=
  let named (p : Params) : HalfWord := fieldsMask 16 p.ctrlLayout.fields &&& ~~~ fieldMask 16 p.ctrlLayout.countDown &&&
    ~~~ fieldMask 16 p.ctrlLayout.clearCounter
  let drawn (p : Params) : HalfWord := (~~~ fieldsMask 16 p.ctrlLayout.fields ||| fieldMask 16 p.ctrlLayout.countDown) &&&
    ~~~ fieldMask 16 p.ctrlLayout.clearCounter
  WordRead .control .control (fun s => joinHalves (named s.params) (named s.params))
    (fun s => joinHalves (drawn s.params) (drawn s.params)) ∧
  HalfRead .controlLow .control .low (fun s => named s.params) (fun s => drawn s.params) ∧
  HalfRead .controlHigh .control .high (fun s => named s.params) (fun s => drawn s.params)

/-- A write of both halves of `control` (R171): each ControlRegister becomes the value with `clear_counter` as 0 (its reserved bits
0, R130); a set `clear_counter` clears its counter half, or all 32 bits when unified and set in the low half; a half that ran and
no longer runs and is not cleared holds a draw (log entry 12); no other word changes. -/
def Obligations.ControlWordWrite : Prop :=
  ∀ (s : State) (v : Word), Bound s → s.params.legal = true → ∃ t, exec (.control (.write v)) s = .next t ∧
    (∀ k, halfOf k (t.regs.get .control) =
      halfOf k v &&& fieldsMask 16 s.params.ctrlLayout.fields &&& ~~~ fieldMask 16 s.params.ctrlLayout.clearCounter) ∧
    (∀ k, halfOf k (t.regs.get .count) =
      if fieldFlag s.params.ctrlLayout.clearCounter (halfOf (s.governor k) v) = true then 0
      else if s.runs k = true ∧ t.runs k = false then halfOf k (Config.freeWord s.draws) else halfOf k (s.regs.get .count)) ∧
    t.result = .nothing ∧ t.between = s.between ∧ Frame [.control, .count] s t

/-- A write of one half of `control` (R171, R143): the other ControlRegister is kept, and so is a counter half that the written
one does not govern; otherwise as the write of both. That the reserved bits of the written half become 0 is log entry 18 (a design
choice: R130 says it of a write of the whole word). -/
def Obligations.ControlHalfWrites : Prop :=
  ∀ (s : State) (j : Half) (v : HalfWord), Bound s → s.params.legal = true → ∃ t,
    exec (match j with
      | .low => .controlLow (.write v)
      | .high => .controlHigh (.write v)) s = .next t ∧
    halfOf j (t.regs.get .control) =
      v &&& fieldsMask 16 s.params.ctrlLayout.fields &&& ~~~ fieldMask 16 s.params.ctrlLayout.clearCounter ∧
    halfOf (otherHalf j) (t.regs.get .control) = halfOf (otherHalf j) (s.regs.get .control) ∧
    (∀ k, halfOf k (t.regs.get .count) =
      if s.governor k = j ∧ fieldFlag s.params.ctrlLayout.clearCounter v = true then 0
      else if s.governor k = j ∧ s.runs k = true ∧ t.runs k = false then halfOf k (Config.freeWord s.draws)
      else halfOf k (s.regs.get .count)) ∧
    t.result = .nothing ∧ t.between = s.between ∧ Frame [.control, .count] s t

/-- A read of `count` (R176): a draw in every half that runs, the stored value in the others. -/
def Obligations.CountReads : Prop :=
  let stands (s : State) (k : Half) : HalfWord := if s.runs k then 0 else ~~~ 0
  WordRead .count .count (fun s => joinHalves (stands s .low) (stands s .high))
    (fun s => ~~~ joinHalves (stands s .low) (stands s .high)) ∧
  HalfRead .countLow .count .low (fun s => stands s .low) (fun s => ~~~ stands s .low) ∧
  HalfRead .countHigh .count .high (fun s => stands s .high) (fun s => ~~~ stands s .high)

/-- A write of `count` (R176) or `state` (R177) loads the word or the half when every counter half it writes is halted, and is
refused when one is not; the reserved bits of `state` become 0 (R130; for a write of one half that is log entry 18, a design
choice). When unified, the low ControlRegister governs both halves (R32; log entry 13). -/
def Obligations.CountAndStateWrites : Prop :=
  WordWrite .count .count (fun s => s.halted .low = true ∧ s.halted .high = true) (fun _ => ~~~ 0) ∧
  HalfWrite .countLow .count .low (fun s => s.halted .low = true) (fun _ => ~~~ 0) ∧
  HalfWrite .countHigh .count .high (fun s => s.halted .high = true) (fun _ => ~~~ 0) ∧
  WordWrite .state .state (fun s => s.halted .low = true ∧ s.halted .high = true) (fun _ => 0x001F001F) ∧
  HalfWrite .stateLow .state .low (fun s => s.halted .low = true) (fun _ => 0x001F) ∧
  HalfWrite .stateHigh .state .high (fun s => s.halted .high = true) (fun _ => 0x001F) ∧
  ∀ (s : State) (v : Word) (x : HalfWord), Bound s →
    (s.halted .low = false → exec (.countLow (.write x)) s = .refused .counterRunning ∧
      exec (.stateLow (.write x)) s = .refused .counterRunning) ∧
    (s.halted .high = false → exec (.countHigh (.write x)) s = .refused .counterRunning ∧
      exec (.stateHigh (.write x)) s = .refused .counterRunning) ∧
    (s.halted .low = false ∨ s.halted .high = false → exec (.count (.write v)) s = .refused .counterRunning ∧
      exec (.state (.write v)) s = .refused .counterRunning)

/-- A write of `output` (R180) sets the sixteen levels while every counter half in use is halted and is refused otherwise (log
entry 35); its reserved bits become 0 (R130). -/
def Obligations.OutputWrite : Prop :=
  WordWrite .output .output (fun s => ∀ k ∈ s.halvesInUse, s.halted k = true) (fun _ => 0x0000FFFF) ∧
  ∀ (s : State) (v : Word) (k : Half), Bound s → k ∈ s.halvesInUse → s.halted k = false →
    exec (.output (.write v)) s = .refused .counterRunning

/-- A write of a DMA request word (R183) replaces bits 15:0, puts zero in bits 29:16 (R130) and keeps the device's bits 31:30 (log
entry 33). -/
def Obligations.DmaWordWrites : Prop :=
  ∀ (s : State) (v : Word), Bound s →
    (∃ t, exec (.dmaRequest0 (.write v)) s = .next t ∧
      t.regs.get .dmaRequest0 = (v &&& 0x0000FFFF) ||| (s.regs.get .dmaRequest0 &&& 0xC0000000) ∧
      t.result = .nothing ∧ t.draws = s.draws ∧ t.between = s.between ∧ Frame [.dmaRequest0] s t) ∧
    ∃ t, exec (.dmaRequest1 (.write v)) s = .next t ∧
      t.regs.get .dmaRequest1 = (v &&& 0x0000FFFF) ||| (s.regs.get .dmaRequest1 &&& 0xC0000000) ∧
      t.result = .nothing ∧ t.draws = s.draws ∧ t.between = s.between ∧ Frame [.dmaRequest1] s t

/-! ## The status flags and the interrupt request -/

/-- The status words (R185, R187, R312). A read returns the flags in bits 15:0; under `read_clears` it clears exactly the flags it
returned as 1, under `write_one_to_clear` it changes nothing. A write: under `write_one_to_clear` each 1 clears its flag and each 0
leaves it; under `read_clears` it is refused. -/
def Obligations.StatusWords : Prop :=
  ∀ (s : State) (mk : Access32 → Instr) (r : Reg), Bound s →
    (mk = .eventOccurred ∧ r = .eventOccurred ∨ mk = .conflictOccurred ∧ r = .conflictOccurred) →
    (∃ t x, exec (mk .read) s = .next t ∧ t.result = .word x ∧ x &&& 0x0000FFFF = s.regs.get r &&& 0x0000FFFF ∧
      x &&& 0xFFFF0000 = Config.freeWord s.draws &&& 0xFFFF0000 ∧
      t.regs.get r = (match s.params.flagClearRule with
        | .writeOneToClear => s.regs.get r
        | .readClears => s.regs.get r &&& 0xFFFF0000) ∧
      t.draws = s.draws + 1 ∧ t.between = s.between ∧ Frame [r] s t) ∧
    (s.params.flagClearRule = .writeOneToClear → ∀ v : Word, ∃ t, exec (mk (.write v)) s = .next t ∧
      t.regs.get r = s.regs.get r &&& ~~~ (v &&& 0x0000FFFF) ∧
      t.result = .nothing ∧ t.draws = s.draws ∧ t.between = s.between ∧ Frame [r] s t) ∧
    (s.params.flagClearRule = .readClears → ∀ v : Word, exec (mk (.write v)) s = .refused .flagWriteUnderReadClears)

/-- The interrupt request (R310): asserted exactly while some event has both its flag and its enable, or some pin's conflict has. -/
def Obligations.InterruptRequest : Prop :=
  ∀ s : State, s.irq = true ↔
    (∃ e : Slot, (s.regs.get .eventOccurred).getLsbD e.val = true ∧ (s.regs.get .interruptOnEvent).getLsbD e.val = true) ∨
    ∃ p : Slot, (s.regs.get .conflictOccurred).getLsbD p.val = true ∧
      (s.regs.get .interruptOnConflict).getLsbD p.val = true

/-- The flags of `event_occurred` and `conflict_occurred` are set by the SCT agent only (R51): no other operation, with no
evaluation scheduled inside it, sets one; and one that is neither an access of the status word nor a sub-field access of it leaves
all its flags alone. The third status bit R51 names, `count_down`, is left out: a write of `control` stores the one it carries
(log entry 21). -/
def Obligations.FlagsSetByAgentOnly : Prop :=
  ∀ (i : Instr) (s t : State), (∀ d, i ≠ .sctEval d) → s.between = [] → exec i s = .next t →
    (∀ e : Slot, (t.regs.get .eventOccurred).getLsbD e.val = true → (s.regs.get .eventOccurred).getLsbD e.val = true) ∧
    (∀ p : Slot, (t.regs.get .conflictOccurred).getLsbD p.val = true →
      (s.regs.get .conflictOccurred).getLsbD p.val = true) ∧
    ((∀ a, i ≠ .eventOccurred a) → (∀ o w, i ≠ .fieldRd .eventOccurred o w) → (∀ o w f, i ≠ .fieldWr .eventOccurred o w f) →
      t.regs.get .eventOccurred = s.regs.get .eventOccurred) ∧
    ((∀ a, i ≠ .conflictOccurred a) → (∀ o w, i ≠ .fieldRd .conflictOccurred o w) →
      (∀ o w f, i ≠ .fieldWr .conflictOccurred o w f) → t.regs.get .conflictOccurred = s.regs.get .conflictOccurred)

/-! ## Split registers and sub-fields -/

/-- The split-register law (R144): after a 32-bit write of `a` and a 16-bit write of `b` to a half, with no evaluation between, a
32-bit read returns `a` with that half replaced by `b`; the same through an alias. For `state` it holds on the bits that are not
reserved (R177), for `control` on those that read as stored (R116: not the reserved bits, `count_down` or `clear_counter`); for
`count` and `state` with both halves halted, for a match slot in match mode. -/
def Obligations.SplitRegisterLaw : Prop :=
  let halted (s : State) : Prop := s.halted .low = true ∧ s.halted .high = true
  SplitLaw always (fun p => inBothHalves (steadyControl p)) .control .controlLow .low ∧
  SplitLaw always (fun p => inBothHalves (steadyControl p)) .control .controlHigh .high ∧
  SplitLaw always allBits .clearOnEvent .clearOnEventLow .low ∧ SplitLaw always allBits .clearOnEvent .clearOnEventHigh .high ∧
  SplitLaw always allBits .haltOnEvent .haltOnEventLow .low ∧ SplitLaw always allBits .haltOnEvent .haltOnEventHigh .high ∧
  SplitLaw always allBits .stopOnEvent .stopOnEventLow .low ∧ SplitLaw always allBits .stopOnEvent .stopOnEventHigh .high ∧
  SplitLaw always allBits .startOnEvent .startOnEventLow .low ∧ SplitLaw always allBits .startOnEvent .startOnEventHigh .high ∧
  SplitLaw always allBits .registerMode .registerModeLow .low ∧ SplitLaw always allBits .registerMode .registerModeHigh .high ∧
  SplitLaw halted allBits .count .countLow .low ∧ SplitLaw halted allBits .count .countHigh .high ∧
  SplitLaw halted (fun _ => 0x001F001F) .state .stateLow .low ∧ SplitLaw halted (fun _ => 0x001F001F) .state .stateHigh .high ∧
  ∀ i : Slot,
    SplitLaw inMatchMode allBits (.matchCapture i) (.matchCaptureLow i) .low ∧
    SplitLaw inMatchMode allBits (.matchCapture i) (.matchCaptureHigh i) .high ∧
    SplitLaw inMatchMode allBits (.matchCapture i) (.matchAliasLow i) .low ∧
    SplitLaw inMatchMode allBits (.matchCapture i) (.matchAliasHigh i) .high ∧
    SplitLaw always allBits (.captureControl i) (.captureControlLow i) .low ∧
    SplitLaw always allBits (.captureControl i) (.captureControlHigh i) .high ∧
    SplitLaw always allBits (.captureControl i) (.captureControlAliasLow i) .low ∧
    SplitLaw always allBits (.captureControl i) (.captureControlAliasHigh i) .high

/-- Extraction (R111): the field is the value shifted down by the offset, `w` bits of it. Insertion (R112): the bits of the field
are the value's and every other bit is kept; the three laws; and an operation handed a value that does not fit its field is
refused. -/
def Obligations.InsertionLaws : Prop :=
  (∀ (n : Nat) (v f : BitVec n) (o w : Nat), 1 ≤ w → o + w ≤ n → f.toNat < 2 ^ w →
    (extract v o w).toNat = v.toNat / 2 ^ o % 2 ^ w ∧
    (∀ i, i < n → (insert v o w f).getLsbD i = if o ≤ i ∧ i < o + w then f.getLsbD (i - o) else v.getLsbD i) ∧
    extract (insert v o w f) o w = f ∧ insert v o w (extract v o w) = v ∧
    ∀ o₂ w₂, o₂ + w₂ ≤ n → (o + w ≤ o₂ ∨ o₂ + w₂ ≤ o) → extract (insert v o w f) o₂ w₂ = extract v o₂ w₂) ∧
  (∀ (s : State) (reg : View) (o w : Nat) (f : Word), Bound s → 1 ≤ w → o + w ≤ reg.bits → 2 ^ w ≤ f.toNat →
    exec (.fieldWr reg o w f) s = .refused .fieldValueTooWide) ∧
  ∀ (s : State) (i : Slot) (fields : EventFields) (gate : Word), Bound s →
    (∃ p ∈ eventFieldList s.params.evCtrlLayout fields, 2 ^ p.1.width ≤ p.2.toNat) →
    exec (.configureEvent i.val fields gate) s = .refused .fieldValueTooWide

/-- `FIELD_RD` (R145): it completes on a bound instance for every view and every pair in it, it does what the one read of the
view's declared width does, and it returns the field of the value that read returns; a pair outside the view is refused. -/
def Obligations.FieldRead : Prop :=
  ∀ (s : State) (reg : View) (o w : Nat), Bound s →
    (1 ≤ w → o + w ≤ reg.bits → ∃ t u, exec (transactionOf reg false 0) s = .next u ∧ exec (.fieldRd reg o w) s = .next t ∧
      t = { u with result := t.result } ∧
      t.result = .field (match u.result with
        | .word x => extract x o w
        | .half x => (extract x o w).setWidth 32
        | _ => 0)) ∧
    (¬ (1 ≤ w ∧ o + w ≤ reg.bits) → exec (.fieldRd reg o w) s = .refused .fieldOutsideView)

/-- `FIELD_WR` (R146): on every view of a software-owned word, a match slot in match mode among them, for every pair and fitting
value, it completes on a bound instance: the part the view addresses becomes the value the read of the view returned with the
field inserted, whatever evaluations run between the two transactions (R81; log entry 19), and the rest of the word is kept. Every
other word is as the evaluations leave it, but `count` under a write of `config` (R176; log entry 12); with none between, it is
unchanged. -/
def Obligations.FieldWrite : Prop :=
  ∀ (s : State) (reg : View) (o w : Nat) (f : Word), Bound s → softwareOwned s.params (storage reg).1 = true → 1 ≤ w →
    o + w ≤ reg.bits → f.toNat < 2 ^ w →
    let r := (storage reg).1
    ∃ t u, exec (transactionOf reg false 0) s = .next u ∧ exec (.fieldWr reg o w f) s = .next t ∧
      (match (storage reg).2, u.result with
        | .whole, .word x => t.regs.get r = insert x o w f
        | .half k, .half x => halfOf k (t.regs.get r) = insert x o w (f.setWidth 16) ∧
          halfOf (otherHalf k) (t.regs.get r) = halfOf (otherHalf k) (s.regs.get r)
        | _, _ => False) ∧
      (∀ q, q ≠ r → (reg = .config → q ≠ .count) → t.regs.get q = (runBetween u).regs.get q) ∧
      SameAgent (runBetween u) t ∧ t.result = .nothing ∧ t.between = [] ∧ SameLaunch s t ∧
      (s.between = [] → Frame (if reg = .config then [.config, .count] else [r]) s t)

/-- What `FIELD_WR` (R146) does on the other words. It writes the part of the view it read with the field inserted, whatever runs
between (R81; log entry 19), and the write has the effect of a write of that width on the word as it then stands: a request word
keeps bits 31:30 (R183; log entry 33); `count`, `state` and `output` need the halves concerned halted there and are refused
otherwise (R176, R177, R180); `control` stores `clear_counter` as 0 and a set one clears its counter (R171), a half that it stops
holding a draw (log entry 12). That the operation runs on a status word is log entry 20 (deduced: R146 b and R185 warn against
it): under `write_one_to_clear` every flag it read as 1 outside the field is cleared (R346); under `read_clears` the write is
refused. In capture mode a slot refuses it (R211), and `input` does always (R178). -/
def Obligations.FieldWriteCompletes : Prop :=
  ∀ (s u : State) (reg : View) (o w : Nat) (f : Word), Bound s → 1 ≤ w → o + w ≤ reg.bits → f.toNat < 2 ^ w →
    exec (transactionOf reg false 0) s = .next u →
    let r := (storage reg).1
    let m := runBetween u
    let old := m.regs.get r
    let written (k : Half) : Prop := match (storage reg).2 with
      | .whole => True
      | .half j => k = j
    let new : Word := match (storage reg).2, u.result with
      | .whole, .word x => insert x o w f
      | .half k, .half x => withHalf k old (insert x o w (f.setWidth 16))
      | _, _ => 0
    let answer := exec (.fieldWr reg o w f) s
    let after (t : State) (others : List Reg) : Prop := answer = .next t ∧ t.result = .nothing ∧ t.between = [] ∧ SameLaunch s t ∧
      SameAgent m t ∧ ∀ q, q ≠ r → q ∉ others → t.regs.get q = m.regs.get q
    (r = .dmaRequest0 ∨ r = .dmaRequest1 →
      ∃ t, after t [] ∧ t.regs.get r = (new &&& 0x3FFFFFFF) ||| (old &&& 0xC0000000)) ∧
    (r = .count ∨ r = .state →
      ((∀ k, written k → m.halted k = true) → ∃ t, after t [] ∧ t.regs.get r = new) ∧
      ((∃ k, written k ∧ m.halted k = false) → answer = .refused .counterRunning)) ∧
    (r = .output →
      ((∀ k ∈ m.halvesInUse, m.halted k = true) → ∃ t, after t [] ∧ t.regs.get r = new) ∧
      ((∃ k ∈ m.halvesInUse, m.halted k = false) → answer = .refused .counterRunning)) ∧
    (r = .control → ∃ t, after t [.count] ∧
      (∀ k, (written k → halfOf k (t.regs.get r) = halfOf k new &&& ~~~ fieldMask 16 s.params.ctrlLayout.clearCounter) ∧
        (¬ written k → halfOf k (t.regs.get r) = halfOf k old)) ∧
      ∀ k, let asked : Prop := written (m.governor k) ∧
          fieldFlag s.params.ctrlLayout.clearCounter (halfOf (m.governor k) new) = true
        (asked → halfOf k (t.regs.get .count) = 0) ∧
        (¬ asked → (m.runs k = true ∧ t.runs k = false → halfOf k (t.regs.get .count) = halfOf k (Config.freeWord m.draws)) ∧
          (¬ (m.runs k = true ∧ t.runs k = false) → halfOf k (t.regs.get .count) = halfOf k (m.regs.get .count)))) ∧
    (r = .eventOccurred ∨ r = .conflictOccurred →
      (s.params.flagClearRule = .writeOneToClear → ∃ t, after t [] ∧ t.regs.get r = old &&& ~~~ (new &&& 0x0000FFFF) ∧
        ∀ b, b < 16 → b < o ∨ o + w ≤ b → (s.regs.get r).getLsbD b = true → (t.regs.get r).getLsbD b = false) ∧
      (s.params.flagClearRule = .readClears → answer = .refused .flagWriteUnderReadClears)) ∧
    (∀ i, r = .matchCapture i → s.params.slotMode = .capturing → answer = .refused .captureModeWrite) ∧
    (r = .input → answer = .refused .readOnly)

/-- The sibling-preservation law (R147) on the views of software-owned words, a match slot in match mode among them, for pairs
that hold no reserved bit (those read as draws, R130): after `FIELD_WR` of one pair, `FIELD_RD` of it returns the value, and
`FIELD_RD` of a disjoint pair returns what it returned before. -/
def Obligations.SiblingPreservation : Prop :=
  ∀ (s : State) (reg : View) (o₁ w₁ o₂ w₂ : Nat) (f : Word), Bound s → s.between = [] →
    softwareOwned s.params (storage reg).1 = true → 1 ≤ w₁ → o₁ + w₁ ≤ reg.bits → 1 ≤ w₂ → o₂ + w₂ ≤ reg.bits → f.toNat < 2 ^ w₁ →
    (o₁ + w₁ ≤ o₂ ∨ o₂ + w₂ ≤ o₁) →
    (∀ b, (o₁ ≤ b ∧ b < o₁ + w₁) ∨ (o₂ ≤ b ∧ b < o₂ + w₂) →
      (reservedBits s.params (storage reg).1).getLsbD
        (match (storage reg).2 with
          | .whole => b
          | .half k => halfOff k + b) = false) →
    ∃ t r₁ r₂ before, exec (.fieldWr reg o₁ w₁ f) s = .next t ∧ exec (.fieldRd reg o₁ w₁) t = .next r₁ ∧
      exec (.fieldRd reg o₂ w₂) t = .next r₂ ∧ exec (.fieldRd reg o₂ w₂) s = .next before ∧
      r₁.result = .field f ∧ r₂.result = before.result

/-- The source's sentinel property (R116, R147): writing `count_prescaler` of a ControlRegister by `FIELD_WR` leaves its
`pause_counter` and `halt_sct`, and the whole other ControlRegister, unchanged, and reads back as written, at every legal layout. -/
def Obligations.PrescalerKeepsSentinel : Prop :=
  ∀ (s : State) (k : Half) (f : Word), Bound s → s.between = [] → s.params.legal = true → f.toNat < 2 ^ 8 →
    let c := s.params.ctrlLayout
    let reg : View := match k with
      | .low => .controlLow
      | .high => .controlHigh
    ∃ t r, exec (.fieldWr reg c.countPrescaler.off 8 f) s = .next t ∧ exec (.fieldRd reg c.countPrescaler.off 8) t = .next r ∧
      r.result = .field f ∧
      fieldFlag c.pauseCounter (t.controlOf k) = fieldFlag c.pauseCounter (s.controlOf k) ∧
      fieldFlag c.haltSct (t.controlOf k) = fieldFlag c.haltSct (s.controlOf k) ∧
      t.controlOf (otherHalf k) = s.controlOf (otherHalf k)

/-- The evaluations scheduled between two transactions of one operation (R81, R86; log entry 19) are `SCT_EVAL`s, performed one
after the other in their order on the state the first transaction leaves; they return nothing to the issuer and are used up; with
none scheduled the second transaction meets that very state. The read-modify-write hazard (R343): whatever evaluations run between
the two transactions of a `FIELD_WR` on a ControlRegister, its halt and pause bits outside the written field come back as they
were before; the other ControlRegister is as the evaluations leave it. -/
def Obligations.FieldWriteUndoesAgent : Prop :=
  (∀ s : State, s.between = [] → runBetween s = s) ∧
  (∀ (s : State) (d : EvalDraws) (ds : List EvalDraws), s.phase = .bound → s.between = d :: ds →
    ∃ t, exec (.sctEval d) s = .next t ∧ runBetween s = { runBetween { t with between := ds } with result := s.result }) ∧
  ∀ (s : State) (k : Half) (o w : Nat) (f : Word), Bound s → s.params.legal = true → 1 ≤ w → o + w ≤ 16 →
    f.toNat < 2 ^ w →
    let c := s.params.ctrlLayout
    let outside (b : Nat) : Prop := b < o ∨ o + w ≤ b
    let u := runBetween (readEffect .control s)
    ∃ t, exec (.fieldWr (match k with
        | .low => .controlLow
        | .high => .controlHigh) o w f) s = .next t ∧
      (outside c.haltSct.off → fieldFlag c.haltSct (t.controlOf k) = fieldFlag c.haltSct (s.controlOf k)) ∧
      (outside c.pauseCounter.off → fieldFlag c.pauseCounter (t.controlOf k) = fieldFlag c.pauseCounter (s.controlOf k)) ∧
      t.controlOf (otherHalf k) = u.controlOf (otherHalf k) ∧
      ∀ r, r ≠ .control → r ≠ .count → t.regs.get r = u.regs.get r

/-! ## The slot arrays -/

/-- `SLOT_ADDR` (R210, R71): on a bound instance it returns `BASE + A + S * i + W` and changes nothing else; the address of slot
`i + 1` is one stride past that of slot `i`; an index past 15 and a selector the array does not declare are refused. With no handle
it is refused (R284; log entry 26). -/
def Obligations.SlotAddress : Prop :=
  let row (arr : SlotArray) : Nat × Nat := match arr with
    | .matchCapture => (0x100, 4)
    | .matchAliasLow => (0x180, 2)
    | .matchAliasHigh => (0x1C0, 2)
    | .captureControl => (0x200, 4)
    | .captureControlAliasLow => (0x280, 2)
    | .captureControlAliasHigh => (0x2C0, 2)
    | .event => (0x300, 8)
    | .outputOnEvent => (0x500, 8)
  let wordOff (sel : SlotSelect) : Nat := match sel with
    | .highHalf => 2
    | .control => 4
    | .clear => 4
    | _ => 0
  (∀ (s : State) (arr : SlotArray) (i : Nat) (sel : SlotSelect), ¬ Bound s → exec (.slotAddr arr i sel) s = .refused .notBound) ∧
  ∀ (s : State) (base : Word) (arr : SlotArray) (sel : SlotSelect), Bound s → s.base = some base → baseOk base = true →
    (slotDeclares arr sel = true →
      (∀ i, i < 16 → ∃ a, exec (.slotAddr arr i sel) s = .next { s with result := .address a } ∧
        a.toNat = base.toNat + (row arr).1 + (row arr).2 * i + wordOff sel) ∧
      ∀ i, i < 15 → ∃ a b, exec (.slotAddr arr i sel) s = .next { s with result := .address a } ∧
        exec (.slotAddr arr (i + 1) sel) s = .next { s with result := .address b } ∧ b.toNat - a.toNat = (row arr).2) ∧
    (∀ i, 16 ≤ i → exec (.slotAddr arr i sel) s = .refused .slotIndexOutOfRange) ∧
    (slotDeclares arr sel = false → ∀ i, i < 16 → exec (.slotAddr arr i sel) s = .refused .undeclaredSelector)

/-- The address `SLOT_ADDR` returns is the address the slot answers at (R71, R104, R210): its offset from the base, at the width of
the selector, decodes to a read of exactly that slot. -/
def Obligations.SlotAddressDecodes : Prop :=
  ∀ (s : State) (base : Word) (arr : SlotArray) (sel : SlotSelect) (i : Slot), Bound s → s.base = some base → baseOk base = true →
    slotDeclares arr sel = true → ∃ a, exec (.slotAddr arr i.val sel) s = .next { s with result := .address a } ∧
      decode (transactionWord false (decide ((slotView i arr sel).bits = 16)) (a.toNat - base.toNat) 0) =
        .ok (transactionOf (slotView i arr sel) false 0)

/-- `CONFIGURE_EVENT` (R219): for a slot 0 to 15 and fitting values it completes on a bound instance as two transactions, the gate
first: a write of the gate word, then a write of a control word that holds every given sub-field, every other bit 0. An evaluation
between them meets the new gate with the old control word (R86; log entry 19). With none between, nothing else changes; a slot
past 15 is refused. -/
def Obligations.ConfigureEvent : Prop :=
  (∀ (s : State) (i : Slot) (fields : EventFields) (gate : Word), Bound s → s.params.legal = true →
    (∀ p ∈ eventFieldList s.params.evCtrlLayout fields, p.2.toNat < 2 ^ p.1.width) →
    ∃ g t word, exec (.eventEnabledInState i (.write gate)) s = .next g ∧
      exec (.configureEvent i.val fields gate) s = .next t ∧ exec (.eventControl i (.write word)) (runBetween g) = .next t ∧
      g.regs.get (.eventEnabledInState i) = gate &&& BitVec.ofNat 32 (2 ^ s.params.numStates - 1) ∧
      g.regs.get (.eventControl i) = s.regs.get (.eventControl i) ∧ g.between = s.between ∧
      t.regs.get (.eventEnabledInState i) = gate &&& BitVec.ofNat 32 (2 ^ s.params.numStates - 1) ∧
      (∀ p ∈ eventFieldList s.params.evCtrlLayout fields, fieldValue p.1 (t.regs.get (.eventControl i)) = p.2.toNat) ∧
      t.regs.get (.eventControl i) &&& ~~~ fieldsMask 32 s.params.evCtrlLayout.fields = 0 ∧
      t.result = .nothing ∧ t.between = [] ∧ SameLaunch s t ∧
      (s.between = [] → t.draws = s.draws ∧ Frame [.eventEnabledInState i, .eventControl i] s t)) ∧
  ∀ (s : State) (n : Nat) (fields : EventFields) (gate : Word), Bound s → 16 ≤ n →
    exec (.configureEvent n fields gate) s = .refused .slotIndexOutOfRange

/-! ## The configured machine -/

/-- `SCT_EVAL` completes in phase `BOUND` for all draws (R240), reserved values in force or not (R131). It changes no word outside
the device's, and of the device's words no bit outside the model's list of device-owned bits (log entry 15, deduced). That list
follows R250 and R343 where R25's table differs: `halt_sct` and `pause_counter`, which R25 counts as software-owned, may change,
bits 31:30 of the conflict and request words, device-owned by R40 and R44, are kept, and so is `clear_counter`, device-owned by
R25, which reads as 0 (R116). With a reserved value in force every bit of the list is a draw and the operands do not matter (R131;
log entries 14 and 15). -/
def Obligations.EvaluationFrame : Prop :=
  ∀ (s : State) (d : EvalDraws), s.phase = .bound → s.params.legal = true → ∃ t, exec (.sctEval d) s = .next t ∧
    t.result = .nothing ∧ t.between = s.between ∧ SameLaunch s t ∧ WordsKeptExcept (agentWords s.params) s t ∧
    t.regs.get .control &&& ~~~ agentControlBits s.params = s.regs.get .control &&& ~~~ agentControlBits s.params ∧
    t.regs.get .state &&& 0xFFE0FFE0 = s.regs.get .state &&& 0xFFE0FFE0 ∧
    (∀ r ∈ [Reg.output, .eventOccurred, .conflictOccurred], t.regs.get r &&& 0xFFFF0000 = s.regs.get r &&& 0xFFFF0000) ∧
    (¬ NoReservedValue s → (∀ d₂, exec (.sctEval d₂) s = .next t) ∧ Drawn s t (t.regs.get .count) ∧
      (∀ p ∈ [(Reg.control, agentControlBits s.params), (.state, 0x001F001F), (.output, 0x0000FFFF), (.eventOccurred, 0x0000FFFF),
          (.conflictOccurred, 0x0000FFFF)], ∃ x, Drawn s t x ∧ t.regs.get p.1 &&& p.2 = x &&& p.2) ∧
      (s.params.slotMode = .capturing → ∀ i, Drawn s t (t.regs.get (.matchCapture i))) ∧
      ∃ x, Drawn s t x ∧ t.firing = x.setWidth 16)

/-- Which events fire (R241 to R246), with no reserved value in force (R131; log entry 14): event `e` fires exactly when the gate
bit of its half's state is set, its half is not halted, and its predicate holds: the match condition and the I/O condition on the
chosen line, combined by `condition`. In match mode the match condition is the equality of the counter or its half with the match
slot; in capture mode it is a draw (R242), and only it. -/
def Obligations.EventFiring : Prop :=
  ∀ (s t : State) (d : EvalDraws) (e : Slot), exec (.sctEval d) s = .next t → s.params.legal = true → NoReservedValue s →
    let l := s.params.evCtrlLayout
    let c := s.regs.get (.eventControl e)
    let value (f : SubField) : Nat := (extract c f.off f.width).toNat
    let k : Half := if s.unify = false ∧ value l.counterHalf = 1 then .high else .low
    let current : Nat := (extract (halfOf k (s.regs.get .state)) 0 5).toNat
    let equal : Prop := ∃ m : Slot, m.val = value l.matchRegister ∧
      if s.unify = true then d.cnt = s.regs.get (.matchCapture m)
      else halfOf k d.cnt = halfOf k (s.regs.get (.matchCapture m))
    let onPin : Bool := decide (value l.ioIsOutput = 1)
    let level : Bool := if onPin then d.out.getLsbD (value l.ioPin) else d.inp.getLsbD (value l.ioPin)
    let old : Bool := if onPin then d.outPrev.getLsbD (value l.ioPin) else d.prev.getLsbD (value l.ioPin)
    let io : Prop := match value l.ioCondition with
      | 0 => level = false
      | 1 => old = false ∧ level = true
      | 2 => old = true ∧ level = false
      | _ => level = true
    let predicate (isMatch : Prop) : Prop := match value l.condition with
      | 0 => isMatch ∨ io
      | 1 => isMatch
      | 2 => io
      | _ => isMatch ∧ io
    ∃ isMatch : Prop, (s.params.slotMode = .matching → (isMatch ↔ equal)) ∧
      (s.params.slotMode = .capturing → ∃ x, Drawn s t x ∧ (isMatch ↔ x.getLsbD e.val = true)) ∧
      (t.fired e ↔
        (s.regs.get (.eventEnabledInState e)).getLsbD current = true ∧ s.halted k = false ∧ predicate isMatch)

/-- What a firing leaves beside the state (R248, R249, R251, R311): an evaluation sets the flag of every event that fires and keeps
every other flag; an event that fires with its enable set requests the interrupt; DMA request `k` is raised exactly when some event
that fires has its bit in request word `k`. No reserved value is in force (R131; log entry 14). That a request is raised by this
evaluation alone is log entry 22 (a design choice: the requests of the last evaluation). -/
def Obligations.EventFlagsAndRequests : Prop :=
  ∀ (s t : State) (d : EvalDraws), exec (.sctEval d) s = .next t → NoReservedValue s →
    (∀ e : Slot, ((t.regs.get .eventOccurred).getLsbD e.val = true ↔
        t.fired e ∨ (s.regs.get .eventOccurred).getLsbD e.val = true) ∧
      (t.fired e → (s.regs.get .interruptOnEvent).getLsbD e.val = true → t.irq = true)) ∧
    (t.dmaRaised.getLsbD 0 = true ↔ t.tableHit (s.regs.get .dmaRequest0) 0) ∧
    (t.dmaRaised.getLsbD 1 = true ↔ t.tableHit (s.regs.get .dmaRequest1) 0)

/-- The state action (R247) on a half in use: one loader loads its `next_state`; with no loader and every `next_state` of the half's
firing events 0 the state is unchanged, otherwise as `NOLOAD_RULE` says; of several loaders one is chosen as `MULTI_LOAD_RULE`
says. The chosen event of `add` is some firing event of the half (log entry 17). A half not in use keeps its state id (R133). No
reserved value is in force (R131; log entry 14). -/
def Obligations.StateAction : Prop :=
  ∀ (s t : State) (d : EvalDraws) (k : Half), exec (.sctEval d) s = .next t → NoReservedValue s →
    let inHalf (e : Slot) : Prop := t.fired e ∧ s.eventHalf e = k
    let loads (e : Slot) : Prop := inHalf e ∧ s.eventFlag EvCtrlLayout.loadState e = true
    (k ∉ s.halvesInUse → t.stateId k = s.stateId k) ∧
    (k ∈ s.halvesInUse → (∀ e, loads e → (∀ x, loads x → x = e) → t.stateId k = s.nextStateId e) ∧
    ((∀ e, ¬ loads e) →
      ((∀ e, inHalf e → s.nextStateId e = 0) → t.stateId k = s.stateId k) ∧
      (s.params.noLoadRule = .keep → t.stateId k = s.stateId k) ∧
      (s.params.noLoadRule = .add → (∃ e, inHalf e ∧ s.nextStateId e ≠ 0) →
        ∃ e, inHalf e ∧ t.stateId k = s.stateId k + s.nextStateId e)) ∧
    ((∃ e, loads e) → ∃ e, loads e ∧ t.stateId k = s.nextStateId e) ∧
    (s.params.multiLoadRule = .highestNumbered → ∀ e, loads e → (∀ x, loads x → x ≤ e) → t.stateId k = s.nextStateId e))

/-- Counter control (R250, R175) on a half in use: a halt action sets `halt_sct`, a stop sets and a start clears `pause_counter`,
where no action opposes it (where one does the bit is a draw: log entry 16); with no action the bit is kept. A half not in use keeps
its control register (R133). No reserved value is in force (R131; log entry 14). -/
def Obligations.CounterControl : Prop :=
  ∀ (s t : State) (d : EvalDraws) (k : Half), exec (.sctEval d) s = .next t → s.params.legal = true →
    NoReservedValue s →
    let c := s.params.ctrlLayout
    let halt := t.tableHit (s.regs.get .haltOnEvent) (halfOff k)
    let stop := t.tableHit (s.regs.get .stopOnEvent) (halfOff k)
    let start := t.tableHit (s.regs.get .startOnEvent) (halfOff k)
    (k ∈ s.halvesInUse →
      (halt → ¬ start → fieldFlag c.haltSct (t.controlOf k) = true) ∧
      (¬ halt → fieldFlag c.haltSct (t.controlOf k) = fieldFlag c.haltSct (s.controlOf k)) ∧
      (stop → ¬ start → fieldFlag c.pauseCounter (t.controlOf k) = true) ∧
      (start → ¬ stop → ¬ halt → fieldFlag c.pauseCounter (t.controlOf k) = false) ∧
      (¬ start → ¬ stop → fieldFlag c.pauseCounter (t.controlOf k) = fieldFlag c.pauseCounter (s.controlOf k))) ∧
    (k ∉ s.halvesInUse → t.controlOf k = s.controlOf k)

/-- Clear actions (R250, R256): split, a clear zeroes its half unless the half's `prevent_reload` suppresses it; unified, a clear
zeroes all 32 bits when `prevent_reload_low` is 0, whatever `prevent_reload_high` is (log entry 23, deduced). A half that is not
cleared is at the counter value of the evaluation if it runs (log entry 10) and keeps its value if it does not (R176). No reserved
value is in force (R131; log entry 14). -/
def Obligations.ClearActions : Prop :=
  ∀ (s t : State) (d : EvalDraws), exec (.sctEval d) s = .next t → NoReservedValue s →
    let l := s.params.configLayout
    let cfg := s.regs.get .config
    let clear (k : Half) := t.tableHit (s.regs.get .clearOnEvent) (halfOff k)
    let suppressed (k : Half) : Prop := match k with
      | .low => fieldFlag l.preventReloadLow cfg = true
      | .high => fieldFlag l.preventReloadHigh cfg = true
    let kept (k : Half) : HalfWord := if s.runs k = true then halfOf k d.cnt else halfOf k (s.regs.get .count)
    (s.unify = false → ∀ k,
      (clear k → ¬ suppressed k → halfOf k (t.regs.get .count) = 0) ∧
      (¬ clear k ∨ suppressed k → halfOf k (t.regs.get .count) = kept k)) ∧
    (s.unify = true →
      (clear .low → ¬ suppressed .low → t.regs.get .count = 0) ∧
      (¬ clear .low → ∀ k, halfOf k (t.regs.get .count) = kept k))

/-- Output actions (R252): a pin with a set request alone goes high, with a clear request alone low, with neither it is unchanged.
No reserved value is in force, a premise R252 does not have (R131; log entry 14). -/
def Obligations.OutputActions : Prop :=
  ∀ (s t : State) (d : EvalDraws) (p : Slot), exec (.sctEval d) s = .next t → NoReservedValue s →
    let S := t.tableHit (s.regs.get (.outputOnEventSet p)) 0
    let C := t.tableHit (s.regs.get (.outputOnEventClear p)) 0
    let level := (t.regs.get .output).getLsbD p.val
    (S → ¬ C → level = true) ∧ (C → ¬ S → level = false) ∧
      (¬ S → ¬ C → level = (s.regs.get .output).getLsbD p.val)

/-- Conflicts (R254): the conflict flag of a pin is set exactly when both requests are made for it, and kept otherwise; on a
conflict `CONFLICT_RULE` says the level. No reserved value is in force (R131; log entry 14). -/
def Obligations.OutputConflicts : Prop :=
  ∀ (s t : State) (d : EvalDraws) (p : Slot), exec (.sctEval d) s = .next t → NoReservedValue s →
    let S := t.tableHit (s.regs.get (.outputOnEventSet p)) 0
    let C := t.tableHit (s.regs.get (.outputOnEventClear p)) 0
    let level := (t.regs.get .output).getLsbD p.val
    let before := (s.regs.get .output).getLsbD p.val
    ((t.regs.get .conflictOccurred).getLsbD p.val = true ↔
      (S ∧ C) ∨ (s.regs.get .conflictOccurred).getLsbD p.val = true) ∧
    (S → C → match s.params.conflictRule with
      | .draw => True
      | .noChange => level = before
      | .set => level = true
      | .clear => level = false
      | .toggle => level = !before)

/-- Captures (R253): in capture mode half `h` of a slot (the whole slot when unified) receives the counter of this evaluation,
before any clear (the spec's own choice, D18; log entry 31), when an event that fires has its bit in the slot's capture control;
it is kept otherwise. In match mode every slot is kept. No reserved value is in force (R131; log entry 14). -/
def Obligations.Captures : Prop :=
  ∀ (s t : State) (d : EvalDraws) (i : Slot) (k : Half), exec (.sctEval d) s = .next t →
    NoReservedValue s →
    let takes : Prop := t.tableHit (s.regs.get (.captureControl i)) (if s.unify = true then 0 else halfOff k)
    (s.params.slotMode = .capturing →
      (takes → halfOf k (t.regs.get (.matchCapture i)) = halfOf k d.cnt) ∧
      (¬ takes → halfOf k (t.regs.get (.matchCapture i)) = halfOf k (s.regs.get (.matchCapture i)))) ∧
    (s.params.slotMode = .matching → t.regs.get (.matchCapture i) = s.regs.get (.matchCapture i))

/-- With every counter half in use halted and no reserved value in force (R131; log entry 14), no event fires and an evaluation
changes no register (R116, R241, R341). -/
def Obligations.HaltedMachineIsQuiet : Prop :=
  ∀ (s : State) (d : EvalDraws), s.phase = .bound → (∀ k ∈ s.halvesInUse, s.halted k = true) → NoReservedValue s →
    ∃ t, exec (.sctEval d) s = .next t ∧ t.firing = 0 ∧ t.dmaRaised = 0 ∧ SameLaunch s t ∧ WordsKeptExcept [] s t ∧
      t.result = .nothing ∧ t.between = s.between
end

