-- ==== Sys2Proof/Laws/Decode.lean ====
section
/-! SUPPORT. The opcode map read both ways (spec/30_encoding.md R103, R104): the code of a view selects the view, and the view a code
selects has that code. -/

namespace Sys2Proof

/-- The index a code carries, put back at its place, is the code's index bits (R104). -/
theorem index_bits (r : OpcodeRow) (c : BitVec 13) :
    BitVec.ofNat 13 (r.index c).val <<< r.shift = c &&& ((15#13) <<< r.shift) := by
  apply BitVec.eq_of_getLsbD_eq
  intro j hj
  have h15 : ∀ k : Nat, (15#13).getLsbD k = decide (k < 4) := by
    intro k
    by_cases hk : k < 13
    · revert k; decide
    · rw [BitVec.getLsbD_of_ge _ _ (by omega)]; simp; omega
  have hi : (r.index c).val = (c >>> r.shift).toNat % 2 ^ 4 := rfl
  simp only [BitVec.getLsbD_shiftLeft, BitVec.getLsbD_and, hj, decide_true, Bool.true_and, h15, hi, BitVec.getLsbD_ofNat,
    Nat.testBit_mod_two_pow, BitVec.testBit_toNat, BitVec.getLsbD_ushiftRight]
  by_cases hs : j < r.shift
  · simp [hs]
  · have e : r.shift + (j - r.shift) = j := by omega
    have e2 : j - r.shift < 13 := by omega
    rw [e]; simp [hs, e2, Bool.and_comm]

/-- Every row of the map has one code, or the codes of its sixteen slots (R103). -/
theorem opcodeRows_shape : ∀ r ∈ opcodeRows,
    (r.mask = ~~~ 0 ∧ ∀ i, (r.view i).code = r.code) ∨
      (r.mask = ~~~ (15#13 <<< r.shift) ∧ ∀ i, (r.view i).code = r.code ||| (BitVec.ofNat 13 i.val <<< r.shift)) := by
  decide

/-- The view a code selects has that code: no bit of a transaction code is dropped. -/
theorem code_of_viewOf {c : BitVec 13} {v : View} (h : viewOf c = some v) : v.code = c := by
  obtain ⟨r, hr, h⟩ := List.exists_of_findSome?_eq_some h
  by_cases hm : r.matches c = true
  · rw [if_pos hm] at h
    cases h
    simp only [OpcodeRow.matches, decide_eq_true_eq] at hm
    rcases opcodeRows_shape r hr with ⟨h1, h2⟩ | ⟨h1, h2⟩ <;> rw [h2, ← hm, h1]
    · apply BitVec.eq_of_getLsbD_eq
      intro j hj
      simp only [BitVec.getLsbD_and, BitVec.getLsbD_not, hj]
      simp
    · rw [index_bits]
      apply BitVec.eq_of_getLsbD_eq
      intro j hj
      simp only [BitVec.getLsbD_or, BitVec.getLsbD_and, BitVec.getLsbD_not, hj]
      cases (15#13 <<< r.shift).getLsbD j <;> simp
  · rw [if_neg hm] at h; cases h

/-- The view a code is looked up to has that code. -/
theorem code_of_lookupView {c : BitVec 13} {v : View} (h : lookupView c = .ok v) : v.code = c := by
  simp only [lookupView] at h
  repeat' split at h
  all_goals first | (cases h; done) | (cases h; exact code_of_viewOf ‹_›)

/-- The code of a view is looked up to the view. -/
theorem lookupView_code (v : View) : lookupView v.code = .ok v := by
  cases v with
  | matchCapture i => revert i; decide
  | matchCaptureLow i => revert i; decide
  | matchCaptureHigh i => revert i; decide
  | matchAliasLow i => revert i; decide
  | matchAliasHigh i => revert i; decide
  | captureControl i => revert i; decide
  | captureControlLow i => revert i; decide
  | captureControlHigh i => revert i; decide
  | captureControlAliasLow i => revert i; decide
  | captureControlAliasHigh i => revert i; decide
  | eventEnabledInState i => revert i; decide
  | eventControl i => revert i; decide
  | outputOnEventSet i => revert i; decide
  | outputOnEventClear i => revert i; decide
  | _ => decide

end Sys2Proof
end

