-- ==== Sys2Proof/Laws/Descriptor.lean ====
section
/-! SUPPORT. What the arithmetic of a descriptor says of an entry in its list (spec/44_harness.md R272). -/

namespace Sys2Proof.Machine

/-- The size of a descriptor is the total of its entries. -/
theorem sizeOfLayout_eq (L : List Entry) : sizeOfLayout L = totalBytes L := by
  induction L with
  | nil => rfl
  | cons e L ih => simpa [sizeOfLayout, totalBytes, entryBytes] using ih

/-- Sizes add up. -/
theorem totalBytes_append (A B : List Entry) : totalBytes (A ++ B) = totalBytes A + totalBytes B := by simp [totalBytes]

/-- An entry lies after the bytes of the entries before it. -/
theorem computedOffset_append (A B : List Entry) : computedOffset (A ++ B) A.length = totalBytes A := by
  rw [computedOffset, List.take_left, sizeOfLayout_eq]

/-- The first entry of a name is found. -/
theorem entryNamed_append (A B : List Entry) (e : Entry) (h : ∀ x ∈ A, x.name ≠ e.name) :
    entryNamed (A ++ e :: B) e.name = some e := by
  rw [entryNamed, List.find?_append, List.find?_eq_none.2 fun x hx => by simp [h x hx]]
  simp

/-- The first entry of a name lies after the bytes of the entries before it. -/
theorem offsetNamed_append (A B : List Entry) (e : Entry) (h : ∀ x ∈ A, x.name ≠ e.name) :
    offsetNamed (A ++ e :: B) e.name = some (totalBytes A) := by
  have hi : entryIndex (A ++ e :: B) e.name = some A.length := by
    rw [entryIndex, List.findIdx?_append, List.findIdx?_eq_none_iff.2 fun x hx => by simp [h x hx]]
    simp [List.findIdx?_cons]
  rw [offsetNamed, hi, Option.map_some, computedOffset_append]

/-- A name no entry has, has no entry. -/
theorem entryNamed_absent {L : List Entry} {n : FieldName} (h : ∀ x ∈ L, x.name ≠ n) : entryNamed L n = none :=
  List.find?_eq_none.2 fun x hx => by simp [h x hx]

/-- A name no entry has, has no offset. -/
theorem offsetNamed_absent {L : List Entry} {n : FieldName} (h : ∀ x ∈ L, x.name ≠ n) : offsetNamed L n = none := by
  rw [offsetNamed, entryIndex, List.findIdx?_eq_none_iff.2 fun x hx => by simp [h x hx]]
  rfl

/-- A name with an offset is that of an entry, the first one of the name. -/
theorem offsetNamed_some {L : List Entry} {n : FieldName} {a : Nat} (h : offsetNamed L n = some a) :
    ∃ A e B, L = A ++ e :: B ∧ e.name = n ∧ (∀ x ∈ A, x.name ≠ n) ∧ totalBytes A = a := by
  induction L generalizing a with
  | nil => cases h
  | cons x L ih =>
    by_cases hx : x.name = n
    · subst hx
      have := (offsetNamed_append [] L x (by simp)).symm.trans h
      exact ⟨[], x, L, rfl, rfl, by simp, by simpa using this⟩
    · obtain ⟨a', h', ha⟩ : ∃ a', offsetNamed L n = some a' ∧ entryBytes x + a' = a := by
        simp only [offsetNamed, entryIndex, List.findIdx?_cons, hx, decide_false, Bool.false_eq_true, if_false,
          Option.map_map, Option.map_eq_some_iff] at h ⊢
        obtain ⟨k, hk, hc⟩ := h
        exact ⟨_, ⟨k, hk, rfl⟩, by simpa [computedOffset, sizeOfLayout] using hc⟩
      obtain ⟨A, e, B, rfl, h2, h3, h4⟩ := ih h'
      exact ⟨x :: A, e, B, rfl, h2, by simpa using ⟨hx, h3⟩, by rw [← ha, ← h4]; simp [totalBytes, entryBytes]⟩

/-- The slots of the first entry of a name. -/
theorem slotOffset_append (A B : List Entry) (e : Entry) (i : Nat) (h : ∀ x ∈ A, x.name ≠ e.name) :
    slotOffset (A ++ e :: B) e.name i = elementOffset e (totalBytes A) i := by
  rw [slotOffset, entryNamed_append A B e h, offsetNamed_append A B e h]

/-- A part of the first entry of a name. -/
theorem subOffset_append (A B : List Entry) (e : Entry) (n : SubName) (h : ∀ x ∈ A, x.name ≠ e.name) :
    subOffset (A ++ e :: B) e.name n = (e.subs.find? fun p => decide (p.name = n)).map fun p => totalBytes A + p.off := by
  rw [subOffset, entryNamed_append A B e h, offsetNamed_append A B e h]

/-- Two neighbouring slots of an entry are its unit apart (R278). -/
theorem pairApart_eq (e : Entry) (a d i : Nat) (h : i + 1 < e.count) :
    pairApart e a d i = if e.unit = d then none else some (.stride e.name d e.unit) := by
  have hs : a + e.unit * (i + 1) - (a + e.unit * i) = e.unit := by rw [Nat.mul_add, Nat.mul_one]; omega
  simp only [pairApart, elementOffset, show i < e.count by omega, h, if_true, hs]

/-- So the pairs of an entry pass or fail together (R278). -/
theorem badPair_eq (e : Entry) (a d : Nat) :
    badPair e a d = if e.count ≤ 1 ∨ e.unit = d then none else some (.stride e.name d e.unit) := by
  unfold badPair
  by_cases hd : e.unit = d
  · rw [if_pos (.inr hd), List.findSome?_eq_none_iff]
    intro i hi
    rw [pairApart_eq _ _ _ _ (by have := List.mem_range.1 hi; omega), if_pos hd]
  · by_cases hc : e.count ≤ 1
    · rw [if_pos (.inl hc), show e.count - 1 = 0 by omega]; rfl
    · rw [if_neg (by tauto), show e.count - 1 = (e.count - 2) + 1 by omega, List.range_succ_eq_map, List.findSome?_cons,
        pairApart_eq _ _ _ _ (by omega), if_neg hd]

end Sys2Proof.Machine
end

