-- ==== Sys2Proof/Laws/Image.lean ====
section
/-! SUPPORT. The laws of the register image: a word read after it is written, every other word left alone, and equality of images
by their words. -/

namespace Sys2Proof.Machine

/-- Every word but `input` is stored: it reads back what was written. -/
theorem get_set_same (x : Regs) (r : Reg) (v : Word) (h : r ≠ .input) : (x.set r v).get r = v := by
  cases r <;> simp_all [Regs.set, Regs.get]

/-- A write leaves every other word alone. -/
theorem get_set_other (x : Regs) (r q : Reg) (v : Word) (h : q ≠ r) : (x.set r v).get q = x.get q := by
  cases r <;> cases q <;>
    first
      | rfl
      | (exact absurd rfl h)
      | (rename_i i j
         have hij : i.val ≠ j.val := fun e => h (by rw [Fin.ext e])
         simp [Regs.set, Regs.get, Vector.getElem_set_ne, hij])

/-- The word `input` stores nothing (R331). -/
@[simp] theorem get_input (x : Regs) : x.get .input = 0 := rfl

/-- A write to `input` stores nothing. -/
@[simp] theorem set_input (x : Regs) (v : Word) : x.set .input v = x := rfl

/-- Two images with the same words are the same image. -/
theorem regs_ext (x y : Regs) (h : ∀ r, x.get r = y.get r) : x = y := by
  have hv : ∀ (a b : Vector Word 16), (∀ i : Slot, a[i] = b[i]) → a = b := fun a b e =>
    Vector.ext fun i hi => e ⟨i, hi⟩
  cases x; cases y
  simp only [Regs.mk.injEq]
  exact ⟨h .config, h .control, h .clearOnEvent, h .haltOnEvent, h .stopOnEvent, h .startOnEvent, h .count, h .state,
    h .registerMode, h .output, h .outputDirectionControl, h .conflictResolution, h .dmaRequest0, h .dmaRequest1,
    h .interruptOnEvent, h .eventOccurred, h .interruptOnConflict, h .conflictOccurred, hv _ _ fun i => h (.matchCapture i),
    hv _ _ fun i => h (.captureControl i), hv _ _ fun i => h (.eventEnabledInState i), hv _ _ fun i => h (.eventControl i),
    hv _ _ fun i => h (.outputOnEventSet i), hv _ _ fun i => h (.outputOnEventClear i)⟩

end Sys2Proof.Machine
end

