-- ==== Sys2Proof/Laws/Operands.lean ====
section
/-! SUPPORT. The laws of sub-fields, halves and masks, bit by bit: every later proof about a word goes through these. -/

namespace Sys2Proof.Machine

/-! ## Words -/

theorem and_ones {n : Nat} (x : BitVec n) : x &&& ~~~ 0 = x := by ext i hi; simp

theorem zero_or_bits {n : Nat} (x : BitVec n) : 0 ||| x = x := by ext i hi; simp

theorem or_zero_bits {n : Nat} (x : BitVec n) : x ||| 0 = x := by ext i hi; simp

theorem not_not_bits {n : Nat} (x : BitVec n) : ~~~ ~~~ x = x := by ext i hi; simp

/-! ## Masks and sub-fields -/

/-- The bits of `mask(o, w)` (R11): those from `o` to `o + w - 1`. -/
theorem getLsbD_mask (n o w i : Nat) : (mask n o w).getLsbD i = (decide (i < n) && decide (o ≤ i) && decide (i < o + w)) := by
  rw [mask, BitVec.getLsbD_shiftLeft, BitVec.getLsbD_ofNat, Nat.testBit_two_pow_sub_one, Bool.eq_iff_iff]
  simp only [Bool.and_eq_true, Bool.not_eq_true', decide_eq_true_eq, decide_eq_false_iff_not]
  omega

/-- The bits some field of a list covers. -/
theorem fieldsMask_getLsbD (n : Nat) (fs : List SubField) (i : Nat) :
    (fieldsMask n fs).getLsbD i = (decide (i < n) && fs.any fun f => decide (f.off ≤ i) && decide (i < f.off + f.width)) := by
  induction fs with
  | nil => simp [fieldsMask]
  | cons f fs ih =>
    rw [fieldsMask, List.foldr_cons, BitVec.getLsbD_or, ← fieldsMask, ih, fieldMask, getLsbD_mask, List.any_cons]
    cases decide (i < n) <;> simp

/-- The bits of an extracted field (R111). -/
theorem getLsbD_extract {n : Nat} (v : BitVec n) (o w i : Nat) :
    (extract v o w).getLsbD i = (v.getLsbD (o + i) && decide (i < w)) := by
  simp only [extract, BitVec.getLsbD_and, BitVec.getLsbD_ushiftRight, BitVec.getLsbD_ofNat, Nat.testBit_two_pow_sub_one]
  by_cases hw : i < w <;> simp only [hw, decide_true, decide_false, Bool.and_false, Bool.and_true]
  by_cases hn : i < n
  · simp [hn]
  · have : v.getLsbD (o + i) = false := BitVec.getLsbD_of_ge v (o + i) (by omega)
    simp [hn, this]

/-- The bits of a word after insertion (R112): the field's from the value, the others kept. -/
theorem getLsbD_insert {n : Nat} (v : BitVec n) (o w : Nat) (f : BitVec n) (i : Nat) :
    (insert v o w f).getLsbD i =
      if o ≤ i ∧ i < o + w then decide (i < n) && f.getLsbD (i - o) else v.getLsbD i := by
  simp only [insert, BitVec.getLsbD_or, BitVec.getLsbD_and, BitVec.getLsbD_not, getLsbD_mask, BitVec.getLsbD_shiftLeft]
  by_cases hn : i < n
  · by_cases h1 : o ≤ i
    · have h3 : ¬ i < o := by omega
      by_cases h2 : i < o + w <;> simp only [hn, h1, h2, h3] <;> simp
    · have h3 : i < o := by omega
      simp only [hn, h1, h3]; simp
  · have : v.getLsbD i = false := BitVec.getLsbD_of_ge v i (by omega)
    simp only [hn, this]; simp

/-- Extraction (R111) as a number. -/
theorem toNat_extract {n : Nat} (v : BitVec n) (o w : Nat) (h : w ≤ n) : (extract v o w).toNat = v.toNat / 2 ^ o % 2 ^ w := by
  have hw : 2 ^ w - 1 < 2 ^ n := by
    have := Nat.pow_le_pow_right (n := 2) (by decide) h
    have : 0 < 2 ^ w := Nat.two_pow_pos w
    omega
  rw [extract, BitVec.toNat_and, BitVec.toNat_ushiftRight, BitVec.toNat_ofNat, Nat.mod_eq_of_lt hw,
    Nat.and_two_pow_sub_one_eq_mod, Nat.shiftRight_eq_div_pow]

/-- What is inserted is extracted (R112). -/
theorem extract_insert {n : Nat} (v f : BitVec n) (o w : Nat) (h : o + w ≤ n) (hf : f.toNat < 2 ^ w) :
    extract (insert v o w f) o w = f := by
  apply BitVec.eq_of_getLsbD_eq
  intro i hi
  rw [getLsbD_extract, getLsbD_insert]
  by_cases hw : i < w
  · rw [if_pos (by omega), decide_eq_true hw, decide_eq_true (by omega), Nat.add_sub_cancel_left, Bool.true_and, Bool.and_true]
  · have : f.getLsbD i = false := by
      rw [BitVec.getLsbD, Nat.testBit_lt_two_pow]
      exact Nat.lt_of_lt_of_le hf (Nat.pow_le_pow_right (by decide) (by omega))
    rw [this, decide_eq_false hw, Bool.and_false]

/-- Inserting what is there changes nothing (R112). -/
theorem insert_extract {n : Nat} (v : BitVec n) (o w : Nat) : insert v o w (extract v o w) = v := by
  apply BitVec.eq_of_getLsbD_eq
  intro i hi
  rw [getLsbD_insert]
  split
  · rw [getLsbD_extract, show o + (i - o) = i by omega, decide_eq_true hi, decide_eq_true (by omega)]; simp
  · rfl

/-- A disjoint field is kept (R112). -/
theorem extract_insert_disjoint {n : Nat} (v f : BitVec n) (o w o₂ w₂ : Nat) (h : o + w ≤ o₂ ∨ o₂ + w₂ ≤ o) :
    extract (insert v o w f) o₂ w₂ = extract v o₂ w₂ := by
  apply BitVec.eq_of_getLsbD_eq
  intro i hi
  rw [getLsbD_extract, getLsbD_extract, getLsbD_insert]
  by_cases hw : i < w₂
  · rw [if_neg (by omega)]
  · rw [decide_eq_false hw, Bool.and_false, Bool.and_false]

/-- The bits of a merge: those of the mask from the new word. -/
theorem getLsbD_merge {n : Nat} (m old new : BitVec n) (i : Nat) :
    (merge m old new).getLsbD i = if m.getLsbD i then new.getLsbD i else old.getLsbD i := by
  simp only [merge, BitVec.getLsbD_or, BitVec.getLsbD_and, BitVec.getLsbD_not]
  by_cases hn : i < n
  · cases m.getLsbD i <;> simp only [hn] <;> simp
  · have h1 : old.getLsbD i = false := BitVec.getLsbD_of_ge old i (by omega)
    have h2 : m.getLsbD i = false := BitVec.getLsbD_of_ge m i (by omega)
    simp only [h1, h2]; simp

/-- A draw into no bit is no draw. -/
@[simp] theorem drawInto_zero {n : Nat} (old free : BitVec n) : drawInto 0 old free = old := by simp [drawInto]

/-- Drawing into a word is a merge. -/
theorem drawInto_eq_merge {n : Nat} (m old free : BitVec n) : drawInto m old free = merge m old free := by
  unfold drawInto
  split
  · next h => simp [h, merge]
  · rfl

/-! ## Halves -/

/-- The bits of a half. -/
theorem getLsbD_halfOf (k : Half) (v : Word) (i : Nat) :
    (halfOf k v).getLsbD i = (decide (i < 16) && v.getLsbD (halfOff k + i)) := by
  cases k <;> simp only [halfOf, halfOff, BitVec.getLsbD_extractLsb']

theorem halfOf_and (k : Half) (a b : Word) : halfOf k (a &&& b) = halfOf k a &&& halfOf k b := by
  cases k <;> exact BitVec.extractLsb'_and
theorem halfOf_or (k : Half) (a b : Word) : halfOf k (a ||| b) = halfOf k a ||| halfOf k b := by
  cases k <;> exact BitVec.extractLsb'_or
theorem halfOf_not (k : Half) (a : Word) : halfOf k (~~~ a) = ~~~ halfOf k a := by
  cases k <;> (apply BitVec.eq_of_getLsbD_eq; intro i hi; simp only [halfOf, BitVec.getLsbD_extractLsb', BitVec.getLsbD_not]; simp [hi]; try omega)

/-- The bits of a word made of two halves. -/
theorem getLsbD_joinHalves (lo hi : HalfWord) (i : Nat) :
    (joinHalves lo hi).getLsbD i = if i < 16 then lo.getLsbD i else hi.getLsbD (i - 16) := by
  rw [joinHalves, BitVec.getLsbD_append]

@[simp] theorem halfOf_low_join (lo hi : HalfWord) : halfOf .low (joinHalves lo hi) = lo := by
  apply BitVec.eq_of_getLsbD_eq
  intro i hi'
  rw [getLsbD_halfOf, getLsbD_joinHalves, halfOff, Nat.zero_add, if_pos hi', decide_eq_true hi', Bool.true_and]

@[simp] theorem halfOf_high_join (lo hi : HalfWord) : halfOf .high (joinHalves lo hi) = hi := by
  apply BitVec.eq_of_getLsbD_eq
  intro i hi'
  rw [getLsbD_halfOf, getLsbD_joinHalves, halfOff, if_neg (by omega), Nat.add_sub_cancel_left, decide_eq_true hi',
    Bool.true_and]

/-- A word is its halves (R74). -/
@[simp] theorem join_halves (v : Word) : joinHalves (halfOf .low v) (halfOf .high v) = v := by
  apply BitVec.eq_of_getLsbD_eq
  intro i hi
  rw [getLsbD_joinHalves, getLsbD_halfOf, getLsbD_halfOf, halfOff, halfOff]
  by_cases h : i < 16
  · rw [if_pos h, decide_eq_true h, Bool.true_and, Nat.zero_add]
  · have e : 16 + (i - 16) = i := by omega
    have g : i - 16 < 16 := by omega
    rw [if_neg h, decide_eq_true g, Bool.true_and, e]

/-- A half of a merge is the merge of the halves. -/
theorem halfOf_merge (k : Half) (m a b : Word) : halfOf k (merge m a b) = merge (halfOf k m) (halfOf k a) (halfOf k b) := by
  simp only [merge, halfOf_or, halfOf_and, halfOf_not]

/-- The picked halves are masked whole, the others not at all. -/
theorem halfOf_halvesMask (p : Half → Bool) (k : Half) : halfOf k (halvesMask p) = if p k then ~~~ 0 else 0 := by
  unfold halvesMask
  cases k <;> cases p .low <;> cases p .high <;> decide

@[simp] theorem merge_ones {n : Nat} (a b : BitVec n) : merge (~~~ 0) a b = b := by
  unfold merge; ext i hi; simp

@[simp] theorem merge_zero {n : Nat} (a b : BitVec n) : merge 0 a b = a := by
  unfold merge; ext i hi; simp

/-- A merge into picked halves, half by half. -/
theorem halfOf_merge_halvesMask (p : Half → Bool) (k : Half) (a b : Word) :
    halfOf k (merge (halvesMask p) a b) = if p k then halfOf k b else halfOf k a := by
  rw [halfOf_merge, halfOf_halvesMask]
  cases p k
  · exact merge_zero _ _
  · exact merge_ones _ _

/-- The written half holds the value. -/
@[simp] theorem halfOf_withHalf_same (k : Half) (v : Word) (x : HalfWord) : halfOf k (withHalf k v x) = x := by
  cases k <;> simp [withHalf]

/-- The other half is kept (R27: "writing one half must not disturb the other"). -/
theorem halfOf_withHalf_other (k j : Half) (v : Word) (x : HalfWord) (h : j ≠ k) :
    halfOf j (withHalf k v x) = halfOf j v := by
  cases k <;> cases j <;> simp_all [withHalf]

/-- Two words with the same halves are the same word. -/
theorem word_ext_halves (v w : Word) (h : ∀ k, halfOf k v = halfOf k w) : v = w := by
  rw [← join_halves v, ← join_halves w, h .low, h .high]

/-- Each half of the word is the repeated half. -/
@[simp] theorem halfOf_inBothHalves (k : Half) (x : HalfWord) : halfOf k (inBothHalves x) = x := by
  cases k <;> simp [inBothHalves]

/-! ## Bit-per-slot words -/

theorem getLsbD_one_shift (e : Slot) (i : Nat) : (1#32 <<< e.val).getLsbD i = decide (i = e.val) := by
  have he := e.isLt
  rw [BitVec.getLsbD_shiftLeft, BitVec.getLsbD_one, Bool.eq_iff_iff]
  simp only [Bool.and_eq_true, Bool.not_eq_true', decide_eq_true_eq, decide_eq_false_iff_not]
  omega

theorem getLsbD_slotBits_aux (f : Slot → Bool) (L : List Slot) (i : Nat) :
    (L.foldr (fun e m => if f e then m ||| (1#32 <<< e.val) else m) (0 : Word)).getLsbD i =
      L.any fun e => f e && decide (i = e.val) := by
  induction L with
  | nil => exact BitVec.getLsbD_zero
  | cons e L ih =>
    rw [List.foldr_cons, List.any_cons]
    cases h : f e
    · rw [if_neg (by simp), ih]; simp
    · rw [if_pos rfl, BitVec.getLsbD_or, ih, getLsbD_one_shift, Bool.true_and, Bool.or_comm]

/-- Bit `e` of the word is `f e` (R119). -/
theorem getLsbD_slotBits (f : Slot → Bool) (e : Slot) : (slotBits f).getLsbD e.val = f e := by
  rw [slotBits, getLsbD_slotBits_aux]
  by_cases h : f e
  · rw [h, List.any_eq_true]
    exact ⟨e, List.mem_finRange e, by simp [h]⟩
  · rw [Bool.not_eq_true] at h
    rw [h, List.any_eq_false]
    intro x _ hx
    simp only [Bool.and_eq_true, decide_eq_true_eq] at hx
    rw [Fin.ext hx.2] at h
    simp [h] at hx

/-- The bits above the slots are 0. -/
theorem getLsbD_slotBits_above (f : Slot → Bool) (i : Nat) (h : 16 ≤ i) : (slotBits f).getLsbD i = false := by
  rw [slotBits, getLsbD_slotBits_aux, List.any_eq_false]
  intro x _ hx
  have := x.isLt
  simp only [Bool.and_eq_true, decide_eq_true_eq] at hx
  omega

end Sys2Proof.Machine
end

