-- ==== Sys2Proof/Laws/Params.lean ====
section
/-! SUPPORT. What legal parameters (spec/00_scope.md R8, spec/30_encoding.md R110) give. -/

namespace Sys2Proof.Machine

/-- A legal control layout: disjoint fields of the widths of R116. -/
theorem legal_ctrl {p : Params} (h : p.legal = true) :
    fieldsLegal 16 p.ctrlLayout.fields = true ∧ p.ctrlLayout.fields.map SubField.width = [1, 1, 1, 1, 1, 8] := by
  unfold Params.legal at h
  simp only [Bool.and_eq_true, decide_eq_true_eq] at h
  tauto

/-- `clear_counter` is one of the fields. -/
theorem clear_in_fields {p : Params} (h : p.legal = true) :
    (fieldsMask 16 p.ctrlLayout.fields).getLsbD p.ctrlLayout.clearCounter.off = true := by
  obtain ⟨h1, h2⟩ := legal_ctrl h
  simp only [CtrlLayout.fields, List.map_cons, List.map_nil, List.cons.injEq, and_true] at h2
  simp only [CtrlLayout.fields, fieldsLegal, Bool.and_eq_true, decide_eq_true_eq] at h1
  rw [fieldsMask_getLsbD]
  simp only [CtrlLayout.fields, List.any_cons, Bool.and_eq_true, Bool.or_eq_true, decide_eq_true_eq]
  omega

/-- Masking off the reserved bits does not move `clear_counter`. -/
theorem flag_and_fields {p : Params} (h : p.legal = true) (x : HalfWord) :
    fieldFlag p.ctrlLayout.clearCounter (x &&& fieldsMask 16 p.ctrlLayout.fields) = fieldFlag p.ctrlLayout.clearCounter x := by
  unfold fieldFlag
  rw [BitVec.getLsbD_and, clear_in_fields h, Bool.and_true]

end Sys2Proof.Machine
end

