-- ==== Sys2Proof/Laws/State.lean ====
section
/-! SUPPORT. What each update of the state does to each field, true by unfolding once: later proofs cite these and never unfold a
record update. -/

namespace Sys2Proof.Machine

variable (h : Handle) (s t : State) (r : Reg) (ks : List Half) (k : Half) (v : Word) (f : BuildFailure) (p : Pending) (q : List Pending)

/-! ## `silent` -/

@[simp] theorem silent_phase : (s.silent).phase = s.phase := rfl
@[simp] theorem silent_base : (s.silent).base = s.base := rfl
@[simp] theorem silent_regs : (s.silent).regs = s.regs := rfl
@[simp] theorem silent_firing : (s.silent).firing = s.firing := rfl
@[simp] theorem silent_dmaRaised : (s.silent).dmaRaised = s.dmaRaised := rfl
@[simp] theorem silent_failure : (s.silent).failure = s.failure := rfl
@[simp] theorem silent_params : (s.silent).params = s.params := rfl
@[simp] theorem silent_queue : (s.silent).queue = s.queue := rfl
@[simp] theorem silent_result : (s.silent).result = .nothing := rfl
@[simp] theorem silent_draws : (s.silent).draws = s.draws := rfl
@[simp] theorem silent_between : (s.silent).between = s.between := rfl

/-! ## `store` -/

@[simp] theorem store_phase : (store r v s).phase = s.phase := rfl
@[simp] theorem store_base : (store r v s).base = s.base := rfl
@[simp] theorem store_regs : (store r v s).regs = s.regs.set r v := rfl
@[simp] theorem store_firing : (store r v s).firing = s.firing := rfl
@[simp] theorem store_dmaRaised : (store r v s).dmaRaised = s.dmaRaised := rfl
@[simp] theorem store_failure : (store r v s).failure = s.failure := rfl
@[simp] theorem store_params : (store r v s).params = s.params := rfl
@[simp] theorem store_queue : (store r v s).queue = s.queue := rfl
@[simp] theorem store_result : (store r v s).result = s.result := rfl
@[simp] theorem store_draws : (store r v s).draws = s.draws := rfl
@[simp] theorem store_between : (store r v s).between = s.between := rfl

/-! ## `take` -/

@[simp] theorem take_phase : (s.take p q).phase = s.phase := rfl
@[simp] theorem take_base : (s.take p q).base = s.base := rfl
@[simp] theorem take_regs : (s.take p q).regs = s.regs := rfl
@[simp] theorem take_firing : (s.take p q).firing = s.firing := rfl
@[simp] theorem take_dmaRaised : (s.take p q).dmaRaised = s.dmaRaised := rfl
@[simp] theorem take_failure : (s.take p q).failure = s.failure := rfl
@[simp] theorem take_params : (s.take p q).params = s.params := rfl
@[simp] theorem take_queue : (s.take p q).queue = q := rfl
@[simp] theorem take_result : (s.take p q).result = s.result := rfl
@[simp] theorem take_draws : (s.take p q).draws = s.draws := rfl
@[simp] theorem take_between : (s.take p q).between = p.between := rfl

/-! ## `readEffect` -/

@[simp] theorem readEffect_phase : (readEffect r s).phase = s.phase := rfl
@[simp] theorem readEffect_base : (readEffect r s).base = s.base := rfl
@[simp] theorem readEffect_firing : (readEffect r s).firing = s.firing := rfl
@[simp] theorem readEffect_dmaRaised : (readEffect r s).dmaRaised = s.dmaRaised := rfl
@[simp] theorem readEffect_failure : (readEffect r s).failure = s.failure := rfl
@[simp] theorem readEffect_params : (readEffect r s).params = s.params := rfl
@[simp] theorem readEffect_queue : (readEffect r s).queue = s.queue := rfl
@[simp] theorem readEffect_result : (readEffect r s).result = s.result := rfl
@[simp] theorem readEffect_draws : (readEffect r s).draws = s.draws + 1 := rfl
@[simp] theorem readEffect_between : (readEffect r s).between = s.between := rfl

/-! ## `read32` -/

@[simp] theorem read32_phase : (read32 h r s).phase = s.phase := rfl
@[simp] theorem read32_base : (read32 h r s).base = s.base := rfl
@[simp] theorem read32_regs : (read32 h r s).regs = (readEffect r s).regs := rfl
@[simp] theorem read32_firing : (read32 h r s).firing = s.firing := rfl
@[simp] theorem read32_dmaRaised : (read32 h r s).dmaRaised = s.dmaRaised := rfl
@[simp] theorem read32_failure : (read32 h r s).failure = s.failure := rfl
@[simp] theorem read32_params : (read32 h r s).params = s.params := rfl
@[simp] theorem read32_queue : (read32 h r s).queue = s.queue := rfl
@[simp] theorem read32_result : (read32 h r s).result = .word (readValue r s) := rfl
@[simp] theorem read32_draws : (read32 h r s).draws = s.draws + 1 := rfl
@[simp] theorem read32_between : (read32 h r s).between = s.between := rfl

/-! ## `read16` -/

@[simp] theorem read16_phase : (read16 h r k s).phase = s.phase := rfl
@[simp] theorem read16_base : (read16 h r k s).base = s.base := rfl
@[simp] theorem read16_regs : (read16 h r k s).regs = (readEffect r s).regs := rfl
@[simp] theorem read16_firing : (read16 h r k s).firing = s.firing := rfl
@[simp] theorem read16_dmaRaised : (read16 h r k s).dmaRaised = s.dmaRaised := rfl
@[simp] theorem read16_failure : (read16 h r k s).failure = s.failure := rfl
@[simp] theorem read16_params : (read16 h r k s).params = s.params := rfl
@[simp] theorem read16_queue : (read16 h r k s).queue = s.queue := rfl
@[simp] theorem read16_result : (read16 h r k s).result = .half (halfOf k (readValue r s)) := rfl
@[simp] theorem read16_draws : (read16 h r k s).draws = s.draws + 1 := rfl
@[simp] theorem read16_between : (read16 h r k s).between = s.between := rfl

/-! ## `writeConfig` -/

@[simp] theorem writeConfig_phase : (writeConfig v s).phase = s.phase := rfl
@[simp] theorem writeConfig_base : (writeConfig v s).base = s.base := rfl
@[simp] theorem writeConfig_firing : (writeConfig v s).firing = s.firing := rfl
@[simp] theorem writeConfig_dmaRaised : (writeConfig v s).dmaRaised = s.dmaRaised := rfl
@[simp] theorem writeConfig_failure : (writeConfig v s).failure = s.failure := rfl
@[simp] theorem writeConfig_params : (writeConfig v s).params = s.params := rfl
@[simp] theorem writeConfig_queue : (writeConfig v s).queue = s.queue := rfl
@[simp] theorem writeConfig_result : (writeConfig v s).result = s.result := rfl
@[simp] theorem writeConfig_draws : (writeConfig v s).draws = s.draws + 1 := rfl
@[simp] theorem writeConfig_between : (writeConfig v s).between = s.between := rfl

/-! ## `writeControl` -/

@[simp] theorem writeControl_phase : (writeControl ks v s).phase = s.phase := rfl
@[simp] theorem writeControl_base : (writeControl ks v s).base = s.base := rfl
@[simp] theorem writeControl_firing : (writeControl ks v s).firing = s.firing := rfl
@[simp] theorem writeControl_dmaRaised : (writeControl ks v s).dmaRaised = s.dmaRaised := rfl
@[simp] theorem writeControl_failure : (writeControl ks v s).failure = s.failure := rfl
@[simp] theorem writeControl_params : (writeControl ks v s).params = s.params := rfl
@[simp] theorem writeControl_queue : (writeControl ks v s).queue = s.queue := rfl
@[simp] theorem writeControl_result : (writeControl ks v s).result = s.result := rfl
@[simp] theorem writeControl_draws : (writeControl ks v s).draws = s.draws + 1 := rfl
@[simp] theorem writeControl_between : (writeControl ks v s).between = s.between := rfl

/-! ## `takeBuildFailure` -/

@[simp] theorem takeBuildFailure_phase : (takeBuildFailure f s).phase = .buildHalted := rfl
@[simp] theorem takeBuildFailure_base : (takeBuildFailure f s).base = s.base := rfl
@[simp] theorem takeBuildFailure_regs : (takeBuildFailure f s).regs = s.regs := rfl
@[simp] theorem takeBuildFailure_firing : (takeBuildFailure f s).firing = s.firing := rfl
@[simp] theorem takeBuildFailure_dmaRaised : (takeBuildFailure f s).dmaRaised = s.dmaRaised := rfl
@[simp] theorem takeBuildFailure_failure : (takeBuildFailure f s).failure = some f := rfl
@[simp] theorem takeBuildFailure_params : (takeBuildFailure f s).params = s.params := rfl
@[simp] theorem takeBuildFailure_queue : (takeBuildFailure f s).queue = s.queue := rfl
@[simp] theorem takeBuildFailure_result : (takeBuildFailure f s).result = .nothing := rfl
@[simp] theorem takeBuildFailure_draws : (takeBuildFailure f s).draws = s.draws := rfl
@[simp] theorem takeBuildFailure_between : (takeBuildFailure f s).between = s.between := rfl

/-! ## `hardwareReset` -/

@[simp] theorem hardwareReset_phase : (hardwareReset s).phase = s.phase := rfl
@[simp] theorem hardwareReset_base : (hardwareReset s).base = s.base := rfl
@[simp] theorem hardwareReset_regs : (hardwareReset s).regs = s.params.resetImage := rfl
@[simp] theorem hardwareReset_firing : (hardwareReset s).firing = 0 := rfl
@[simp] theorem hardwareReset_dmaRaised : (hardwareReset s).dmaRaised = 0 := rfl
@[simp] theorem hardwareReset_failure : (hardwareReset s).failure = s.failure := rfl
@[simp] theorem hardwareReset_params : (hardwareReset s).params = s.params := rfl
@[simp] theorem hardwareReset_queue : (hardwareReset s).queue = s.queue := rfl
@[simp] theorem hardwareReset_result : (hardwareReset s).result = s.result := rfl
@[simp] theorem hardwareReset_draws : (hardwareReset s).draws = s.draws := rfl
@[simp] theorem hardwareReset_between : (hardwareReset s).between = s.between := rfl

/-! ## `evaluateReserved` -/

@[simp] theorem evaluateReserved_phase : (evaluateReserved s).phase = s.phase := rfl
@[simp] theorem evaluateReserved_base : (evaluateReserved s).base = s.base := rfl
@[simp] theorem evaluateReserved_failure : (evaluateReserved s).failure = s.failure := rfl
@[simp] theorem evaluateReserved_params : (evaluateReserved s).params = s.params := rfl
@[simp] theorem evaluateReserved_queue : (evaluateReserved s).queue = s.queue := rfl
@[simp] theorem evaluateReserved_result : (evaluateReserved s).result = s.result := rfl
@[simp] theorem evaluateReserved_draws : (evaluateReserved s).draws = s.draws + evalDraws := rfl
@[simp] theorem evaluateReserved_between : (evaluateReserved s).between = s.between := rfl

/-! ## `settleCount` -/

@[simp] theorem settleCount_phase : (settleCount s t).phase = t.phase := rfl
@[simp] theorem settleCount_base : (settleCount s t).base = t.base := rfl
@[simp] theorem settleCount_firing : (settleCount s t).firing = t.firing := rfl
@[simp] theorem settleCount_dmaRaised : (settleCount s t).dmaRaised = t.dmaRaised := rfl
@[simp] theorem settleCount_failure : (settleCount s t).failure = t.failure := rfl
@[simp] theorem settleCount_params : (settleCount s t).params = t.params := rfl
@[simp] theorem settleCount_queue : (settleCount s t).queue = t.queue := rfl
@[simp] theorem settleCount_result : (settleCount s t).result = t.result := rfl
@[simp] theorem settleCount_draws : (settleCount s t).draws = t.draws + 1 := rfl
@[simp] theorem settleCount_between : (settleCount s t).between = t.between := rfl

/-! ## `evaluate` and the evaluations between two transactions -/

variable (d : EvalDraws) (F : List Slot)

@[simp] theorem evaluateRules_phase : (evaluateRules d F s).phase = s.phase := rfl
@[simp] theorem evaluate_phase : (evaluate d s).phase = s.phase := by
  simp only [evaluate]; split <;> rfl
@[simp] theorem evaluateRules_base : (evaluateRules d F s).base = s.base := rfl
@[simp] theorem evaluate_base : (evaluate d s).base = s.base := by
  simp only [evaluate]; split <;> rfl
@[simp] theorem evaluateRules_failure : (evaluateRules d F s).failure = s.failure := rfl
@[simp] theorem evaluate_failure : (evaluate d s).failure = s.failure := by
  simp only [evaluate]; split <;> rfl
@[simp] theorem evaluateRules_params : (evaluateRules d F s).params = s.params := rfl
@[simp] theorem evaluate_params : (evaluate d s).params = s.params := by
  simp only [evaluate]; split <;> rfl
@[simp] theorem evaluateRules_queue : (evaluateRules d F s).queue = s.queue := rfl
@[simp] theorem evaluate_queue : (evaluate d s).queue = s.queue := by
  simp only [evaluate]; split <;> rfl
@[simp] theorem evaluateRules_result : (evaluateRules d F s).result = s.result := rfl
@[simp] theorem evaluate_result : (evaluate d s).result = s.result := by
  simp only [evaluate]; split <;> rfl
@[simp] theorem evaluateRules_draws : (evaluateRules d F s).draws = s.draws + evalDraws := rfl
@[simp] theorem evaluate_draws : (evaluate d s).draws = s.draws + evalDraws := by
  simp only [evaluate]; split <;> rfl
@[simp] theorem evaluateRules_between : (evaluateRules d F s).between = s.between := rfl
@[simp] theorem evaluate_between : (evaluate d s).between = s.between := by
  simp only [evaluate]; split <;> rfl

@[simp] theorem runBetween_between : (runBetween s).between = [] := rfl

theorem foldEvaluate_phase (ds : List EvalDraws) (s : State) : (ds.foldl (fun t d => evaluate d t) s).phase = s.phase := by
  induction ds generalizing s with
  | nil => rfl
  | cons d ds ih => simp [ih]

@[simp] theorem runBetween_phase : (runBetween s).phase = s.phase := by simp [runBetween, foldEvaluate_phase]

theorem foldEvaluate_base (ds : List EvalDraws) (s : State) : (ds.foldl (fun t d => evaluate d t) s).base = s.base := by
  induction ds generalizing s with
  | nil => rfl
  | cons d ds ih => simp [ih]

@[simp] theorem runBetween_base : (runBetween s).base = s.base := by simp [runBetween, foldEvaluate_base]

theorem foldEvaluate_failure (ds : List EvalDraws) (s : State) : (ds.foldl (fun t d => evaluate d t) s).failure = s.failure := by
  induction ds generalizing s with
  | nil => rfl
  | cons d ds ih => simp [ih]

@[simp] theorem runBetween_failure : (runBetween s).failure = s.failure := by simp [runBetween, foldEvaluate_failure]

theorem foldEvaluate_params (ds : List EvalDraws) (s : State) : (ds.foldl (fun t d => evaluate d t) s).params = s.params := by
  induction ds generalizing s with
  | nil => rfl
  | cons d ds ih => simp [ih]

@[simp] theorem runBetween_params : (runBetween s).params = s.params := by simp [runBetween, foldEvaluate_params]

theorem foldEvaluate_queue (ds : List EvalDraws) (s : State) : (ds.foldl (fun t d => evaluate d t) s).queue = s.queue := by
  induction ds generalizing s with
  | nil => rfl
  | cons d ds ih => simp [ih]

@[simp] theorem runBetween_queue : (runBetween s).queue = s.queue := by simp [runBetween, foldEvaluate_queue]

theorem foldEvaluate_result (ds : List EvalDraws) (s : State) : (ds.foldl (fun t d => evaluate d t) s).result = s.result := by
  induction ds generalizing s with
  | nil => rfl
  | cons d ds ih => simp [ih]

@[simp] theorem runBetween_result : (runBetween s).result = s.result := by simp [runBetween, foldEvaluate_result]

/-- With no evaluation scheduled between its transactions an operation meets the same state again. -/
theorem runBetween_of_nil (h : s.between = []) : runBetween s = s := by
  cases s; simp_all [runBetween]

end Sys2Proof.Machine
end

