-- ==== Sys2Proof/Laws/Ops.lean ====
section
/-! SUPPORT. One lemma per shared operation: everything a read, a write effect, a transaction, a gate and a taken failure can do.
The image is one record under one reader and writer, so a write keeps it canonical by construction (Laws/Image.lean). -/

namespace Sys2Proof.Machine

/-! ## Frames -/

theorem sameLaunch_rfl (s : State) : SameLaunch s s := ⟨rfl, rfl, rfl, rfl, rfl⟩

theorem SameLaunch.trans {s t u : State} (h : SameLaunch s t) (g : SameLaunch t u) : SameLaunch s u :=
  ⟨g.phase.trans h.phase, g.base.trans h.base, g.failure.trans h.failure, g.params.trans h.params, g.queue.trans h.queue⟩

theorem Frame.trans {rs qs : List Reg} {s t u : State} (h : Frame rs s t) (g : Frame qs t u) : Frame (rs ++ qs) s u :=
  ⟨h.launch.trans g.launch, ⟨g.agent.firing.trans h.agent.firing, g.agent.dmaRaised.trans h.agent.dmaRaised⟩,
   fun r hr => by
    rw [List.mem_append, not_or] at hr
    rw [g.words r hr.2, h.words r hr.1]⟩

theorem Frame.mono {rs qs : List Reg} {s t : State} (h : Frame rs s t) (sub : ∀ r ∈ rs, r ∈ qs) : Frame qs s t :=
  ⟨h.launch, h.agent, fun r hr => h.words r fun hm => hr (sub r hm)⟩

/-- A frame in which no word may change keeps the whole image. -/
theorem Frame.regs {s t : State} (h : Frame [] s t) : t.regs = s.regs :=
  regs_ext _ _ fun r => h.words r (by simp)

/-- Replacing one word leaves everything else alone. -/
theorem store_frame (r : Reg) (v : Word) (s : State) : Frame [r] s (store r v s) :=
  ⟨⟨rfl, rfl, rfl, rfl, rfl⟩, ⟨rfl, rfl⟩, fun q hq => get_set_other _ _ _ _ (by simpa using hq)⟩

theorem silent_frame (s : State) : Frame [] s s.silent := ⟨⟨rfl, rfl, rfl, rfl, rfl⟩, ⟨rfl, rfl⟩, fun _ _ => rfl⟩

/-! ## Gates -/

@[simp] theorem whenBound_of_bound {s : State} (h : s.phase = .bound) (a : Answer) : whenBound s a = a := by simp [whenBound, h]

@[simp] theorem whenBound_of_not {s : State} (h : s.phase ≠ .bound) (a : Answer) : whenBound s a = .refused .notBound := by
  simp [whenBound, h]

/-- Past the gate the instance is bound. -/
theorem whenBound_next {s t : State} {a : Answer} (h : whenBound s a = .next t) : s.phase = .bound ∧ a = .next t := by
  unfold whenBound at h
  split at h
  · exact ⟨‹_›, h⟩
  · cases h

@[simp] theorem whenUnverified_of_unverified {s : State} (h : s.phase = .unverified) (a : Answer) : whenUnverified s a = a := by
  simp [whenUnverified, h]

/-- Past the gate the harness has not run. -/
theorem whenUnverified_next {s t : State} {a : Answer} (h : whenUnverified s a = .next t) :
    s.phase = .unverified ∧ a = .next t := by
  unfold whenUnverified at h
  split at h
  · exact ⟨‹_›, h⟩
  · cases h

/-! ## The handle -/

/-- The handle of a bound instance (R284): its descriptor with the proof, and its base. -/
def Bound.handle {s : State} (h : Bound s) : Handle :=
  { params := s.params, verified := h.verified, base := s.base.get h.base }

/-- A bound instance has that handle. -/
theorem handle_of_bound {s : State} (h : Bound s) : s.handle = some h.handle := by
  unfold State.handle Bound.handle
  rw [if_pos h.phase]
  split
  · next hb => have := h.base; rw [hb] at this; cases this
  · next b hb => rw [dif_pos h.verified]; simp only [hb, Option.get_some]

/-- Only a bound instance has a handle. -/
theorem bound_of_handle {s : State} {h : Handle} (hh : s.handle = some h) : Bound s := by
  unfold State.handle at hh
  by_cases hp : s.phase = .bound
  · rw [if_pos hp] at hh
    split at hh
    · cases hh
    · next b hb =>
      split at hh
      · exact ⟨hp, by rw [hb]; rfl, ‹_›⟩
      · cases hh
  · rw [if_neg hp] at hh; cases hh

/-- An operation of a bound instance is handed the handle. -/
theorem withHandle_of_bound {s : State} (h : Bound s) (f : Handle → Answer) : withHandle s f = f h.handle := by
  rw [withHandle, handle_of_bound h]

/-- With no handle it is refused (R149). -/
theorem withHandle_of_not {s : State} (h : ¬ Bound s) (f : Handle → Answer) : withHandle s f = .refused .notBound := by
  unfold withHandle
  split
  · rfl
  · next hh => exact absurd (bound_of_handle hh) h

/-- Past the gate the instance is bound. -/
theorem withHandle_next {s t : State} {f : Handle → Answer} (h : withHandle s f = .next t) :
    Bound s ∧ ∃ hd, f hd = .next t := by
  by_cases hb : Bound s
  · exact ⟨hb, hb.handle, by rwa [withHandle_of_bound hb] at h⟩
  · rw [withHandle_of_not hb] at h; cases h

/-- The handle's base is the bound one. -/
theorem handle_base {s : State} (h : Bound s) {b : Word} (hb : s.base = some b) : h.handle.base = b := by
  simp only [Bound.handle, hb, Option.get_some]

/-- In phase `BOUND` the invariant gives the handle (R280, R283). -/
theorem Invariant.bound {s : State} (h : Invariant s) (hp : s.phase = .bound) : Bound s :=
  ⟨hp, by rw [h.base_iff_bound, hp]; rfl, h.past_harness (.inr hp)⟩

/-- Being bound depends on the lifecycle and the parameters alone. -/
theorem Bound.of_launch {s t : State} (h : Bound s) (g : SameLaunch s t) : Bound t :=
  ⟨g.phase.trans h.phase, by rw [g.base]; exact h.base, by rw [g.params]; exact h.verified⟩

/-! ## Reading -/

/-- The value a read returns: the stored bits that are shown, the draw on the drawn ones, 0 on the zero bits. -/
theorem readValue_eq (r : Reg) (s : State) :
    readValue r s = (s.regs.get r &&& (~~~ drawnBits s r &&& ~~~ zeroBits s.params r)) |||
      (Config.freeWord s.draws &&& (drawnBits s r &&& ~~~ zeroBits s.params r)) := by
  unfold readValue
  rw [drawInto_eq_merge]
  unfold merge State.draw
  rw [Nat.add_zero]
  ext i hi
  simp only [BitVec.getElem_and, BitVec.getElem_or, BitVec.getElem_not]
  cases (s.regs.get r)[i] <;> cases (drawnBits s r)[i] <;> cases (zeroBits s.params r)[i] <;> simp

/-- A read of a word that is no status word, or of any word under `write_one_to_clear`, leaves the image alone. -/
theorem readEffect_regs (r : Reg) (s : State) (h : isStatus r = false ∨ s.params.flagClearRule = .writeOneToClear) :
    (readEffect r s).regs = s.regs := by
  unfold readEffect
  rcases h with h | h <;> simp [h]

/-- What a read changes: at most the word itself, and one draw. -/
theorem readEffect_frame (r : Reg) (s : State) : Frame (if isStatus r then [r] else []) s (readEffect r s) := by
  refine ⟨⟨rfl, rfl, rfl, rfl, rfl⟩, ⟨rfl, rfl⟩, fun q hq => ?_⟩
  cases h : isStatus r
  · rw [readEffect_regs r s (.inl h)]
  · rw [h] at hq
    unfold readEffect
    simp only [h, Bool.true_and]
    split
    · exact get_set_other _ _ _ _ (by simpa using hq)
    · rfl

/-! ## Writing -/

/-- The words a write of a word may change: itself, and `count` beside the two configuration words. -/
def touched : Reg → List Reg
  | .config => [.config, .count]
  | .control => [.control, .count]
  | r => [r]

/-- Stopping a counter half touches `count` alone. -/
theorem settleCount_frame (s t : State) : Frame [.count] t (settleCount s t) :=
  ⟨⟨rfl, rfl, rfl, rfl, rfl⟩, ⟨rfl, rfl⟩, fun q hq => get_set_other _ _ _ _ (by simpa using hq)⟩

/-- `count` after the halves that stopped are settled (R176, log entry 12). -/
theorem settleCount_count (s t : State) (k : Half) :
    halfOf k ((settleCount s t).regs.get .count) =
      if s.runs k = true ∧ t.runs k = false then halfOf k (Config.freeWord t.draws) else halfOf k (t.regs.get .count) := by
  have h : (settleCount s t).regs.get .count =
      merge (halvesMask fun k => s.runs k && !t.runs k) (t.regs.get .count) (Config.freeWord t.draws) := by
    rw [← drawInto_eq_merge]; rfl
  rw [h, halfOf_merge_halvesMask]
  cases s.runs k <;> cases t.runs k <;> simp

theorem writeConfig_frame (v : Word) (s : State) : Frame [.config, .count] s (writeConfig v s) :=
  (store_frame .config v s).trans (settleCount_frame s _)

theorem writeControl_frame (ks : List Half) (v : Word) (s : State) : Frame [.control, .count] s (writeControl ks v s) := by
  refine ⟨⟨rfl, rfl, rfl, rfl, rfl⟩, ⟨rfl, rfl⟩, fun q hq => ?_⟩
  simp only [List.mem_cons, List.not_mem_nil, or_false, not_or] at hq
  simp only [writeControl, settleCount]
  rw [get_set_other _ _ _ _ hq.2, get_set_other _ _ _ _ hq.2, get_set_other _ _ _ _ hq.1]

/-- `config` after a write of it. -/
theorem writeConfig_config (v : Word) (s : State) : (writeConfig v s).regs.get .config = v := rfl

/-- `control` after a write of it: `clear_counter` of the written halves is stored as 0. -/
theorem writeControl_control (ks : List Half) (v : Word) (s : State) :
    (writeControl ks v s).regs.get .control = v &&& ~~~ (zeroBits s.params .control &&& writtenMask ks) := rfl

/-- The counter bits a write of `control` clears, half by half (R171). -/
theorem clearedCount_half (ks : List Half) (v : Word) (s : State) (k : Half) :
    halfOf k (clearedCount ks v s) =
      if s.governor k ∈ ks ∧ fieldFlag s.params.ctrlLayout.clearCounter (halfOf (s.governor k) v) = true then ~~~ 0 else 0 := by
  unfold clearedCount State.governor
  cases hu : s.unify
  · simp only [Bool.false_eq_true, if_false]
    rw [halfOf_halvesMask]; simp
  · simp only [if_true, Bool.and_eq_true, decide_eq_true_eq]
    split <;> cases k <;> rfl

/-- The written halves are masked whole. -/
theorem halfOf_writtenMask (ks : List Half) (k : Half) : halfOf k (writtenMask ks) = if k ∈ ks then ~~~ 0 else 0 := by
  rw [writtenMask, halfOf_halvesMask]; simp

/-- `control` after a write of it, half by half (R171). -/
theorem writeControl_half (ks : List Half) (v : Word) (s : State) (k : Half) :
    halfOf k ((writeControl ks v s).regs.get .control) =
      if k ∈ ks then halfOf k v &&& ~~~ fieldMask 16 s.params.ctrlLayout.clearCounter else halfOf k v := by
  rw [writeControl_control, halfOf_and, halfOf_not, halfOf_and, halfOf_writtenMask, zeroBits, halfOf_inBothHalves]
  split
  · rw [and_ones]
  · rw [show fieldMask 16 s.params.ctrlLayout.clearCounter &&& 0 = 0 from by ext i hi; simp, and_ones]

/-- `count` after a write of `control`, half by half (R171, R176). -/
theorem writeControl_count (ks : List Half) (v : Word) (s : State) (k : Half) :
    halfOf k ((writeControl ks v s).regs.get .count) =
      if s.governor k ∈ ks ∧ fieldFlag s.params.ctrlLayout.clearCounter (halfOf (s.governor k) v) = true then 0
      else if s.runs k = true ∧ (writeControl ks v s).runs k = false then halfOf k (Config.freeWord s.draws)
      else halfOf k (s.regs.get .count) := by
  have h : (writeControl ks v s).regs.get .count =
      (settleCount s (store .control (v &&& ~~~ (zeroBits s.params .control &&& writtenMask ks)) s)).regs.get .count &&&
        ~~~ clearedCount ks v s := rfl
  rw [h, halfOf_and, halfOf_not, clearedCount_half, settleCount_count]
  by_cases hc : s.governor k ∈ ks ∧ fieldFlag s.params.ctrlLayout.clearCounter (halfOf (s.governor k) v) = true
  · rw [if_pos hc, if_pos hc]; ext i hi; simp
  · rw [if_neg hc, if_neg hc, and_ones]; rfl

/-- What a write effect does when it completes: it changes the words it touches, and neither the result nor the schedule. -/
theorem commit_frame {r : Reg} {ks : List Half} {v : Word} {s t : State} (h : commit r ks v s = .next t) :
    Frame (touched r) s t ∧ t.result = s.result ∧ t.between = s.between := by
  have stored : ∀ (q : Reg) (w : Word), Frame [q] s (store q w s) ∧ (store q w s).result = s.result ∧
      (store q w s).between = s.between := fun q w => ⟨store_frame q w s, rfl, rfl⟩
  cases r <;>
    simp only [commit, storeHalted, storeFlags, storeSlot] at h <;>
    try split at h
  all_goals
    first
      | (cases h; done)
      | (cases h; exact stored _ _)
      | (cases h; exact ⟨writeConfig_frame v s, rfl, rfl⟩)
      | (cases h; exact ⟨writeControl_frame ks v s, rfl, rfl⟩)

/-- A write effect is refused for nothing but the four grounds of the contract (R176, R177, R180, R211, R185, R178). -/
theorem commit_refused {r : Reg} {ks : List Half} {v : Word} {s : State} {e : Refusal} (h : commit r ks v s = .refused e) :
    ((r = .count ∨ r = .state ∨ r = .output) ∧ e = .counterRunning) ∨ ((∃ i, r = .matchCapture i) ∧ e = .captureModeWrite) ∨
      ((r = .eventOccurred ∨ r = .conflictOccurred) ∧ e = .flagWriteUnderReadClears) ∨ (r = .input ∧ e = .readOnly) := by
  cases r <;> simp only [commit, storeHalted, storeFlags, storeSlot] at h <;> (try split at h) <;>
    first
      | (cases h; done)
      | (cases h; simp)

/-- A write effect never faults. -/
theorem commit_no_fault (r : Reg) (ks : List Half) (v : Word) (s : State) (f : Fault) : commit r ks v s ≠ .fault f := by
  cases r <;> simp only [commit, storeHalted, storeFlags, storeSlot] <;> (try split) <;> simp

/-- What a 32-bit write does when it completes. -/
theorem write32_frame {hd : Handle} {r : Reg} {v : Word} {s t : State} (h : write32 hd r v s = .next t) :
    Frame (touched r) s t ∧ t.result = .nothing ∧ t.between = s.between :=
  have g := commit_frame h
  ⟨(silent_frame s).trans g.1, g.2.1, g.2.2⟩

/-- What a 16-bit write does when it completes. -/
theorem write16_frame {hd : Handle} {r : Reg} {k : Half} {v : HalfWord} {s t : State} (h : write16 hd r k v s = .next t) :
    Frame (touched r) s t ∧ t.result = .nothing ∧ t.between = s.between :=
  have g := commit_frame h
  ⟨(silent_frame s).trans g.1, g.2.1, g.2.2⟩

/-! ## Transactions -/

/-- What a 32-bit transaction does when it completes. -/
theorem transact32_next {r : Reg} {a : Access32} {s t : State} (h : transact32 r a s = .next t) :
    Bound s ∧ Frame (touched r) s t ∧ t.between = s.between := by
  obtain ⟨hb, _, h⟩ := withHandle_next h
  refine ⟨hb, ?_⟩
  cases a with
  | read =>
    cases h
    have g := readEffect_frame r s
    exact ⟨⟨⟨rfl, rfl, rfl, rfl, rfl⟩, ⟨rfl, rfl⟩, fun q hq =>
      g.words q (by cases r <;> simp_all [isStatus, touched])⟩, rfl⟩
  | write v => exact ⟨(write32_frame h).1, (write32_frame h).2.2⟩

/-- What a 16-bit transaction does when it completes. -/
theorem transact16_next {r : Reg} {k : Half} {a : Access16} {s t : State} (h : transact16 r k a s = .next t) :
    Bound s ∧ Frame (touched r) s t ∧ t.between = s.between := by
  obtain ⟨hb, _, h⟩ := withHandle_next h
  refine ⟨hb, ?_⟩
  cases a with
  | read =>
    cases h
    have g := readEffect_frame r s
    exact ⟨⟨⟨rfl, rfl, rfl, rfl, rfl⟩, ⟨rfl, rfl⟩, fun q hq =>
      g.words q (by cases r <;> simp_all [isStatus, touched])⟩, rfl⟩
  | write v => exact ⟨(write16_frame h).1, (write16_frame h).2.2⟩

/-- Every transaction is a 32-bit or a 16-bit one on one word of the map (R103). -/
theorem exec_transaction {i : Instr} (h : isTransaction i = true) :
    ∃ r, ((∃ a, ∀ s, exec i s = transact32 r a s) ∨ ∃ k a, ∀ s, exec i s = transact16 r k a s) ∧
      (r = .eventOccurred → ∃ a, i = .eventOccurred a) ∧ (r = .conflictOccurred → ∃ a, i = .conflictOccurred a) := by
  cases i <;>
    first
      | (simp [isTransaction] at h; done)
      | exact ⟨.input, .inl ⟨.read, fun _ => rfl⟩, by simp, by simp⟩
      | exact ⟨_, .inl ⟨_, fun _ => rfl⟩, by simp, by simp⟩
      | exact ⟨_, .inr ⟨_, _, fun _ => rfl⟩, by simp, by simp⟩

/-- The read of a view is one transaction of its declared width on its storage (R140, R142). -/
theorem exec_read (v : View) (s : State) :
    exec (transactionOf v false 0) s =
      match storage v with
      | (r, .whole) => transact32 r .read s
      | (r, .half k) => transact16 r k .read s := by
  cases v <;> rfl

/-- A view has 32 bits when it addresses a whole word, 16 when it addresses a half (R27, R46). -/
theorem bits_eq (v : View) : v.bits = match (storage v).2 with | .whole => 32 | .half _ => 16 := by
  cases v <;> rfl

/-! ## The exception -/

/-- The end of a check: the phase is kept on a pass, `BUILD_HALTED` on a failure, and the image, the base and the parameters are
kept in both cases. -/
theorem settleCheck_cases (f : Option BuildFailure) (s : State) :
    (f = none ∧ settleCheck f s = { s with result := .passed }) ∨
      ∃ e, f = some e ∧ settleCheck f s = { s with phase := .buildHalted, failure := some e, result := .nothing } := by
  cases f with
  | none => exact .inl ⟨rfl, rfl⟩
  | some e => exact .inr ⟨e, rfl, rfl⟩

end Sys2Proof.Machine
end

