-- ==== Sys2Proof/Laws/Sct.lean ====
section
/-! SUPPORT. What an evaluation of the SCT agent, and a run of them between two transactions, can change. -/

namespace Sys2Proof.Machine

/-! ## Firing sets -/

/-- Membership in the firing set is firing (R246). -/
theorem mem_firingSet (s : State) (d : EvalDraws) (e : Slot) : e ∈ s.firingSet d ↔ s.fires d e = true := by
  simp [State.firingSet]

/-- Some event of a set has its bit in a table word (R248). -/
theorem hits_iff (F : List Slot) (w : Word) (off : Nat) :
    hits F w off = true ↔ ∃ e ∈ F, w.getLsbD (off + e.val) = true := by
  simp [hits]

/-- A reserved value is in force exactly where the spec's four conditions fail (R131, log entry 14). -/
theorem reservedInForce_iff (s : State) : s.reservedInForce = false ↔ NoReservedValue s := by
  unfold State.reservedInForce
  simp only [Bool.or_eq_false_iff, decide_eq_false_iff_not, List.any_eq_false, List.mem_finRange, true_implies, Bool.not_eq_true,
    State.recordReserved, Bool.and_eq_false_iff, Bool.not_eq_false', decide_eq_true_eq, not_le]
  exact ⟨fun h => ⟨h.1.1, h.1.2, fun e => (h.2 e).1, fun e => (h.2 e).2⟩,
    fun h => ⟨⟨h.clock, h.states⟩, fun e => ⟨h.next e, h.input e⟩⟩⟩

theorem evaluate_of_reserved {d : EvalDraws} {s : State} (h : s.reservedInForce = true) :
    evaluate d s = evaluateReserved s := by simp [evaluate, h]

theorem evaluate_of_rules {d : EvalDraws} {s : State} (h : s.reservedInForce = false) :
    evaluate d s = evaluateRules d (s.firingSet d) s := by simp [evaluate, h]

/-- With no reserved value in force an evaluation is one by the rules. -/
theorem evaluate_rules {d : EvalDraws} {s : State} (h : NoReservedValue s) :
    evaluate d s = evaluateRules d (s.firingSet d) s := evaluate_of_rules ((reservedInForce_iff s).2 h)

/-- After an evaluation by the rules the fired events are the firing set. -/
theorem fired_evaluateRules (d : EvalDraws) (F : List Slot) (s : State) (e : Slot) :
    (evaluateRules d F s).fired e ↔ e ∈ F := by
  have he := e.isLt
  simp only [State.fired, evaluateRules, BitVec.getLsbD_setWidth, getLsbD_slotBits, he]
  simp

/-- An event of the set acts through a table exactly when it fired with its bit there. -/
theorem tableHit_evaluateRules (d : EvalDraws) (F : List Slot) (s : State) (w : Word) (off : Nat) :
    (evaluateRules d F s).tableHit w off ↔ hits F w off = true := by
  simp only [State.tableHit, fired_evaluateRules, hits_iff]

/-- What an operation returned and what is scheduled inside it do not reach an evaluation. -/
theorem evaluate_with (d : EvalDraws) (s : State) (x : Result) (ds : List EvalDraws) :
    evaluate d { s with result := x, between := ds } = { evaluate d s with result := x, between := ds } := by
  have h : { s with result := x, between := ds }.reservedInForce = s.reservedInForce := rfl
  rw [evaluate, evaluate, h]
  split <;> rfl

/-! ## The words of an evaluation, half by half -/

/-- A flag put into a control register moves its own bit alone. -/
theorem getLsbD_putFlag (f : SubField) (b : Bool) (v : HalfWord) (i : Nat) (h16 : i < 16) :
    (putFlag f b v).getLsbD i = if i = f.off then b else v.getLsbD i := by
  rw [putFlag, getLsbD_insert]
  by_cases h : i = f.off
  · subst h; cases b <;> simp [h16]
  · have h' : ¬ (f.off ≤ i ∧ i < f.off + 1) := by omega
    simp only [h, h', if_false]

/-- `control` after an evaluation (R250): the two flags of every half in use, nothing else. -/
theorem newControl_half (s : State) (F : List Slot) (k : Half) :
    halfOf k (s.newControl F) =
      if k ∈ s.halvesInUse then
        putFlag s.params.ctrlLayout.haltSct (s.newHalt F k) (putFlag s.params.ctrlLayout.pauseCounter (s.newPause F k) (s.controlOf k))
      else s.controlOf k := by
  unfold State.newControl State.halvesInUse State.controlOf
  cases s.unify <;> cases k <;> simp [halfOf_withHalf_other, halfOf_withHalf_same]

/-- The state id put into `state` is read back. -/
theorem stateId_insert_same (w : Word) (k : Half) (x : StateId) :
    (insert w (halfOff k) 5 (x.setWidth 32)).extractLsb' (halfOff k) 5 = x := by
  ext i hi
  have h1 : halfOff k ≤ halfOff k + i ∧ halfOff k + i < halfOff k + 5 := by omega
  have h2 : halfOff k + i < 32 := by cases k <;> simp [halfOff] <;> omega
  have h3 : i < 32 := by omega
  simp only [BitVec.getElem_extractLsb', getLsbD_insert, if_pos h1, h2, decide_true, Bool.true_and, Nat.add_sub_cancel_left,
    BitVec.getLsbD_setWidth, h3, BitVec.getLsbD_eq_getElem hi]

/-- The other half's state id is kept. -/
theorem stateId_insert_other (w : Word) (j k : Half) (x : Word) (h : k ≠ j) :
    (insert w (halfOff j) 5 x).extractLsb' (halfOff k) 5 = w.extractLsb' (halfOff k) 5 := by
  ext i hi
  have h1 : ¬ (halfOff j ≤ halfOff k + i ∧ halfOff k + i < halfOff j + 5) := by
    cases j <;> cases k <;> simp [halfOff] at h ⊢ <;> omega
  simp only [BitVec.getElem_extractLsb', getLsbD_insert, if_neg h1]

/-- `state` after an evaluation (R247): the state id of every half in use. -/
theorem newState_id (s : State) (F : List Slot) (k : Half) :
    (s.newState F).extractLsb' (halfOff k) 5 =
      if k ∈ s.halvesInUse then s.newStateId (s.firingOf F k) k else s.stateId k := by
  unfold State.newState State.halvesInUse
  cases s.unify <;> cases k <;> simp [stateId_insert_same, stateId_insert_other, State.stateId]

/-- The bits of `state` outside the two ids are kept. -/
theorem newState_other (s : State) (F : List Slot) : s.newState F &&& outsideStates = s.regs.state &&& outsideStates := by
  have key : ∀ (w : Word) (k : Half) (x : Word), insert w (halfOff k) 5 x &&& outsideStates = w &&& outsideStates := by
    intro w k x
    have h0 : mask 32 (halfOff k) 5 &&& outsideStates = 0 := by cases k <;> decide
    apply BitVec.eq_of_getLsbD_eq
    intro i hi
    have h0i := congrArg (·.getLsbD i) h0
    simp only [BitVec.getLsbD_and] at h0i
    simp only [Machine.insert, BitVec.getLsbD_and, BitVec.getLsbD_or, BitVec.getLsbD_not, hi]
    revert h0i
    cases (mask 32 (halfOff k) 5).getLsbD i <;> cases outsideStates.getLsbD i <;> simp
  unfold State.newState State.halvesInUse
  cases s.unify <;> simp [key]

/-- `count` after an evaluation with the halves split (R250, R256): a clear that is not suppressed zeroes its half; otherwise a half
that runs is at the counter value of the evaluation and the other keeps its value. -/
theorem newCount_half (s : State) (d : EvalDraws) (F : List Slot) (k : Half) (hu : s.unify = false) :
    halfOf k (s.newCount d F) =
      if hits F s.regs.clearOnEvent (halfOff k) = true ∧ s.preventReload k = false then 0
      else if s.runs k = true then halfOf k d.cnt else halfOf k s.regs.count := by
  unfold State.newCount State.countNow
  simp only [hu, Bool.false_eq_true, if_false, halfOf_and, halfOf_not, halfOf_halvesMask, halfOf_merge_halvesMask]
  cases hits F s.regs.clearOnEvent (halfOff k) <;> cases s.preventReload k <;> simp only [Bool.not_true, Bool.not_false,
    Bool.and_true, Bool.and_false, Bool.false_eq_true, if_false, if_true, and_true, and_false, reduceCtorEq, and_ones, not_not_bits]
  ext i hi; simp

/-- The bits of `control` the SCT agent may change are the flags of the two control registers; an evaluation keeps the others
(R25, R343). -/
theorem evaluate_control (d : EvalDraws) (s : State) (h : s.params.legal = true) :
    (evaluate d s).regs.control &&& ~~~ agentControlBits s.params = s.regs.control &&& ~~~ agentControlBits s.params := by
  cases hf : s.reservedInForce
  · rw [evaluate_of_rules hf]
    refine word_ext_halves _ _ fun k => ?_
    have hc : (evaluateRules d (s.firingSet d) s).regs.control = s.newControl (s.firingSet d) := rfl
    rw [hc, halfOf_and, halfOf_and, newControl_half]
    split
    · obtain ⟨-, h2⟩ := legal_ctrl h
      simp only [CtrlLayout.fields, List.map_cons, List.map_nil, List.cons.injEq, and_true] at h2
      obtain ⟨-, hp, hh, -⟩ := h2
      unfold agentControlBits
      rw [halfOf_not, halfOf_inBothHalves]
      apply BitVec.eq_of_getLsbD_eq
      intro i hi
      simp only [BitVec.getLsbD_and, BitVec.getLsbD_not, BitVec.getLsbD_or, hi, getLsbD_putFlag _ _ _ _ hi, fieldMask, getLsbD_mask, hp, hh,
        State.controlOf, decide_true, Bool.true_and]
      by_cases h1 : i = s.params.ctrlLayout.haltSct.off
      · subst h1; simp
      · by_cases h2 : i = s.params.ctrlLayout.pauseCounter.off
        · subst h2; simp
        · simp only [h1, h2, if_false]
    · rfl
  · rw [evaluate_of_reserved hf]
    apply BitVec.eq_of_getLsbD_eq
    intro i hi
    simp only [evaluateReserved, BitVec.getLsbD_and, BitVec.getLsbD_not, getLsbD_merge, hi]
    cases (agentControlBits s.params).getLsbD i <;> simp

/-! ## Frames -/

/-- An evaluation by the rules changes only the device's words (R25). -/
theorem evaluateRules_words (d : EvalDraws) (F : List Slot) (s : State) :
    WordsKeptExcept (agentWords s.params) s (evaluateRules d F s) := by
  intro r hr
  unfold agentWords at hr
  cases hm : s.params.slotMode <;> rw [hm] at hr <;> cases r <;>
    first
      | rfl
      | (simp at hr; done)
      | simp [evaluateRules, Regs.get, State.newSlots, hm]

/-- An evaluation under a reserved value changes only the device's words (R131, R25). -/
theorem evaluateReserved_words (s : State) : WordsKeptExcept (agentWords s.params) s (evaluateReserved s) := by
  intro r hr
  unfold agentWords at hr
  cases hm : s.params.slotMode <;> rw [hm] at hr <;> cases r <;>
    first
      | rfl
      | (simp at hr; done)
      | simp [evaluateReserved, Regs.get, hm]

/-- An evaluation changes only the device's words (R25). -/
theorem evaluate_words (d : EvalDraws) (s : State) : WordsKeptExcept (agentWords s.params) s (evaluate d s) := by
  intro r hr
  cases hf : s.reservedInForce
  · rw [evaluate_of_rules hf]
    exact evaluateRules_words d _ s r hr
  · rw [evaluate_of_reserved hf]
    exact evaluateReserved_words s r hr

/-- So does a run of evaluations. -/
theorem foldEvaluate_words (ds : List EvalDraws) (s : State) :
    WordsKeptExcept (agentWords s.params) s (ds.foldl (fun t d => evaluate d t) s) := by
  induction ds generalizing s with
  | nil => exact fun _ _ => rfl
  | cons d ds ih =>
    intro r hr
    rw [List.foldl_cons, ih (evaluate d s) r (by rwa [evaluate_params]), evaluate_words d s r hr]

/-- The evaluations between two transactions change only the device's words (R25, R81). -/
theorem runBetween_words (s : State) : WordsKeptExcept (agentWords s.params) s (runBetween s) := foldEvaluate_words _ s

/-- The evaluations between two transactions do not change the lifecycle, the parameters or the waiting operations. -/
theorem runBetween_launch (s : State) : SameLaunch s (runBetween s) :=
  ⟨runBetween_phase s, runBetween_base s, runBetween_failure s, runBetween_params s, runBetween_queue s⟩

/-- Nor a run of them. -/
theorem foldEvaluate_with (ds : List EvalDraws) (s : State) (x : Result) (es : List EvalDraws) :
    ds.foldl (fun t d => evaluate d t) { s with result := x, between := es } =
      { ds.foldl (fun t d => evaluate d t) s with result := x, between := es } := by
  induction ds generalizing s with
  | nil => rfl
  | cons d ds ih => rw [List.foldl_cons, List.foldl_cons, evaluate_with, ih]

/-- The first of the scheduled evaluations, then the others (R81, R86). -/
theorem runBetween_cons (s : State) (d : EvalDraws) (ds : List EvalDraws) (h : s.between = d :: ds) :
    runBetween s = runBetween { evaluate d s with between := ds } := by
  unfold runBetween
  rw [h, List.foldl_cons]
  have hr : (ds.foldl (fun t d => evaluate d t) (evaluate d s)).result = (evaluate d s).result := foldEvaluate_result ds _
  refine ((congrArg (fun t : State => { t with between := [] })
    (foldEvaluate_with ds (evaluate d s) (evaluate d s).result ds)).trans ?_).symm
  simp only [← hr]

/-- A run of evaluations does not depend on what the first transaction returned. -/
theorem runBetween_with (s : State) (x : Result) : runBetween { s with result := x } = { runBetween s with result := x } := by
  unfold runBetween
  exact congrArg (fun t : State => { t with between := [] }) (foldEvaluate_with s.between s x s.between)

/-- A software-owned word is none of the device's (R25). -/
theorem softwareOwned_kept {p : Params} {r : Reg} (h : softwareOwned p r = true) : r ∉ agentWords p := by
  unfold agentWords
  cases hm : p.slotMode <;> cases r <;> simp_all [softwareOwned]

end Sys2Proof.Machine
end

