-- ==== Sys2Proof/Laws/Fields.lean ====
section
/-! SUPPORT. What a sub-field write does on the words only software owns (spec/40_transactions.md R146, spec/10_state.md R25). -/

namespace Sys2Proof.Machine

/-- A pair in its view passes the check of R110. -/
theorem field_pair {reg : View} {o w : Nat} (hw : 1 ≤ w) (ho : o + w ≤ reg.bits) : fieldPairOk reg.bits o w = true := by
  simp [fieldPairOk, hw, ho]

/-- A write of a software-owned word is a plain store; of `config` it also settles `count`. -/
theorem commit_owned {r : Reg} {s : State} (h : softwareOwned s.params r = true) (ks : List Half) (v : Word) :
    commit r ks v s = .next (if r = .config then writeConfig v s else store r v s) := by
  cases r <;> first | rfl | (simp [softwareOwned] at h; done) | (simp [softwareOwned] at h; simp [commit, storeSlot, h])

/-- The word holds the value. -/
theorem owned_get {p : Params} {r : Reg} (h : softwareOwned p r = true) (v : Word) (s : State) :
    (if r = .config then writeConfig v s else store r v s).regs.get r = v := by
  split
  · next h => subst h; rfl
  · rw [store_regs, get_set_same]; rintro rfl; simp [softwareOwned] at h

/-- Nothing else changes. -/
theorem owned_frame {r : Reg} (v : Word) (s : State) :
    Frame (if r = .config then [.config, .count] else [r]) s (if r = .config then writeConfig v s else store r v s) := by
  split
  · exact writeConfig_frame v s
  · exact store_frame r v s

/-- `input` is not software-owned. -/
theorem owned_not_input {p : Params} {reg : View} (h : softwareOwned p (storage reg).1 = true) : reg ≠ .input := by
  rintro rfl; simp [storage, softwareOwned] at h

/-- The status words are not software-owned. -/
theorem owned_status {p : Params} {r : Reg} (h : softwareOwned p r = true) : isStatus r = false := by
  cases r <;> simp_all [softwareOwned, isStatus]

/-- `FIELD_WR` past its checks (R146). -/
theorem exec_fieldWr {s : State} {reg : View} {o w : Nat} {f : Word} (hb : Bound s) (hw : 1 ≤ w) (ho : o + w ≤ reg.bits)
    (hf : f.toNat < 2 ^ w) (hi : reg ≠ .input) : exec (.fieldWr reg o w f) s = fieldWrite hb.handle reg o w f s := by
  refine (withHandle_of_bound hb _).trans ?_
  rw [field_pair hw ho, if_pos rfl, if_pos hf, if_neg hi]

/-- `config` has one view. -/
theorem config_view {reg : View} : (storage reg).1 = .config ↔ reg = .config := by cases reg <;> simp [storage]

/-- The state after a `FIELD_WR` on a software-owned word (R146). -/
def ownedNext (reg : View) (o w : Nat) (f : Word) (s : State) : State :=
  let r := (storage reg).1
  let u := (runBetween (readEffect r s)).silent
  let v := match (storage reg).2 with
    | .whole => insert (readValue r s) o w f
    | .half k => withHalf k (u.regs.get r) (insert (halfOf k (readValue r s)) o w (f.setWidth 16))
  if r = .config then writeConfig v u else store r v u

/-- `FIELD_WR` on a software-owned word completes with that state. -/
theorem exec_fieldWr_owned {s : State} {reg : View} {o w : Nat} {f : Word} (hb : Bound s) (hs : softwareOwned s.params (storage reg).1 = true)
    (hw : 1 ≤ w) (ho : o + w ≤ reg.bits) (hf : f.toNat < 2 ^ w) : exec (.fieldWr reg o w f) s = .next (ownedNext reg o w f s) := by
  rw [exec_fieldWr hb hw ho hf (owned_not_input hs), fieldWrite, ownedNext]
  rcases hst : storage reg with ⟨r, _ | k⟩ <;> rw [hst] at hs <;> exact commit_owned (by simpa using hs) _ _

end Sys2Proof.Machine
end

