-- ==== Sys2Proof/Laws/PerInstr.lean ====
section
/-! SUPPORT. One statement per operation as syntax: the two head bits of its code. A format-`N` operation (spec/30_encoding.md R105) has
bit 15 of the code set, a transaction (R100) has it clear, and bit 14 is never set (log entry 1). -/

namespace Sys2Proof.Laws.HeadBits

open Sys2Proof Machine

/-- The head bits of the code of an operation. -/
def Statement (i : Instr) : Prop :=
  (encode i).code.getLsbD 15 = !isTransaction i ∧ (encode i).code.getLsbD 14 = false

/-- The code of a view has thirteen bits. -/
theorem view_bit (v : View) (w : HalfWord) (j : Nat) (h : 13 ≤ j) :
    (w ||| v.code.setWidth 16).getLsbD j = w.getLsbD j := by
  rw [BitVec.getLsbD_or, BitVec.getLsbD_setWidth, BitVec.getLsbD_of_ge v.code j h]; simp

/-- The head bits of a 32-bit transaction. -/
theorem word_bits (v : View) (a : Access32) :
    (encode32 v a).code.getLsbD 15 = false ∧ (encode32 v a).code.getLsbD 14 = false := by
  cases a with
  | read => simp [encode32]
  | write x => exact ⟨view_bit v 0x2000 15 (by omega), view_bit v 0x2000 14 (by omega)⟩

/-- The head bits of a 16-bit transaction. -/
theorem half_bits (v : View) (a : Access16) :
    (encode16 v a).code.getLsbD 15 = false ∧ (encode16 v a).code.getLsbD 14 = false := by
  cases a with
  | read => simp [encode16]
  | write x => exact ⟨view_bit v 0x2000 15 (by omega), view_bit v 0x2000 14 (by omega)⟩

/-- The head bits of a format-`N` operation. -/
theorem selected_bits (i : Instr) (n : Fin 10) (h : (encode i).code = 0x8000 ||| BitVec.ofNat 16 n.val)
    (ht : isTransaction i = false) : Statement i := by
  unfold Statement
  rw [h, ht]
  exact (by decide : ∀ n : Fin 10, (0x8000 ||| BitVec.ofNat 16 n.val : HalfWord).getLsbD 15 = !false ∧
    (0x8000 ||| BitVec.ofNat 16 n.val : HalfWord).getLsbD 14 = false) n

theorem config (a : Access32) : Statement (.config a) := word_bits _ a
theorem control (a : Access32) : Statement (.control a) := word_bits _ a
theorem controlLow (a : Access16) : Statement (.controlLow a) := half_bits _ a
theorem controlHigh (a : Access16) : Statement (.controlHigh a) := half_bits _ a
theorem clearOnEvent (a : Access32) : Statement (.clearOnEvent a) := word_bits _ a
theorem clearOnEventLow (a : Access16) : Statement (.clearOnEventLow a) := half_bits _ a
theorem clearOnEventHigh (a : Access16) : Statement (.clearOnEventHigh a) := half_bits _ a
theorem haltOnEvent (a : Access32) : Statement (.haltOnEvent a) := word_bits _ a
theorem haltOnEventLow (a : Access16) : Statement (.haltOnEventLow a) := half_bits _ a
theorem haltOnEventHigh (a : Access16) : Statement (.haltOnEventHigh a) := half_bits _ a
theorem stopOnEvent (a : Access32) : Statement (.stopOnEvent a) := word_bits _ a
theorem stopOnEventLow (a : Access16) : Statement (.stopOnEventLow a) := half_bits _ a
theorem stopOnEventHigh (a : Access16) : Statement (.stopOnEventHigh a) := half_bits _ a
theorem startOnEvent (a : Access32) : Statement (.startOnEvent a) := word_bits _ a
theorem startOnEventLow (a : Access16) : Statement (.startOnEventLow a) := half_bits _ a
theorem startOnEventHigh (a : Access16) : Statement (.startOnEventHigh a) := half_bits _ a
theorem count (a : Access32) : Statement (.count a) := word_bits _ a
theorem countLow (a : Access16) : Statement (.countLow a) := half_bits _ a
theorem countHigh (a : Access16) : Statement (.countHigh a) := half_bits _ a
theorem state (a : Access32) : Statement (.state a) := word_bits _ a
theorem stateLow (a : Access16) : Statement (.stateLow a) := half_bits _ a
theorem stateHigh (a : Access16) : Statement (.stateHigh a) := half_bits _ a
theorem input : Statement (.input) := word_bits _ .read
theorem registerMode (a : Access32) : Statement (.registerMode a) := word_bits _ a
theorem registerModeLow (a : Access16) : Statement (.registerModeLow a) := half_bits _ a
theorem registerModeHigh (a : Access16) : Statement (.registerModeHigh a) := half_bits _ a
theorem output (a : Access32) : Statement (.output a) := word_bits _ a
theorem outputDirectionControl (a : Access32) : Statement (.outputDirectionControl a) := word_bits _ a
theorem conflictResolution (a : Access32) : Statement (.conflictResolution a) := word_bits _ a
theorem dmaRequest0 (a : Access32) : Statement (.dmaRequest0 a) := word_bits _ a
theorem dmaRequest1 (a : Access32) : Statement (.dmaRequest1 a) := word_bits _ a
theorem interruptOnEvent (a : Access32) : Statement (.interruptOnEvent a) := word_bits _ a
theorem eventOccurred (a : Access32) : Statement (.eventOccurred a) := word_bits _ a
theorem interruptOnConflict (a : Access32) : Statement (.interruptOnConflict a) := word_bits _ a
theorem conflictOccurred (a : Access32) : Statement (.conflictOccurred a) := word_bits _ a
theorem matchCapture (i : Slot) (a : Access32) : Statement (.matchCapture i a) := word_bits _ a
theorem matchCaptureLow (i : Slot) (a : Access16) : Statement (.matchCaptureLow i a) := half_bits _ a
theorem matchCaptureHigh (i : Slot) (a : Access16) : Statement (.matchCaptureHigh i a) := half_bits _ a
theorem matchAliasLow (i : Slot) (a : Access16) : Statement (.matchAliasLow i a) := half_bits _ a
theorem matchAliasHigh (i : Slot) (a : Access16) : Statement (.matchAliasHigh i a) := half_bits _ a
theorem captureControl (i : Slot) (a : Access32) : Statement (.captureControl i a) := word_bits _ a
theorem captureControlLow (i : Slot) (a : Access16) : Statement (.captureControlLow i a) := half_bits _ a
theorem captureControlHigh (i : Slot) (a : Access16) : Statement (.captureControlHigh i a) := half_bits _ a
theorem captureControlAliasLow (i : Slot) (a : Access16) : Statement (.captureControlAliasLow i a) := half_bits _ a
theorem captureControlAliasHigh (i : Slot) (a : Access16) : Statement (.captureControlAliasHigh i a) := half_bits _ a
theorem eventEnabledInState (i : Slot) (a : Access32) : Statement (.eventEnabledInState i a) := word_bits _ a
theorem eventControl (i : Slot) (a : Access32) : Statement (.eventControl i a) := word_bits _ a
theorem outputOnEventSet (i : Slot) (a : Access32) : Statement (.outputOnEventSet i a) := word_bits _ a
theorem outputOnEventClear (i : Slot) (a : Access32) : Statement (.outputOnEventClear i a) := word_bits _ a
theorem verify : Statement (.verify) := selected_bits _ 0 rfl rfl
theorem checkOffset (name : FieldName) (documented : Nat) : Statement (.checkOffset name documented) := selected_bits _ 1 rfl rfl
theorem checkSize (documented : Nat) : Statement (.checkSize documented) := selected_bits _ 2 rfl rfl
theorem checkStride (name : FieldName) (declared : Nat) : Statement (.checkStride name declared) := selected_bits _ 3 rfl rfl
theorem bind (base : Word) : Statement (.bind base) := selected_bits _ 4 rfl rfl
theorem fieldRd (reg : View) (off width : Nat) : Statement (.fieldRd reg off width) := selected_bits _ 5 rfl rfl
theorem fieldWr (reg : View) (off width : Nat) (f : Word) : Statement (.fieldWr reg off width f) := selected_bits _ 6 rfl rfl
theorem slotAddr (arr : SlotArray) (index : Nat) (sel : SlotSelect) : Statement (.slotAddr arr index sel) := selected_bits _ 7 rfl rfl
theorem sctEval (d : EvalDraws) : Statement (.sctEval d) := selected_bits _ 8 rfl rfl
theorem configureEvent (slot : Nat) (fields : EventFields) (gate : Word) : Statement (.configureEvent slot fields gate) := selected_bits _ 9 rfl rfl

end Sys2Proof.Laws.HeadBits
end

