-- ==== Sys2Proof/Laws/Shapes.lean ====
section
/-! SUPPORT. When a transaction has one of the shapes of Safety.lean. -/

namespace Sys2Proof.Machine

/-- A 32-bit read has the shape `WordRead`. -/
theorem wordRead_of {mk : Access32 → Instr} {r : Reg} {sh dr : State → Word}
    (he : ∀ s, exec (mk .read) s = transact32 r .read s)
    (hs : ∀ s : State, s.params.flagClearRule = .writeOneToClear ∨ isStatus r = false)
    (h1 : ∀ s, ~~~ drawnBits s r &&& ~~~ zeroBits s.params r = sh s)
    (h2 : ∀ s, drawnBits s r &&& ~~~ zeroBits s.params r = dr s) : WordRead mk r sh dr := by
  intro s hb
  refine ⟨read32 hb.handle r s, ?_, ?_, rfl, rfl, ⟨⟨rfl, rfl, rfl, rfl, rfl⟩, ⟨rfl, rfl⟩, ?_⟩⟩
  · rw [he, transact32, withHandle_of_bound hb]
  · rw [read32_result, readValue_eq, h1, h2]
  · intro q _
    rw [read32_regs, readEffect_regs r s (hs s).symm]

/-- A 16-bit read has the shape `HalfRead`. -/
theorem halfRead_of {mk : Access16 → Instr} {r : Reg} {k : Half} {sh dr : State → HalfWord}
    (he : ∀ s, exec (mk .read) s = transact16 r k .read s)
    (hs : isStatus r = false)
    (h1 : ∀ s, halfOf k (~~~ drawnBits s r &&& ~~~ zeroBits s.params r) = sh s)
    (h2 : ∀ s, halfOf k (drawnBits s r &&& ~~~ zeroBits s.params r) = dr s) : HalfRead mk r k sh dr := by
  intro s hb
  refine ⟨read16 hb.handle r k s, ?_, ?_, rfl, rfl, ⟨⟨rfl, rfl, rfl, rfl, rfl⟩, ⟨rfl, rfl⟩, ?_⟩⟩
  · rw [he, transact16, withHandle_of_bound hb]
  · rw [read16_result, readValue_eq, ← h1, ← h2, halfOf_or, halfOf_and, halfOf_and]; simp only [halfOf_and]
  · intro q _
    rw [read16_regs, readEffect_regs r s (.inl hs)]

/-- A 32-bit write whose effect is a plain store has the shape `WordWrite`. -/
theorem wordWrite_of {mk : Access32 → Instr} {r : Reg} {ok : State → Prop} {kept : Params → Word}
    (he : ∀ s v, exec (mk (.write v)) s = transact32 r (.write v) s)
    (hi : r ≠ .input)
    (hc : ∀ s v, ok s → commit r [.low, .high] v s.silent = .next (store r v s.silent))
    (hk : ∀ p, ~~~ reservedBits p r = kept p) : WordWrite mk r ok kept := by
  intro s v hb ho
  refine ⟨store r (v &&& ~~~ reservedBits s.params r) s.silent, ?_, ?_, rfl, rfl, rfl, ?_⟩
  · rw [he, transact32, withHandle_of_bound hb]; exact hc _ _ ho
  · rw [store_regs, get_set_same _ _ _ hi, hk]
  · exact (silent_frame s).trans (store_frame r _ _)

/-- A 16-bit write whose effect is a plain store has the shape `HalfWrite`. -/
theorem halfWrite_of {mk : Access16 → Instr} {r : Reg} {k : Half} {ok : State → Prop} {kept : Params → HalfWord}
    (he : ∀ s v, exec (mk (.write v)) s = transact16 r k (.write v) s)
    (hi : r ≠ .input)
    (hc : ∀ s v, ok s → commit r [k] v s.silent = .next (store r v s.silent))
    (hk : ∀ p, ~~~ halfOf k (reservedBits p r) = kept p) : HalfWrite mk r k ok kept := by
  intro s v hb ho
  refine ⟨store r (withHalf k (s.regs.get r) (v &&& ~~~ halfOf k (reservedBits s.params r))) s.silent, ?_, ?_, ?_, rfl, rfl, rfl, ?_⟩
  · rw [he, transact16, withHandle_of_bound hb]; exact hc _ _ ho
  · rw [store_regs, get_set_same _ _ _ hi, hk, halfOf_withHalf_same]
  · rw [store_regs, get_set_same _ _ _ hi]; exact halfOf_withHalf_other _ _ _ _ (by cases k <;> simp [otherHalf])
  · exact (silent_frame s).trans (store_frame r _ _)

end Sys2Proof.Machine
end

