-- ==== Sys2Proof/Tests/Slice0.lean ====
section
/-! SUPPORT. The session's own tests: the well-formedness smoke, decoding of words written out from spec/30_encoding.md R100 to
R105, and the vectors of spec/95_test_vectors.md. -/

namespace Sys2Proof.Tests

open Sys2Proof Machine

/-! ## Well-formedness smoke: one ill-formed term for each check -/

theorem test_wf_offset_too_wide : (Instr.checkOffset .count (2 ^ 32)).wellFormed = false := by decide
theorem test_wf_name_not_numbered : (Instr.checkOffset (.other 0x8000) 0).wellFormed = false := by decide
theorem test_wf_padding_name_not_numbered : (Instr.checkStride (.reserved 0x1000) 0).wellFormed = false := by decide
theorem test_wf_size_too_wide : (Instr.checkSize (2 ^ 32)).wellFormed = false := by decide
theorem test_wf_stride_too_wide : (Instr.checkStride .event (2 ^ 32)).wellFormed = false := by decide
theorem test_wf_base_misaligned : (Instr.bind 0x40000002).wellFormed = false := by decide
theorem test_wf_base_wraps : (Instr.bind 0xFFFFFC00).wellFormed = false := by decide
theorem test_wf_base_last : (Instr.bind 0xFFFFFA80).wellFormed = true := by decide
theorem test_wf_field_width_zero : (Instr.fieldRd .config 3 0).wellFormed = false := by decide
theorem test_wf_field_past_word : (Instr.fieldRd .config 30 3).wellFormed = false := by decide
theorem test_wf_field_past_half : (Instr.fieldRd .controlLow 12 5).wellFormed = false := by decide
theorem test_wf_field_value_too_wide : (Instr.fieldWr .controlLow 5 8 0x100).wellFormed = false := by decide
theorem test_wf_field_write_input : (Instr.fieldWr .input 0 1 0).wellFormed = false := by decide
theorem test_wf_slot_sixteen : (Instr.slotAddr .event 16 .control).wellFormed = false := by decide
theorem test_wf_selector_undeclared : (Instr.slotAddr .matchAliasLow 0 .word).wellFormed = false := by decide
theorem test_wf_configure_slot_sixteen :
    (Instr.configureEvent 16 ⟨0, 0, 0, 0, 0, 0, 0, 0⟩ 0).wellFormed = false := by decide

/-! ## Decoding: the vectors of 95_test_vectors.md 2.1, and one word of each row by R100, R103, R105 -/

/-- The operation word of a transaction code with a data word. -/
def tc (code : HalfWord) (data : Word) : OpWord := { code := code, arg := 0, data := data, x0 := 0, x1 := 0, x2 := 0, x3 := 0 }

/-- The operation a code and data decode to; none where refused. -/
def dec (code : HalfWord) (data : Word) : Option Instr := (decode (tc code data)).toOption

/-- The reason a code is refused. -/
def why (code : HalfWord) : Option DecodeError :=
  match decode (tc code 0) with
  | .ok _ => none
  | .error e => some e

theorem test_decode_refusals :
    [0x0016, 0x1181, 0x0018, 0x003C, 0x1000, 0x1300, 0x0180, 0x11A0, 0x0380, 0x2048, 0x0580, 0x0FFF, 0x4000].map why =
      [some .misaligned, some .misaligned, some .reserved, some .reserved, some .undeclaredWidth, some .undeclaredWidth,
       some .undeclaredWidth, some .reserved, some .reserved, some .readOnly, some .outside, some .outside,
       some .malformed] := by decide

theorem test_decode_low_registers :
    [dec 0x0000 0, dec 0x2004 5, dec 0x1004 0, dec 0x3006 7, dec 0x0008 0, dec 0x1008 0, dec 0x300A 1, dec 0x000C 0,
     dec 0x100C 0, dec 0x300E 0x20, dec 0x0010 0, dec 0x3010 2, dec 0x1012 0, dec 0x0014 0, dec 0x3014 4, dec 0x3016 1] =
      [some (.config .read), some (.control (.write 5)), some (.controlLow .read), some (.controlHigh (.write 7)),
       some (.clearOnEvent .read), some (.clearOnEventLow .read), some (.clearOnEventHigh (.write 1)),
       some (.haltOnEvent .read), some (.haltOnEventLow .read), some (.haltOnEventHigh (.write 0x20)),
       some (.stopOnEvent .read), some (.stopOnEventLow (.write 2)), some (.stopOnEventHigh .read),
       some (.startOnEvent .read), some (.startOnEventLow (.write 4)), some (.startOnEventHigh (.write 1))] := by decide

theorem test_decode_counter_registers :
    [dec 0x2040 0xABCD1234, dec 0x3040 0x5555, dec 0x1042 0, dec 0x0044 0, dec 0x1044 0, dec 0x3046 3, dec 0x0048 0,
     dec 0x204C 0, dec 0x104C 0, dec 0x104E 0, dec 0x2050 5, dec 0x0054 0, dec 0x2058 0] =
      [some (.count (.write 0xABCD1234)), some (.countLow (.write 0x5555)), some (.countHigh .read), some (.state .read),
       some (.stateLow .read), some (.stateHigh (.write 3)), some .input, some (.registerMode (.write 0)),
       some (.registerModeLow .read), some (.registerModeHigh .read), some (.output (.write 5)),
       some (.outputDirectionControl .read), some (.conflictResolution (.write 0))] := by decide

theorem test_decode_request_registers :
    [dec 0x205C 0x10, dec 0x0060 0, dec 0x20F0 9, dec 0x00F4 0, dec 0x20F8 0xFFFF, dec 0x00FC 0] =
      [some (.dmaRequest0 (.write 0x10)), some (.dmaRequest1 .read), some (.interruptOnEvent (.write 9)),
       some (.eventOccurred .read), some (.interruptOnConflict (.write 0xFFFF)), some (.conflictOccurred .read)] := by decide

theorem test_decode_slots :
    [dec 0x013C 0, dec 0x1104 0, dec 0x113E 0, dec 0x119E 0, dec 0x31C2 0xBEEF, dec 0x2200 0x40, dec 0x1204 0, dec 0x123E 0,
     dec 0x3280 0x40, dec 0x12DE 0, dec 0x2318 1, dec 0x037C 0, dec 0x0578 0, dec 0x257C 2] =
      [some (.matchCapture 15 .read), some (.matchCaptureLow 1 .read), some (.matchCaptureHigh 15 .read),
       some (.matchAliasLow 15 .read), some (.matchAliasHigh 1 (.write 0xBEEF)), some (.captureControl 0 (.write 0x40)),
       some (.captureControlLow 1 .read), some (.captureControlHigh 15 .read),
       some (.captureControlAliasLow 0 (.write 0x40)), some (.captureControlAliasHigh 15 .read),
       some (.eventEnabledInState 3 (.write 1)), some (.eventControl 15 .read), some (.outputOnEventSet 15 .read),
       some (.outputOnEventClear 15 (.write 2))] := by decide

theorem test_decode_selected :
    [(decode ⟨0x8000, 0, 0, 0, 0, 0, 0⟩).toOption, (decode ⟨0x8001, 6, 0x040, 0, 0, 0, 0⟩).toOption,
     (decode ⟨0x8002, 0, 0x580, 0, 0, 0, 0⟩).toOption, (decode ⟨0x8003, 24, 8, 0, 0, 0, 0⟩).toOption,
     (decode ⟨0x8004, 0, 0x40000000, 0, 0, 0, 0⟩).toOption, (decode ⟨0x8005, 0x1004, 0, 0x0705, 0, 0, 0⟩).toOption,
     (decode ⟨0x8006, 0x1004, 0xAB, 0x0705, 0, 0, 0⟩).toOption, (decode ⟨0x8007, 3, 0, 6, 5, 0, 0⟩).toOption,
     (decode ⟨0x8008, 0, 1000, 0x0201, 3, 4, 0⟩).toOption, (decode ⟨0x8009, 3, 1, 0x0002, 0, 0x0100, 0x0501⟩).toOption] =
      [some .verify, some (.checkOffset .count 0x040), some (.checkSize 0x580), some (.checkStride .event 8),
       some (.bind 0x40000000), some (.fieldRd .controlLow 5 8), some (.fieldWr .controlLow 5 8 0xAB),
       some (.slotAddr .event 3 .control), some (.sctEval ⟨1000, 1, 2, 3, 4⟩),
       some (.configureEvent 3 ⟨2, 0, 0, 0, 0, 1, 1, 5⟩ 1)] := by decide

theorem test_decode_selector_unassigned : why 0x800A = some .unassignedSelector := by decide
theorem test_decode_read_with_data : dec 0x0000 1 = none := by decide
theorem test_decode_half_write_with_word : dec 0x3040 0x10000 = none := by decide
theorem test_decode_table_word : decodeTableWord 16 0x037C = some (.eventControl 15 .read) := by decide
theorem test_decode_table_selector : decodeTableWord 8 4 = some (.bind 0) := by decide

/-! ## Sub-fields: 95_test_vectors.md 2.2 -/

theorem test_extract_condition : extract (0x000B4002 : Word) 14 2 = 1 := by decide
theorem test_extract_next_state : extract (0x000B4002 : Word) 17 5 = 5 := by decide
theorem test_insert_ones : insert (0 : Word) 17 5 0x1F = 0x003E0000 := by decide
theorem test_insert_zero : insert (0xFFFFFFFF : Word) 17 5 0 = 0xFFC1FFFF := by decide
theorem test_insert_prescaler : insert (0x0006 : HalfWord) 5 8 0xAB = 0x1566 := by decide
theorem test_mask_whole : mask 32 0 32 = 0xFFFFFFFF := by decide
theorem test_mask_top : mask 32 31 1 = 0x80000000 := by decide

/-! ## Small states -/

/-- A bound instance with the default image. -/
def bound : State := { State.reset with phase := .bound, base := some 0x40000000 }

/-- A bound instance with one word of the image replaced. -/
def with1 (r : Reg) (v : Word) : State := store r v bound

/-- A property of the next state; false at a stop. -/
def after (a : Answer) (p : State → Bool) : Bool :=
  match a with
  | .next t => p t
  | _ => false

/-- The refusal an answer is. -/
def refusal (a : Answer) : Option Refusal :=
  match a with
  | .refused r => some r
  | _ => none

/-- The content of a word after an operation. -/
def word (i : Instr) (s : State) (r : Reg) (v : Word) : Bool := after (exec i s) fun t => decide (t.regs.get r = v)

/-! ## Transactions: 95_test_vectors.md 2.3 -/

theorem test_start_high : word (.startOnEventHigh (.write 1)) bound .startOnEvent 0x00010000 = true := by decide
theorem test_start_low : word (.startOnEventLow (.write 4)) (with1 .startOnEvent 0x10000) .startOnEvent 0x00010004 = true := by
  decide
theorem test_alias_low :
    word (.matchAliasLow 1 (.write 0x1234)) (with1 (.matchCapture 1) 0xAAAA0000) (.matchCapture 1) 0xAAAA1234 = true := by
  decide
theorem test_alias_high :
    word (.matchAliasHigh 1 (.write 0xBEEF)) (with1 (.matchCapture 1) 0xAAAA1234) (.matchCapture 1) 0xBEEF1234 = true := by
  decide
theorem test_capture_alias :
    word (.captureControlAliasLow 0 (.write 0x40)) bound (.captureControl 0) 0x40 = true := by decide
theorem test_before_binding : refusal (exec (.startOnEvent .read) State.reset) = some .notBound := by decide
theorem test_count_low : word (.countLow (.write 0x5555)) (with1 .count 0xABCD1234) .count 0xABCD5555 = true := by decide
theorem test_count_high : word (.countHigh (.write 0x5555)) (with1 .count 0xABCD1234) .count 0x55551234 = true := by decide
theorem test_count_running :
    refusal (exec (.count (.write 1)) (with1 .control 0x00040000)) = some .counterRunning := by decide
theorem test_count_other_half_running :
    word (.countHigh (.write 1)) (with1 .control 0x00040000) .count 0x00010000 = true := by decide
theorem test_control_clears_word : word (.control (.write 0x000C000C)) (with1 .count 0xABCD1234) .control 0x00040004 = true := by
  decide
theorem test_control_clears_count : word (.control (.write 0x000C000C)) (with1 .count 0xABCD1234) .count 0 = true := by decide
theorem test_control_low_clears_low : word (.controlLow (.write 0x000C)) (with1 .count 0xABCD1234) .count 0xABCD0000 = true := by
  decide
theorem test_input_shows_draws :
    after (exec .input bound) (fun t => decide (t.draws = 1 ∧ t.regs = bound.regs)) = true := by decide
theorem test_state_write : word (.state (.write 0xFFFFFFFF)) bound .state 0x001F001F = true := by decide
theorem test_output_running : refusal (exec (.output (.write 5)) (with1 .control 0x00040000)) = some .counterRunning := by decide
theorem test_event_mask_reserved : word (.interruptOnEvent (.write 0xFFFF0009)) bound .interruptOnEvent 9 = true := by decide
theorem test_capture_mode_write :
    refusal (exec (.matchAliasLow 0 (.write 1)) { bound with params := { Params.default with slotMode := .capturing } }) =
      some .captureModeWrite := by decide
theorem test_plain_read : after (exec (.startOnEvent .read) (with1 .startOnEvent 0x00010002))
    (fun t => decide (t.result = .word 0x00010002)) = true := by decide

/-! ## Status flags: 95_test_vectors.md 2.4 -/

theorem test_flags_one : word (.eventOccurred (.write 8)) (with1 .eventOccurred 9) .eventOccurred 1 = true := by decide
theorem test_flags_none : word (.eventOccurred (.write 0)) (with1 .eventOccurred 9) .eventOccurred 9 = true := by decide
theorem test_flags_read_keeps : word (.eventOccurred .read) (with1 .eventOccurred 9) .eventOccurred 9 = true := by decide
theorem test_conflict_flags : word (.conflictOccurred (.write 2)) (with1 .conflictOccurred 3) .conflictOccurred 1 = true := by
  decide
theorem test_flags_read_clears_refuses :
    refusal (exec (.eventOccurred (.write 1)) { bound with params := { Params.default with flagClearRule := .readClears } }) =
      some .flagWriteUnderReadClears := by decide
theorem test_irq_off : (store .interruptOnEvent 6 (with1 .eventOccurred 9)).irq = false := by decide
theorem test_irq_on : (store .interruptOnEvent 8 (with1 .eventOccurred 9)).irq = true := by decide

/-! ## Predicates: 95_test_vectors.md 2.5 -/

theorem test_io_table : [0, 1, 2, 3].map (fun c => [ioHolds c false false, ioHolds c false true, ioHolds c true false, ioHolds c true true]) =
    [[true, false, true, false], [false, true, false, false], [false, false, true, false], [false, true, false, true]] := by decide
theorem test_combine_table : [0, 1, 2, 3].map (fun k => [combine k false false, combine k false true, combine k true false, combine k true true]) =
    [[false, true, true, true], [false, false, true, true], [false, true, false, true], [false, false, false, true]] := by decide

/-! ## The configured machine: 95_test_vectors.md P1 and P5 -/

/-- P1 before step 9: event 3 in state 0 on a match of slot 2 loads state 5 and sets pin 0. -/
def p1 : State :=
  store (.outputOnEventSet 0) 8 <| store (.eventControl 3) 0x000B4002 <| store (.eventEnabledInState 3) 1 <|
    store (.matchCapture 2) 1000 <| store .config 1 <| store .interruptOnEvent 8 <| with1 .control 0x00040000

/-- The draws of an evaluation at a counter value, the lines all low. -/
def at_ (cnt : Word) : EvalDraws := ⟨cnt, 0, 0, 0, 0⟩

theorem test_p1_state : word (.sctEval (at_ 1000)) p1 .state 5 = true := by decide
theorem test_p1_flag_and_irq :
    after (exec (.sctEval (at_ 1000)) p1) (fun t => decide (t.regs.eventOccurred = 8 ∧ t.regs.output = 1) && t.irq) = true := by
  decide
theorem test_p1_no_match : after (exec (.sctEval (at_ 999)) p1) (fun t => decide (t.firing = 0 ∧ t.regs.state = 0)) = true := by
  decide
theorem test_p1_gate : after (exec (.sctEval (at_ 1000)) (store .state 5 p1)) (fun t => decide (t.firing = 0)) = true := by decide
theorem test_p1_keep :
    word (.sctEval (at_ 1000))
      { store (.eventControl 3) 0x000A4002 p1 with params := { Params.default with noLoadRule := .keep } } .state 0 = true := by
  decide
theorem test_add_wraps :
    word (.sctEval (at_ 1000))
      { store (.eventEnabledInState 3) 0x40000000 (store .state 30 (store (.eventControl 3) 0x00064002 p1)) with
        params := { Params.default with noLoadRule := .add } } .state 1 = true := by decide

/-- P5 before step 12: events 0 and 1 on one match contradict each other on pin 0. -/
def p5 : State :=
  store .interruptOnConflict 1 <| store (.outputOnEventClear 0) 2 <| store (.outputOnEventSet 0) 1 <|
    store (.eventControl 1) 0x4000 <| store (.eventEnabledInState 1) 1 <| store (.eventControl 0) 0x4000 <|
      store (.eventEnabledInState 0) 1 <| store (.matchCapture 0) 100 <| store .config 1 <| with1 .control 0x00040000

theorem test_p5_flags :
    after (exec (.sctEval (at_ 100)) p5)
      (fun t => decide (t.regs.eventOccurred = 3 ∧ t.regs.conflictOccurred = 1 ∧ t.regs.state = 0) && t.irq) = true := by decide
theorem test_start_action :
    word (.sctEval (at_ 100)) (store .startOnEvent 2 (store .control 0x00040002 p5)) .control 0x00040000 = true := by decide
theorem test_halt_keeps_count :
    word (.sctEval (at_ 100)) (store .haltOnEvent 1 p5) .count 100 = true := by decide
theorem test_capture_before_clear :
    after (exec (.sctEval ⟨0x1234, 0, 0, 0, 0⟩)
        { store .clearOnEvent 0x40 (store (.captureControl 0) 0x40 (store (.eventControl 6) 0x8000 (store (.eventEnabledInState 6) 1
            (store .config 1 (with1 .control 0x00040000))))) with params := { Params.default with slotMode := .capturing } })
      (fun t => decide (t.regs.matchCapture[0] = 0x1234 ∧ t.regs.count = 0)) = true := by decide

/-! ## Sub-fields: R145, R146 -/

theorem test_field_value_refused : refusal (exec (.fieldWr .controlLow 5 8 0x100) bound) = some .fieldValueTooWide := by decide
theorem test_field_outside : refusal (exec (.fieldRd .controlLow 12 5) bound) = some .fieldOutsideView := by decide
theorem test_field_write_plain :
    word (.fieldWr .startOnEventLow 4 4 0xF) (with1 .startOnEvent 0xABCD0001) .startOnEvent 0xABCD00F1 = true := by decide
theorem test_field_read_half :
    after (exec (.fieldRd .startOnEventHigh 8 4) (with1 .startOnEvent 0xABCD0001)) (fun t => decide (t.result = .field 0xB)) =
      true := by decide

/-! ## Slots: R210 and 95_test_vectors.md V6 -/

theorem test_slot_address :
    after (exec (.slotAddr .event 3 .control) bound) (fun t => decide (t.result = .address 0x4000031C)) = true := by decide
theorem test_slot_sixteen : refusal (exec (.slotAddr .event 16 .control) bound) = some .slotIndexOutOfRange := by decide
theorem test_event_word : eventWord specEvCtrlLayout ⟨2, 0, 0, 0, 0, 1, 1, 5⟩ = 0x000B4002 := by decide
theorem test_configure_event :
    after (exec (.configureEvent 3 ⟨2, 0, 0, 0, 0, 1, 1, 5⟩ 1) bound)
      (fun t => decide (t.regs.eventControl[3] = 0x000B4002 ∧ t.regs.eventEnabledInState[3] = 1)) = true := by decide

/-! ## The harness: 95_test_vectors.md 2.6 -/

/-- What `VERIFY` reports on a descriptor with the spec's anchors, extent and strides. -/
def report (L : List Entry) : Option BuildFailure := verifyFailure L specAnchors specExtent specStrides

/-- A descriptor with the entries of a name changed. -/
def change (n : FieldName) (f : Entry → Entry) : List Entry := specLayout.map fun e => if e.name = n then f e else e

theorem test_verify_layout : report specLayout = none := by decide
theorem test_verify_inserted :
    report (specLayout.take 1 ++ [{ name := .other 0, kind := .field, unit := 4, count := 1, subs := [] }] ++ specLayout.drop 1) =
      some (.offset .startOnEvent 0x014 0x018) := by decide
theorem test_verify_short_padding :
    report (change (.reserved 0x018) fun e => { e with count := 9 }) = some (.offset .count 0x040 0x03C) := by decide
theorem test_verify_short_padding_064 :
    report (change (.reserved 0x064) fun e => { e with count := 34 }) = some (.offset .interruptOnEvent 0x0F0 0x0EC) := by decide
theorem test_verify_alias_unit :
    report (change .matchAliasLow fun e => { e with unit := 4 }) = some (.offset .captureControlAliasLow 0x280 0x2A0) := by decide
theorem test_verify_event_unit :
    report (change .event fun e => { e with unit := 12 }) = some (.offset .outputOnEvent 0x500 0x540) := by decide
theorem test_verify_cancelling :
    verifyFailure ((change .event fun e => { e with unit := 12 }).map fun e =>
        if e.name = .reserved 0x380 then { e with count := 80 } else e) specAnchors specExtent specStrides =
      some (.stride .event 8 12) := by decide
theorem test_verify_short_map :
    report (change .outputOnEvent fun e => { e with count := 15 }) = some (.size 0x580 0x578) := by decide
theorem test_verify_exchange_passes :
    report ((change .haltOnEvent fun e => { e with name := .other 0 }).map fun e =>
        if e.name = .stopOnEvent then { e with name := .haltOnEvent }
        else if e.name = .other 0 then { e with name := .stopOnEvent } else e) = none := by decide
theorem test_verify_unknown_anchor :
    verifyFailure specLayout [(.startOnEvent, 0x014), (.other 1, 0x040)] specExtent specStrides =
      some (.unknownField (.other 1) 0x040) := by decide
theorem test_verify_two_counts :
    report (change .state fun e => { e with name := .count }) = some (.malformed .duplicateName .count 2) := by decide
theorem test_malformed_unit : malformation [{ name := .count, kind := .field, unit := 3, count := 1, subs := [] }] =
    some (.malformed .badUnit .count 3) := by decide
theorem test_malformed_count : malformation [{ name := .count, kind := .field, unit := 4, count := 0, subs := [] }] =
    some (.malformed .badCount .count 0) := by decide
theorem test_malformed_offset :
    malformation [{ name := .config, kind := .field, unit := 2, count := 1, subs := [] },
      { name := .count, kind := .field, unit := 4, count := 1, subs := [] }] = some (.malformed .misalignedOffset .count 2) := by
  decide
theorem test_malformed_sub :
    malformation [{ name := .count, kind := .field, unit := 4, count := 1, subs := [⟨.high, 2, 4⟩] }] =
      some (.malformed .subOutsideElement .count 6) := by decide
theorem test_malformed_overlap :
    malformation [{ name := .count, kind := .field, unit := 4, count := 1, subs := [⟨.low, 0, 4⟩, ⟨.high, 2, 2⟩] }] =
      some (.malformed .subsOverlap .count 2) := by decide

/-- A launch with a defective descriptor: P4. -/
def p4 : State := State.launch { Params.default with layout := change (.reserved 0x018) fun e => { e with count := 9 } }

theorem test_p4_halts :
    after (exec .verify p4)
      (fun t => decide (t.phase = .buildHalted ∧ t.failure = some (.offset .count 0x040 0x03C) ∧ t.regs = p4.regs)) = true := by
  decide
theorem test_verify_passes : after (exec .verify State.reset) (fun t => decide (t.phase = .verified)) = true := by decide
theorem test_bind_unverified : refusal (exec (.bind 0x40000000) State.reset) = some .wrongPhase := by decide
theorem test_bind_last :
    after (exec (.bind 0xFFFFFA80) { State.reset with phase := .verified }) (fun t => decide (t.phase = .bound)) = true := by decide
theorem test_bind_wraps : refusal (exec (.bind 0xFFFFFC00) { State.reset with phase := .verified }) = some .badBase := by decide
theorem test_check_offset_fails :
    after (exec (.checkOffset .count 0x044) State.reset) (fun t => decide (t.failure = some (.offset .count 0x044 0x040))) = true := by
  decide
theorem test_check_size : after (exec (.checkSize 0x580) State.reset) (fun t => decide (t.result = .passed)) = true := by decide
theorem test_check_stride : after (exec (.checkStride .event 8) State.reset) (fun t => decide (t.result = .passed)) = true := by
  decide

/-! ## Steps -/

/-- A property of the state after one step. -/
def stepped (s : State) (p : State → Bool) : Bool := after (step s) p

theorem test_step_idle : (match step State.reset with | .fault .idle => true | _ => false) = true := by decide
theorem test_step_bus_row :
    stepped (State.reset.withFetchWord 16 0x0014) (fun t => decide (t.draws = 1 ∧ t.queue = [])) = true := by decide
theorem test_step_selector_row :
    stepped (State.reset.withFetchWord 8 0) (fun t => decide (t.phase = .verified)) = true := by decide

/-! ## The offsets of R272, by the numbers of R30 and R210, and the handle of R284 -/

theorem test_offset_named : [FieldName.config, .control, .count, .event].map (offsetNamed specLayout) =
    [some 0, some 0x004, some 0x040, some 0x300] := by decide
theorem test_sub_offset : [subOffset specLayout .startOnEvent .high, subOffset specLayout .event .control,
    subOffset specLayout .outputOnEvent .clear, subOffset specLayout .config .low] =
    [some 0x016, some 0x304, some 0x504, none] := by decide
theorem test_slot_offset : [slotOffset specLayout .event 3, slotOffset specLayout .matchCapture 15,
    slotOffset specLayout .matchAliasLow 15, slotOffset specLayout .event 16] =
    [some 0x318, some 0x13C, some 0x19E, none] := by decide

/-- The bound instance has a handle. -/
theorem bound_ok : Bound bound := ⟨rfl, rfl, by decide⟩

/-- So has every state with its phase, its base and its descriptor. -/
theorem bound_like {s : State} (p : s.phase = .bound) (b : s.base.isSome = true)
    (l : (s.params.layout, s.params.anchors, s.params.extent, s.params.strides) = (specLayout, specAnchors, specExtent, specStrides)) :
    Bound s := by
  simp only [Prod.mk.injEq] at l
  exact ⟨p, b, by rw [l.1, l.2.1, l.2.2.1, l.2.2.2]; exact bound_ok.verified⟩

theorem test_handle : (bound.handle.map fun h => (h.base, h.address 0x31C)) = some (0x40000000, 0x4000031C) := by decide
theorem test_handle_unbound : State.reset.handle.isNone = true := by decide
theorem test_handle_bad_layout :
    refusal (exec (.startOnEvent .read) { bound with params := { Params.default with extent := 0 } }) = some .notBound := by decide

/-! ## Reserved values (R131) -/

/-- An event record that looks at input 9, of an event that is not enabled. -/
def reservedPin : State := store (.eventControl 15) 0x00000240 p1

theorem test_reserved_pin : reservedPin.recordReserved 15 = true ∧ reservedPin.firingSet (at_ 1000) = [3] ∧
    reservedPin.reservedInForce = true ∧ p1.reservedInForce = false := by decide
theorem test_pin_of_output : (store (.eventControl 15) 0x00000260 p1).reservedInForce = false := by decide
theorem test_reserved_next_state :
    { p1 with params := { Params.default with numStates := 5 } }.reservedInForce = true ∧
      { p1 with params := { Params.default with numStates := 6 } }.reservedInForce = false := by decide

/-! ## Witnesses: for each statement with hypotheses, concrete states and operands that meet all of them, clause by clause -/

/-- A bound instance with both counter halves running. -/
def running : State := with1 .control 0

/-- A bound instance in capture mode. -/
def capturing : State := { bound with params := { Params.default with slotMode := .capturing } }

/-- A bound instance whose status words clear on a read. -/
def readClearing : State := { bound with params := { Params.default with flagClearRule := .readClears } }

/-- A verified instance. -/
def verified : State := { State.reset with phase := .verified }

/-- A halted build. -/
def halted : State := { State.reset with phase := .buildHalted, failure := some (.size 0 0x580) }

/-- An instance that has not run the harness, with a descriptor of its own. -/
def withLayout (L : List Entry) : State := State.launch { Params.default with layout := L }

/-- A descriptor of one record whose parts do not add up. -/
def oneRecord : List Entry := [{ name := .event, kind := .field, unit := 8, count := 16, subs := [⟨.control, 0, 4⟩] }]

/-- The next state of an evaluation. -/
def evaluated (d : EvalDraws) (s : State) : State := (evaluate d s).silent

theorem witness_DecodeOfEncode :
    (Instr.fieldWr .controlHigh 15 1 1).wellFormed = true ∧ (Instr.slotAddr .event 15 .control).wellFormed = true ∧
      (Instr.outputOnEventClear 15 (.write 2)).wellFormed = true := by decide
theorem witness_EncodeOfDecode : (decode ⟨0x8006, 0x1004, 0xAB, 0x0705, 0, 0, 0⟩).toOption = some (.fieldWr .controlLow 5 8 0xAB) := by
  decide
theorem witness_TransactionVerdict_outside : 0x580 < 0x1000 ∧ 0x580 ≤ 0x580 ∧ ¬ 0x580 ≤ 0x57C := by decide
theorem witness_TransactionVerdict_reserved :
    [0x014, 0x018, 0x03C, 0x040, 0x19E, 0x1A0, 0x1BE, 0x1C0, 0x37C, 0x380, 0x4FC, 0x500, 0x57C].map (inPadding specLayout) =
      [false, true, true, false, false, true, true, false, false, true, true, false, false] := by decide
theorem witness_TransactionVerdict_width :
    [(false, 0x57C), (true, 0x57C), (true, 0x13E), (false, 0x180), (true, 0x180), (true, 0x048), (false, 0x048)].map
        (fun p => declaresAccess specLayout p.1 p.2) = [true, false, true, false, true, false, true] := by decide
theorem witness_StepRunsDecoded :
    (State.reset.withFetchWord 8 0).queue = [⟨⟨0x8000, 0, 0, 0, 0, 0, 0⟩, []⟩] ∧
      (decode ⟨0x8000, 0, 0, 0, 0, 0, 0⟩).toOption = some .verify ∧ why 0x800A = some .unassignedSelector ∧
      State.reset.queue = [] := by decide
theorem witness_StepKeepsInvariant :
    Invariant { State.reset with queue := [⟨⟨0x8000, 0, 0, 0, 0, 0, 0⟩, []⟩] } ∧
      stepped { State.reset with queue := [⟨⟨0x8000, 0, 0, 0, 0, 0, 0⟩, []⟩] } (fun t => decide (t.phase = .verified)) = true :=
  ⟨⟨rfl, rfl, rfl, fun h => h.elim nofun nofun, by decide, by decide⟩, by decide⟩
theorem witness_bound_invariant : Invariant bound := ⟨rfl, by decide, rfl, fun _ => by decide, by decide, by decide⟩
theorem witness_LifecycleOrder :
    after (exec .verify State.reset) (fun t => decide (t.phase = .verified)) = true ∧
      after (exec (.checkSize 0) State.reset) (fun t => decide (t.phase = .buildHalted)) = true ∧
      after (exec (.bind 0) verified) (fun t => decide (t.phase = .bound ∧ t.base = some 0)) = true ∧
      after (exec (.stateLow .read) bound) (fun t => decide (t.phase = .bound)) = true := by decide
theorem witness_ResetInvariant :
    { Params.default with numStates := 7 }.legal = true ∧
      { Params.default with resetImage := defaultImage.set .control 0x00060002 }.resetImage.get .control &&&
        zeroBits Params.default .control = 0 := by decide
theorem witness_NothingBeforeBinding :
    ¬ Bound verified ∧ ¬ Bound { bound with base := none } ∧ halted.phase ≠ .bound ∧
      isTransaction (.startOnEvent .read) = true :=
  ⟨fun h => (nomatch h.phase), fun h => (nomatch h.base), by decide, by decide⟩
theorem witness_TransactionsComplete : Bound bound ∧ Bound running ∧ isTransaction .input = true ∧
    (storage .countHigh).1 = .count ∧ bound.halted .low = true ∧ bound.halted .high = true ∧
    refusal (exec (.countHigh (.write 1)) running) = some .counterRunning :=
  ⟨bound_ok, bound_like rfl rfl rfl, by decide⟩
theorem witness_BuildHaltedTerminal : Invariant halted ∧ halted.phase = .buildHalted :=
  ⟨⟨rfl, rfl, rfl, fun h => h.elim nofun nofun, by decide, by decide⟩, rfl⟩
theorem witness_CheckOffsetVerdict_parts :
    (specLayout.getD 1 (paddingEntry 0 4 1)).subs = [] ++ ⟨.low, 0, 2⟩ :: [⟨.high, 2, 2⟩] ∧ verified.phase ≠ .unverified ∧
      ∀ q ∈ (specLayout.getD 1 (paddingEntry 0 4 1)).subs, q.name ≠ .clear := by decide
theorem witness_CheckOffsetVerdict :
    State.reset.phase = .unverified ∧
      State.reset.params.layout = specLayout.take 1 ++ specLayout.getD 1 (paddingEntry 0 4 1) :: specLayout.drop 2 ∧
      (∀ x ∈ specLayout.take 1, x.name ≠ (specLayout.getD 1 (paddingEntry 0 4 1)).name) ∧
      ∀ x ∈ State.reset.params.layout, x.name ≠ .other 0 := by decide
theorem witness_CheckSizeVerdict : State.reset.phase = .unverified ∧ totalBytes State.reset.params.layout = 0x580 := by decide
theorem witness_CheckStrideVerdict :
    (withLayout oneRecord).params.layout = [] ++ oneRecord.getD 0 (paddingEntry 0 4 1) :: [] ∧
      (oneRecord.getD 0 (paddingEntry 0 4 1)).unit = 8 ∧
      ((oneRecord.getD 0 (paddingEntry 0 4 1)).subs.map SubEntry.bytes).sum = 4 ∧
      (specLayout.getD 32 (paddingEntry 0 4 1)).name = .event ∧ (specLayout.getD 32 (paddingEntry 0 4 1)).unit = 8 ∧
      ((specLayout.getD 32 (paddingEntry 0 4 1)).subs.map SubEntry.bytes).sum = 8 := by decide
theorem witness_AnchorsFixSizesBetween :
    0x014 < 0x040 ∧ checkOffset specLayout .startOnEvent 0x014 = none ∧ checkOffset specLayout .count 0x040 = none ∧
      checkSize specLayout 0x580 = none := by decide
theorem witness_VerifyVerdict_passes :
    malformation specLayout = none ∧ (∀ a ∈ specAnchors, checkOffset specLayout a.1 a.2 = none) ∧
      checkSize specLayout specExtent = none ∧ ∀ a ∈ specStrides, checkStride specLayout a.1 a.2 = none := by decide
theorem witness_VerifyVerdict_malformed : malformation [{ name := .count, kind := .field, unit := 3, count := 1, subs := [] }] ≠ none := by
  decide
theorem witness_VerifyVerdict_anchor :
    let L := change (.reserved 0x018) fun e => { e with count := 9 }
    malformation L = none ∧ specAnchors = specAnchors.take 1 ++ (.count, 0x040) :: specAnchors.drop 2 ∧
      (∀ x ∈ specAnchors.take 1, checkOffset L x.1 x.2 = none) ∧ checkOffset L .count 0x040 = some (.offset .count 0x040 0x03C) := by
  decide
theorem witness_VerifyVerdict_size :
    let L := change .outputOnEvent fun e => { e with count := 15 }
    malformation L = none ∧ (∀ x ∈ specAnchors, checkOffset L x.1 x.2 = none) ∧ checkSize L specExtent = some (.size 0x580 0x578) := by
  decide
theorem witness_VerifyVerdict_stride :
    malformation oneRecord = none ∧ checkSize oneRecord 128 = none ∧
      checkStride oneRecord .event 8 = some (.stride .event 8 4) := by decide
theorem witness_VerifyIsPure :
    State.reset.phase = .unverified ∧ { State.reset with draws := 7 }.phase = .unverified ∧
      State.reset ≠ { State.reset with draws := 7 } := by decide
theorem witness_BindVerdict :
    verified.phase = .verified ∧ (0xFFFFFA80 : Word).toNat % 4 = 0 ∧ (0xFFFFFA80 : Word).toNat + 0x580 ≤ 2 ^ 32 ∧
      ¬ ((0xFFFFFA84 : Word).toNat % 4 = 0 ∧ (0xFFFFFA84 : Word).toNat + 0x580 ≤ 2 ^ 32) ∧ bound.phase ≠ .verified := by decide
theorem witness_reads_and_writes :
    Bound bound ∧ inMatchMode bound ∧ (bound.halted .low = true ∧ bound.halted .high = true) ∧
      ∀ k ∈ bound.halvesInUse, bound.halted k = true := ⟨bound_ok, rfl, by decide⟩
theorem witness_CaptureModeRefusesWrites : Bound capturing ∧ capturing.params.slotMode = .capturing := ⟨bound_like rfl rfl rfl, rfl⟩
theorem witness_ConfigWrite_stops :
    let s := with1 .control 0x00040000
    (store .config 1 s).runs .high = true ∧
      after (exec (.config (.write 0)) (store .config 1 s)) (fun t => decide (t.runs .high = false)) = true := by decide
theorem witness_ControlWordWrite : Bound running ∧ running.params.legal = true ∧ running.runs .low = true :=
  ⟨bound_like rfl rfl rfl, by decide⟩
theorem witness_ControlWordWrite_clears : fieldFlag specCtrlLayout.clearCounter (0x0008 : HalfWord) = true := by decide
theorem witness_ControlHalfWrites :
    (store .config 1 running).governor .high = .low ∧ running.governor .high = .high ∧ running.params.legal = true := by decide
theorem witness_CountAndStateWrites :
    Bound running ∧ running.halted .low = false ∧ (with1 .control 0x00000004).halted .high = false ∧
      (with1 .control 0x00000004).halted .low = true := ⟨bound_like rfl rfl rfl, by decide⟩
theorem witness_OutputWrite :
    Half.high ∈ running.halvesInUse ∧ running.halted .high = false ∧ Half.high ∉ (store .config 1 running).halvesInUse := by decide
theorem witness_StatusWords :
    bound.params.flagClearRule = .writeOneToClear ∧ readClearing.params.flagClearRule = .readClears ∧
      Bound readClearing := ⟨rfl, rfl, bound_like rfl rfl rfl⟩
theorem witness_FlagsSetByAgentOnly :
    (with1 .eventOccurred 9).between = [] ∧
      after (exec (.eventOccurred (.write 8)) (with1 .eventOccurred 9)) (fun t => decide (t.regs.eventOccurred = 1)) = true ∧
      after (exec (.stateLow (.write 3)) (with1 .eventOccurred 9)) (fun t => decide (t.regs.eventOccurred = 9)) = true := by decide
theorem witness_InsertionLaws :
    (1 ≤ 1 ∧ 31 + 1 ≤ 32 ∧ (1 : Word).toNat < 2 ^ 1) ∧ (1 ≤ 8 ∧ 5 + 8 ≤ View.controlLow.bits ∧ 2 ^ 8 ≤ (0x100 : Word).toNat) ∧
      ∃ p ∈ eventFieldList specEvCtrlLayout ⟨2, 0, 0, 0, 0, 1, 1, 32⟩, 2 ^ p.1.width ≤ p.2.toNat := by decide
theorem witness_FieldRead :
    (1 ≤ 1 ∧ 15 + 1 ≤ View.controlLow.bits) ∧ ¬ (1 ≤ 2 ∧ 15 + 2 ≤ View.controlLow.bits) ∧ ¬ (1 ≤ 0 ∧ 0 + 0 ≤ View.config.bits) := by
  decide
theorem witness_SplitRegisterLaw : Bound bound ∧ (bound.halted .low = true ∧ bound.halted .high = true) ∧
    steadyControl bound.params = 0x1FF6 := ⟨bound_ok, by decide⟩
theorem witness_FieldWrite :
    softwareOwned bound.params (storage .config).1 = true ∧ softwareOwned bound.params (storage .startOnEventHigh).1 = true ∧
      softwareOwned bound.params (storage (.captureControlAliasLow 15)).1 = true ∧ 0 + 32 ≤ View.config.bits ∧
      softwareOwned bound.params (storage (.matchAliasHigh 15)).1 = true ∧
      softwareOwned capturing.params (storage (.matchAliasHigh 15)).1 = false := by decide
theorem witness_FieldWriteCompletes :
    (storage .controlLow).1 = .control ∧ (storage .countHigh).1 = .count ∧ (storage .output).1 = .output ∧
      (storage .eventOccurred).1 = .eventOccurred ∧ (storage (.matchAliasHigh 15)).1 = .matchCapture 15 ∧
      (∀ k, bound.halted k = true) ∧ running.halted .high = false ∧ Half.high ∈ running.halvesInUse ∧
      after (exec .input running) (fun t => decide (t.between = [])) = true := by
  refine ⟨rfl, rfl, rfl, rfl, rfl, fun k => ?_, by decide, by decide, by decide⟩
  cases k <;> decide
theorem witness_FieldWriteCompletes_reads :
    after (exec (transactionOf .controlHigh false 0) running) (fun u => decide ((runBetween u).runs .high = true)) = true ∧
      word (.fieldWr (.matchAliasHigh 1) 4 4 0xF) (with1 (.matchCapture 1) 0xAAAA1234) (.matchCapture 1) 0xAAFA1234 = true := by
  decide
theorem witness_SiblingPreservation :
    softwareOwned bound.params (storage (.eventControl 3)).1 = true ∧ 14 + 2 ≤ 17 ∧ ∀ b, (14 ≤ b ∧ b < 14 + 2) ∨ (17 ≤ b ∧ b < 17 + 5) →
      (reservedBits bound.params (storage (.eventControl 3)).1).getLsbD b = false := by
  refine ⟨by decide, by decide, fun b h => ?_⟩
  have hb : b < 32 := by omega
  exact (by decide : ∀ b, b < 32 → (14 ≤ b ∧ b < 14 + 2) ∨ (17 ≤ b ∧ b < 17 + 5) →
    (reservedBits bound.params (storage (.eventControl 3)).1).getLsbD b = false) b hb h
theorem witness_PrescalerKeepsSentinel : bound.params.legal = true ∧ (0xFF : Word).toNat < 2 ^ 8 ∧ bound.between = [] := by decide
theorem witness_FieldWriteUndoesAgent :
    (5 + 8 ≤ 16 ∧ (bound.params.ctrlLayout.haltSct.off < 5 ∨ 5 + 8 ≤ bound.params.ctrlLayout.haltSct.off)) ∧
      (0 + 16 ≤ 16 ∧ ¬ bound.params.ctrlLayout.haltSct.off < 0) := by decide
theorem witness_SlotAddress :
    Bound bound ∧ ¬ Bound verified ∧ bound.base = some 0x40000000 ∧ baseOk 0x40000000 = true ∧ slotDeclares .event .control = true ∧
      slotDeclares .matchAliasLow .word = false := ⟨bound_ok, fun h => (nomatch h.phase), by decide⟩
theorem witness_ConfigureEvent :
    ∀ p ∈ eventFieldList bound.params.evCtrlLayout ⟨15, 1, 1, 15, 3, 3, 1, 31⟩, p.2.toNat < 2 ^ p.1.width := by decide
theorem witness_evaluation_completes : exec (.sctEval (at_ 1000)) p1 = .next (evaluated (at_ 1000) p1) := rfl
theorem witness_EvaluationFrame : p1.phase = .bound ∧ p1.params.legal = true := by decide

/-- No reserved value is in force where the model finds none. -/
theorem clean {s : State} (h : s.reservedInForce = false) : NoReservedValue s := (reservedInForce_iff s).1 h

theorem witness_EvaluationFrame_reserved : ¬ NoReservedValue reservedPin ∧ reservedPin.params.legal = true :=
  ⟨fun h => absurd ((reservedInForce_iff _).2 h) (by decide), by decide⟩
theorem witness_EventFiring :
    p1.params.legal = true ∧ p1.params.slotMode = .matching ∧ NoReservedValue p1 ∧ (evaluated (at_ 1000) p1).firing = 8 :=
  ⟨by decide, rfl, clean (by decide), by decide⟩

/-- In capture mode, event 0 fires on a rising edge of input 0 alone, and event 3 of P1 on the drawn match. -/
def captureEdge : State :=
  { store (.eventEnabledInState 0) 1 (store (.eventControl 0) 0x00008400 p1) with
    params := { Params.default with slotMode := .capturing } }

theorem witness_EventFiring_capture :
    captureEdge.params.slotMode = .capturing ∧ captureEdge.fires ⟨0, 1, 0, 0, 0⟩ 0 = true ∧
      captureEdge.fires ⟨0, 1, 1, 0, 0⟩ 0 = false ∧ captureEdge.reservedInForce = false := by decide
theorem witness_EventFlagsAndRequests :
    NoReservedValue (store .dmaRequest1 8 p1) ∧ (evaluated (at_ 1000) (store .dmaRequest1 8 p1)).dmaRaised = 2 :=
  ⟨clean (by decide), by decide⟩

/-- P5 with both events loading a state: 5 and 6. -/
def twoLoaders : State :=
  { store (.eventControl 0) 0x000B4000 (store (.eventControl 1) 0x000D4000 p5) with
    params := { Params.default with multiLoadRule := .highestNumbered } }

theorem witness_StateAction_one : Half.low ∈ p1.halvesInUse ∧ p1.firingSet (at_ 1000) = [3] ∧
    p1.eventFlag EvCtrlLayout.loadState 3 = true := by decide
theorem witness_StateAction_none : p5.firingSet (at_ 100) = [0, 1] ∧ p5.eventFlag EvCtrlLayout.loadState 0 = false ∧
    p5.nextStateId 0 = 0 ∧ p5.nextStateId 1 = 0 := by decide
theorem witness_StateAction_unused : Half.high ∉ p1.halvesInUse ∧ NoReservedValue p1 ∧
    (evaluated (at_ 1000) (store .state 0x00070000 p1)).regs.state = 0x00070005 := ⟨by decide, clean (by decide), by decide⟩
theorem witness_StateAction_highest : twoLoaders.reservedInForce = false ∧
    twoLoaders.firingSet (at_ 100) = [0, 1] ∧ (evaluated (at_ 100) twoLoaders).stateId .low = 6 := by decide
theorem witness_StateAction_rules :
    let s := { store (.eventControl 0) 0x000A4000 p5 with params := { Params.default with noLoadRule := .add } }
    s.reservedInForce = false ∧ s.firingSet (at_ 100) = [0, 1] ∧ s.nextStateId 0 = 5 ∧
      s.eventFlag EvCtrlLayout.loadState 0 = false := by decide
theorem witness_CounterControl :
    p5.params.legal = true ∧ hits [0, 1] (store .haltOnEvent 1 p5).regs.haltOnEvent 0 = true ∧
      hits [0, 1] (store .stopOnEvent 2 p5).regs.stopOnEvent 0 = true ∧ Half.high ∉ p5.halvesInUse ∧
      (evaluated (at_ 100) (store .stopOnEvent 2 p5)).controlOf .low = 0x0002 := by decide

/-- Two counters: event 0 on half L clears it, event 1 on half H does too, with `prevent_reload_high` set. -/
def twoClears : State :=
  store .config 0x100 <| store .clearOnEvent 0x00020001 <| store (.eventControl 1) 0x4010 <| store .control 0 p5

theorem witness_ClearActions_split :
    twoClears.unify = false ∧ twoClears.reservedInForce = false ∧
      (evaluated (at_ 0x00000064) twoClears).firing = 3 ∧ (evaluated (at_ 0x00000064) twoClears).regs.count = 0 ∧
      fieldFlag specConfigLayout.preventReloadHigh twoClears.regs.config = true := by decide
theorem witness_ClearActions_unified :
    (store .clearOnEvent 1 p5).unify = true ∧ (evaluated (at_ 100) (store .clearOnEvent 1 p5)).regs.count = 0 ∧
      (evaluated (at_ 100) p5).regs.count = 100 := by decide
theorem witness_OutputActions :
    (p5.setsPin [0, 1] 0 = true ∧ p5.clearsPin [0, 1] 0 = true) ∧ (p1.setsPin [3] 0 = true ∧ p1.clearsPin [3] 0 = false) ∧
      (p1.setsPin [3] 1 = false ∧ p1.clearsPin [3] 1 = false) ∧
      (evaluated (at_ 100) (store .output 1 (store (.outputOnEventSet 0) 0 p5))).regs.output = 0 := by decide
theorem witness_OutputConflicts :
    [ConflictRule.noChange, .set, .clear, .toggle].map (fun c =>
        (evaluated (at_ 100) { store .output 1 p5 with params := { Params.default with conflictRule := c } }).regs.output) =
      [1, 1, 0, 0] := by decide
theorem witness_Captures :
    let s := { store (.captureControl 15) 0x00020001 twoClears with params := { Params.default with slotMode := .capturing } }
    s.params.slotMode = .capturing ∧ s.capturedBits [0, 1] 15 = ~~~ 0 ∧ s.capturedBits [0] 15 = 0x0000FFFF ∧
      s.capturedBits [0, 1] 14 = 0 := by decide
theorem witness_HaltedMachineIsQuiet :
    bound.phase = .bound ∧ (∀ k ∈ bound.halvesInUse, bound.halted k = true) ∧ NoReservedValue bound :=
  ⟨rfl, by decide, clean (by decide)⟩

/-- P1 with two evaluations scheduled inside the next operation: the first loads state 5, in which the second finds the gate shut. -/
def twoBetween : State := { p1 with between := [at_ 1000, at_ 1000] }

theorem witness_FieldWriteUndoesAgent_between :
    twoBetween.phase = .bound ∧ twoBetween.between = at_ 1000 :: [at_ 1000] ∧ (runBetween twoBetween).regs.state = 5 ∧
      (runBetween twoBetween).firing = 0 ∧ (runBetween p1).regs = p1.regs := by decide

/-- An evaluation between the two writes of a `CONFIGURE_EVENT` of event 3 meets the new gate with the old control word. -/
theorem witness_ConfigureEvent_between :
    after (exec (.configureEvent 3 ⟨2, 0, 0, 0, 0, 1, 1, 9⟩ 1)
        { store (.eventEnabledInState 3) 0 p1 with between := [at_ 1000] })
      (fun t => decide (t.regs.state = 5 ∧ t.regs.eventOccurred = 8 ∧ t.regs.eventControl[3] = 0x00134002)) = true := by decide

end Sys2Proof.Tests
end

/-! PROOFS. The family 10_state: steps, the lifecycle, the invariant, the half writes, the status flags and the frame of an evaluation. -/

namespace Sys2Proof.Machine

/-! ## What an operation of the bound machine is made of -/

/-- One move inside an operation: what the operation returns and what is left of its schedule, the effect of a read, the effect of a
write that keeps the halves it does not write, one evaluation. `W` says which words may be accessed, `ds` which evaluations run. -/
inductive Move (W : Reg → Prop) (ds : List EvalDraws) : State → State → Prop where
  | answer (s : State) (x : Result) (es : List EvalDraws) : Move W ds s { s with result := x, between := es }
  | read (s : State) (r : Reg) (hr : W r) : Move W ds s (readEffect r s)
  | write {s t : State} {r : Reg} {ks : List Half} {v : Word} (hr : W r)
      (hk : ∀ k, k ∉ ks → halfOf k v = halfOf k (s.regs.get r)) (h : commit r ks v s = .next t) : Move W ds s t
  | eval (s : State) (d : EvalDraws) (hd : d ∈ ds) : Move W ds s (evaluate d s)

/-- A run of moves. -/
abbrev Moves (W : Reg → Prop) (ds : List EvalDraws) : State → State → Prop := Relation.ReflTransGen (Move W ds)

/-- The operation names a status word: by its own transaction, or as the register of a sub-field access. -/
def namesStatus : Instr → Reg → Prop
  | .eventOccurred _, q => q = .eventOccurred
  | .conflictOccurred _, q => q = .conflictOccurred
  | .fieldRd v _ _, q => q = (storage v).1
  | .fieldWr v _ _ _, q => q = (storage v).1
  | _, _ => False

/-- The words an operation may access: a status word only by naming it. -/
def mayAccess (i : Instr) (q : Reg) : Prop := isStatus q = true → namesStatus i q

/-- The evaluations an operation may run: its own, and those scheduled inside it. -/
def scheduled : Instr → State → List EvalDraws
  | .sctEval d, s => d :: s.between
  | _, s => s.between

section
variable {W : Reg → Prop} {ds : List EvalDraws} {s t : State} {r : Reg}

/-- The evaluations between two transactions are moves. -/
theorem moves_runBetween (h : ∀ d ∈ s.between, d ∈ ds) : Moves W ds s (runBetween s) := by
  have run : ∀ (es : List EvalDraws) (u : State), (∀ d ∈ es, d ∈ ds) → Moves W ds u (es.foldl (fun t d => evaluate d t) u) := by
    intro es
    induction es with
    | nil => exact fun u _ => .refl
    | cons e es ih =>
      intro u hu
      exact .head (.eval u e (hu e (by simp))) (ih _ fun d hd => hu d (by simp [hd]))
  exact (run s.between s h).tail (.answer _ _ [])

/-- A write of a word or a half, with nothing returned. -/
theorem moves_commit {ks : List Half} {v : Word} (hr : W r) (hk : ∀ k, k ∉ ks → halfOf k v = halfOf k (s.regs.get r))
    (h : commit r ks v s.silent = .next t) : Moves W ds s t :=
  .tail (.single (.answer s .nothing s.between)) (.write hr hk h)

/-- A write of the whole word keeps no half. -/
theorem keeps_no_half {v w : Word} (k : Half) (h : k ∉ [Half.low, .high]) : halfOf k v = halfOf k w := by
  cases k <;> simp at h

/-- A write of one half keeps the other. -/
theorem withHalf_keeps (k : Half) (w : Word) (x : HalfWord) (j : Half) (h : j ∉ [k]) : halfOf j (withHalf k w x) = halfOf j w :=
  halfOf_withHalf_other k j w x (by simpa using h)

/-- A 32-bit write is a run of moves (R141). -/
theorem moves_write32 {hd : Handle} {v : Word} (hr : W r) (h : write32 hd r v s = .next t) : Moves W ds s t :=
  moves_commit hr keeps_no_half h

/-- A 32-bit transaction (R140, R141). -/
theorem moves_transact32 {a : Access32} (hr : W r) (h : transact32 r a s = .next t) : Moves W ds s t := by
  obtain ⟨-, hd, h⟩ := withHandle_next h
  cases a with
  | read => cases h; exact .tail (.single (.read s r hr)) (.answer _ _ _)
  | write v => exact moves_write32 hr h

/-- A 16-bit transaction (R142, R143). -/
theorem moves_transact16 {k : Half} {a : Access16} (hr : W r) (h : transact16 r k a s = .next t) : Moves W ds s t := by
  obtain ⟨-, hd, h⟩ := withHandle_next h
  cases a with
  | read => cases h; exact .tail (.single (.read s r hr)) (.answer _ _ _)
  | write v => exact moves_commit hr (withHalf_keeps k _ _) h

/-- A sub-field read is one read (R145). -/
theorem moves_fieldRd {v : View} {o w : Nat} (hr : W (storage v).1) (h : execFieldRd v o w s = .next t) : Moves W ds s t := by
  obtain ⟨-, hd, h⟩ := withHandle_next h
  split at h
  · cases h; exact .tail (.single (.read s _ hr)) (.answer _ _ _)
  · cases h

/-- The two transactions of a sub-field write (R146), and the evaluations between them. -/
theorem moves_fieldWrite {hd : Handle} {v : View} {o w : Nat} {f : Word} (hr : W (storage v).1) (hb : ∀ d ∈ s.between, d ∈ ds)
    (h : fieldWrite hd v o w f s = .next t) : Moves W ds s t := by
  have first : Moves W ds s (runBetween (readEffect (storage v).1 s)) :=
    .head (.read s _ hr) (moves_runBetween hb)
  unfold fieldWrite at h
  rcases hst : storage v with ⟨r, _ | k⟩ <;> rw [hst] at first hr h
  · exact first.trans (moves_commit hr keeps_no_half h)
  · exact first.trans (moves_commit hr (withHalf_keeps _ _ _) h)

/-- `FIELD_WR` past its checks (R146). -/
theorem moves_fieldWr {v : View} {o w : Nat} {f : Word} (hr : W (storage v).1) (hb : ∀ d ∈ s.between, d ∈ ds)
    (h : execFieldWr v o w f s = .next t) : Moves W ds s t := by
  obtain ⟨-, hd, h⟩ := withHandle_next h
  split at h
  · split at h
    · split at h
      · cases h
      · exact moves_fieldWrite hr hb h
    · cases h
  · cases h

/-- `SLOT_ADDR` answers and does nothing else (R210). -/
theorem moves_slotAddr {arr : SlotArray} {n : Nat} {sel : SlotSelect} (h : execSlotAddr arr n sel s = .next t) :
    Moves W ds s t := by
  obtain ⟨-, hd, h⟩ := withHandle_next h
  split at h
  · split at h
    · cases h; exact .single (.answer _ _ _)
    · cases h
  · cases h

/-- `SCT_EVAL` is one evaluation (R240). -/
theorem moves_sctEval {d : EvalDraws} (hd : d ∈ ds) (h : execSctEval d s = .next t) : Moves W ds s t := by
  obtain ⟨-, h⟩ := whenBound_next h
  cases h
  exact .tail (.single (.eval s d hd)) (.answer _ _ _)

/-- The two transactions of `CONFIGURE_EVENT` (R219), and the evaluations between them. -/
theorem moves_configureEvent {n : Nat} {fields : EventFields} {gate : Word} (hr : ∀ e, W (.eventEnabledInState e) ∧ W (.eventControl e))
    (hb : ∀ d ∈ s.between, d ∈ ds) (h : execConfigureEvent n fields gate s = .next t) : Moves W ds s t := by
  obtain ⟨-, hd, h⟩ := withHandle_next h
  split at h
  · split at h
    · split at h
      · next u hu =>
        have first : Moves W ds s u := moves_write32 (hr _).1 hu
        have between : Moves W ds u (runBetween u) := moves_runBetween (by rwa [(write32_frame hu).2.2])
        exact (first.trans between).trans (moves_write32 (hr _).2 h)
      · next hn => exact absurd h (hn t)
    · cases h
  · cases h

end

/-- An operation of phase `BOUND` (R9): a transaction, what is made of transactions, `SLOT_ADDR` or `SCT_EVAL`. -/
def actsWhenBound (i : Instr) : Prop := homePhase i = .bound

/-- Such an operation is a run of moves. -/
theorem exec_moves {i : Instr} {s t : State} (hi : actsWhenBound i) (h : exec i s = .next t) :
    Moves (mayAccess i) (scheduled i s) s t := by
  cases ht : isTransaction i with
  | true =>
    obtain ⟨r, he, hev, hco⟩ := exec_transaction ht
    have hr : mayAccess i r := by
      intro hs
      rcases (by simpa [isStatus] using hs) with rfl | rfl
      · obtain ⟨a, rfl⟩ := hev rfl; rfl
      · obtain ⟨a, rfl⟩ := hco rfl; rfl
    rcases he with ⟨a, he⟩ | ⟨k, a, he⟩ <;> rw [he] at h
    · exact moves_transact32 hr h
    · exact moves_transact16 hr h
  | false =>
    cases i with
    | fieldRd v o w => exact moves_fieldRd (fun _ => rfl) h
    | fieldWr v o w f => exact moves_fieldWr (fun _ => rfl) (fun _ => id) h
    | slotAddr arr n sel => exact moves_slotAddr h
    | sctEval d => exact moves_sctEval (List.mem_cons_self ..) h
    | configureEvent n fields gate =>
      exact moves_configureEvent (fun e => ⟨fun hs => by simp [isStatus] at hs, fun hs => by simp [isStatus] at hs⟩)
        (fun _ => id) h
    | verify => cases hi
    | checkOffset => cases hi
    | checkSize => cases hi
    | checkStride => cases hi
    | bind => cases hi
    | _ => cases ht

/-! ## What moves keep -/

/-- `clear_counter` of both control registers is stored as 0 (R171). -/
def ClearZero (s : State) : Prop := s.regs.get .control &&& zeroBits s.params .control = 0

@[simp] theorem halfOf_zero (k : Half) : halfOf k 0 = 0 := by cases k <;> rfl

/-- `clear_counter` is stored as 0 in each control register (R116). -/
theorem clearZero_iff (s : State) :
    ClearZero s ↔ ∀ k, halfOf k (s.regs.get .control) &&& fieldMask 16 s.params.ctrlLayout.clearCounter = 0 := by
  have half : ∀ k, halfOf k (s.regs.get .control &&& zeroBits s.params .control) =
      halfOf k (s.regs.get .control) &&& fieldMask 16 s.params.ctrlLayout.clearCounter := fun k => by
    rw [halfOf_and, zeroBits, halfOf_inBothHalves]
  constructor
  · intro h k
    rw [← half, h, halfOf_zero]
  · exact fun h => word_ext_halves _ _ fun k => by rw [half, h, halfOf_zero]

/-- The agent's bits of `control` are other bits than `clear_counter`: the fields of a legal layout are disjoint (R110). -/
theorem clear_outside_agentBits {p : Params} (h : p.legal = true) :
    zeroBits p .control &&& agentControlBits p = 0 := by
  obtain ⟨hl, -⟩ := legal_ctrl h
  simp only [CtrlLayout.fields, fieldsLegal, disjointFields, List.all_cons, List.all_nil, Bool.and_eq_true, Bool.or_eq_true,
    decide_eq_true_eq] at hl
  refine word_ext_halves _ _ fun k => ?_
  rw [zeroBits, agentControlBits, halfOf_and, halfOf_inBothHalves, halfOf_inBothHalves, halfOf_zero]
  apply BitVec.eq_of_getLsbD_eq
  intro i hi
  rw [show (0 : HalfWord).getLsbD i = false from BitVec.getLsbD_zero, ← Bool.not_eq_true]
  simp only [BitVec.getLsbD_and, BitVec.getLsbD_or, fieldMask, getLsbD_mask, hi, Bool.and_eq_true, Bool.or_eq_true,
    decide_eq_true_eq]
  omega

/-- Words that agree outside a mask agree on bits apart from the mask. -/
theorem and_eq_of_agree_outside {n : Nat} {x y m z : BitVec n} (h : x &&& ~~~ m = y &&& ~~~ m) (hz : z &&& m = 0) :
    x &&& z = y &&& z := by
  apply BitVec.eq_of_getLsbD_eq
  intro i hi
  have agree := congrArg (·.getLsbD i) h
  have apart := congrArg (·.getLsbD i) hz
  simp only [BitVec.getLsbD_and, BitVec.getLsbD_not, hi] at agree apart ⊢
  cases hz : z.getLsbD i <;> simp_all

/-- An evaluation keeps `clear_counter` stored as 0 (R116, log entry 15). -/
theorem evaluate_clearZero (d : EvalDraws) {s : State} (hl : s.params.legal = true) (h : ClearZero s) :
    ClearZero (evaluate d s) := by
  unfold ClearZero
  rw [evaluate_params]
  exact (and_eq_of_agree_outside (evaluate_control d s hl) (clear_outside_agentBits hl)).trans h

/-- A write keeps `clear_counter` stored as 0: it clears it in the halves it writes and keeps the others (R171). -/
theorem commit_clearZero {s t : State} {r : Reg} {ks : List Half} {v : Word}
    (hk : ∀ k, k ∉ ks → halfOf k v = halfOf k (s.regs.get r)) (h : commit r ks v s = .next t) (hz : ClearZero s) :
    ClearZero t := by
  by_cases hr : r = .control
  · subst hr; cases h
    rw [clearZero_iff] at hz ⊢
    intro k
    rw [writeControl_half]
    by_cases hm : k ∈ ks
    · rw [if_pos hm]
      ext i hi
      simp
    · rw [if_neg hm, hk k hm]
      exact hz k
  · obtain ⟨g, -⟩ := commit_frame h
    unfold ClearZero
    rw [g.words .control (by cases r <;> simp_all [touched]), g.launch.params]
    exact hz

/-- A flag of a status word that is set after was set before. -/
def ClearsOnly (q : Reg) (s t : State) : Prop := ∀ i, (t.regs.get q).getLsbD i = true → (s.regs.get q).getLsbD i = true

/-- A word that is kept has no new flag. -/
theorem ClearsOnly.of_eq {q : Reg} {s t : State} (h : t.regs.get q = s.regs.get q) : ClearsOnly q s t := fun i hi => by rwa [h] at hi

/-- Masking a word sets none of its flags. -/
theorem clearsOnly_of_and {q : Reg} {s t : State} {m : Word} (h : t.regs.get q = s.regs.get q &&& m) : ClearsOnly q s t :=
  fun i hi => by
    rw [h, BitVec.getLsbD_and, Bool.and_eq_true] at hi
    exact hi.1

/-- A read sets no flag (R312). -/
theorem readEffect_clearsOnly (r q : Reg) (s : State) (hq : q ≠ .input) : ClearsOnly q s (readEffect r s) := by
  by_cases h : q = r
  · subst h
    unfold readEffect ClearsOnly
    split
    · exact clearsOnly_of_and (t := store q _ s) (get_set_same _ _ _ hq)
    · exact fun _ => id
  · refine .of_eq ((readEffect_frame r s).words q ?_)
    split <;> simp [h]

/-- A status word is none of those that a write of another word touches. -/
theorem not_mem_touched {r q : Reg} (hq : isStatus q = true) (h : q ≠ r) : q ∉ touched r := by
  cases r <;> cases q <;> simp_all [touched, isStatus]

/-- A write of a status word sets no flag (R185). -/
theorem storeFlags_clearsOnly {q : Reg} {v : Word} {s t : State} (hq : q ≠ .input) (h : storeFlags q v s = .next t) :
    ClearsOnly q s t := by
  unfold storeFlags at h
  split at h
  · cases h; exact clearsOnly_of_and (get_set_same _ _ _ hq)
  · cases h

/-- A write sets no flag. -/
theorem commit_clearsOnly {r q : Reg} {ks : List Half} {v : Word} {s t : State} (hq : isStatus q = true)
    (h : commit r ks v s = .next t) : ClearsOnly q s t := by
  by_cases hr : q = r
  · subst hr
    rcases (by simpa [isStatus] using hq) with rfl | rfl
    · exact storeFlags_clearsOnly (q := .eventOccurred) (by simp) h
    · exact storeFlags_clearsOnly (q := .conflictOccurred) (by simp) h
  · exact .of_eq ((commit_frame h).1.words q (not_mem_touched hq hr))

section
variable {W : Reg → Prop} {ds : List EvalDraws} {s t : State}

/-- A move changes neither the lifecycle nor the parameters nor the waiting operations. -/
theorem Move.sameLaunch (h : Move W ds s t) : SameLaunch s t := by
  cases h with
  | answer => exact ⟨rfl, rfl, rfl, rfl, rfl⟩
  | read => exact ⟨rfl, rfl, rfl, rfl, rfl⟩
  | write _ _ h => exact (commit_frame h).1.launch
  | eval => exact ⟨evaluate_phase .., evaluate_base .., evaluate_failure .., evaluate_params .., evaluate_queue ..⟩

/-- Nor does a run of moves. -/
theorem Moves.sameLaunch (h : Moves W ds s t) : SameLaunch s t := by
  induction h with
  | refl => exact sameLaunch_rfl s
  | tail _ m ih => exact ih.trans m.sameLaunch

/-- A move keeps `clear_counter` stored as 0. -/
theorem Move.clearZero (h : Move W ds s t) (hl : s.params.legal = true) (hz : ClearZero s) : ClearZero t := by
  cases h with
  | answer => exact hz
  | read r _ =>
    unfold ClearZero
    rw [(readEffect_frame r s).words .control (by cases r <;> simp [isStatus])]
    exact hz
  | write _ hk h => exact commit_clearZero hk h hz
  | eval d _ => exact evaluate_clearZero d hl hz

/-- So does a run of moves. -/
theorem Moves.clearZero (h : Moves W ds s t) (hl : s.params.legal = true) (hz : ClearZero s) : ClearZero t := by
  induction h with
  | refl => exact hz
  | tail run m ih => exact m.clearZero (by rwa [(Moves.sameLaunch run).params]) ih

/-- With no evaluation among them, moves set no flag of a status word. -/
theorem Move.clearsOnly {q : Reg} (hq : isStatus q = true) (h : Move W [] s t) : ClearsOnly q s t := by
  cases h with
  | answer => exact fun _ => id
  | read r _ => exact readEffect_clearsOnly r q s (by rintro rfl; simp [isStatus] at hq)
  | write _ _ h => exact commit_clearsOnly hq h
  | eval d hd => cases hd

/-- Nor does a run of them. -/
theorem Moves.clearsOnly {q : Reg} (hq : isStatus q = true) (h : Moves W [] s t) : ClearsOnly q s t := by
  induction h with
  | refl => exact fun _ => id
  | tail _ m ih => exact fun i hi => ih i (m.clearsOnly hq i hi)

/-- With no evaluation among them, moves leave a status word alone that they do not access. -/
theorem Move.keepsStatus {q : Reg} (hq : isStatus q = true) (hW : ¬ W q) (h : Move W [] s t) : t.regs.get q = s.regs.get q := by
  have other : ∀ r, W r → q ≠ r := fun r hr e => hW (e ▸ hr)
  cases h with
  | answer => rfl
  | read r hr => exact (readEffect_frame r s).words q (by split <;> simp [other r hr])
  | write hr _ h => exact (commit_frame h).1.words q (not_mem_touched hq (other _ hr))
  | eval d hd => cases hd

/-- So does a run of them. -/
theorem Moves.keepsStatus {q : Reg} (hq : isStatus q = true) (hW : ¬ W q) (h : Moves W [] s t) :
    t.regs.get q = s.regs.get q := by
  induction h with
  | refl => rfl
  | tail _ m ih => exact (m.keepsStatus hq hW).trans ih

end

/-! ## The lifecycle -/

/-- The operations that can halt a build (R301, log entry 7). -/
def isCheck (i : Instr) : Prop :=
  i = .verify ∨ (∃ n d, i = .checkOffset n d) ∨ (∃ d, i = .checkSize d) ∨ ∃ n d, i = .checkStride n d

/-- All that a completed operation can do to the lifecycle (R21): nothing, with a run of moves or a check that passes;
or one of the three edges. -/
inductive LifecycleStep (i : Instr) (s : State) : State → Prop where
  | moves {t : State} (h : Moves (mayAccess i) (scheduled i s) s t) : LifecycleStep i s t
  | passed (hp : s.phase = .unverified) : LifecycleStep i s { s with result := .passed }
  | verified (hi : i = .verify) (hp : s.phase = .unverified)
      (hv : verifyFailure s.params.layout s.params.anchors s.params.extent s.params.strides = none) :
      LifecycleStep i s { s with phase := .verified, result := .passed }
  | halted (f : BuildFailure) (hi : isCheck i) (hp : s.phase = .unverified) : LifecycleStep i s (takeBuildFailure f s)
  | bound (base : Word) (hi : i = .bind base) (hp : s.phase = .verified) (hb : baseOk base = true) :
      LifecycleStep i s { s with phase := .bound, base := some base, result := .nothing }

/-- A check passes or halts the build (R276 to R278). -/
theorem settleCheck_lifecycleStep {i : Instr} {s t : State} {f : Option BuildFailure} (hi : isCheck i)
    (h : whenUnverified s (.next (settleCheck f s)) = .next t) : LifecycleStep i s t := by
  obtain ⟨hp, h⟩ := whenUnverified_next h
  cases h
  cases f with
  | none => exact .passed hp
  | some f => exact .halted f hi hp

/-- `VERIFY` verifies or halts the build (R280). -/
theorem verify_lifecycleStep {s t : State} (h : execVerify s = .next t) : LifecycleStep .verify s t := by
  obtain ⟨hp, h⟩ := whenUnverified_next h
  split at h <;> cases h
  · next hv => exact .verified rfl hp hv
  · next f _ => exact .halted f (.inl rfl) hp

/-- `BIND` binds a verified build (R283). -/
theorem bind_lifecycleStep {base : Word} {s t : State} (h : execBind base s = .next t) : LifecycleStep (.bind base) s t := by
  unfold execBind at h
  split at h
  · next hp =>
    split at h <;> cases h
    next hb => exact .bound base rfl hp hb
  · cases h

/-- A completed operation makes a step of the lifecycle. -/
theorem exec_lifecycleStep {i : Instr} {s t : State} (h : exec i s = .next t) : LifecycleStep i s t := by
  cases i with
  | verify => exact verify_lifecycleStep h
  | checkOffset n d => exact settleCheck_lifecycleStep (.inr (.inl ⟨n, d, rfl⟩)) h
  | checkSize d => exact settleCheck_lifecycleStep (.inr (.inr (.inl ⟨d, rfl⟩))) h
  | checkStride n d => exact settleCheck_lifecycleStep (.inr (.inr (.inr ⟨n, d, rfl⟩))) h
  | bind base => exact bind_lifecycleStep h
  | _ => exact .moves (exec_moves rfl h)

/-! ## The invariant -/

/-- The invariant speaks of the lifecycle, the parameters and `clear_counter` alone. -/
theorem Invariant.of_sameLaunch {s t : State} (h : Invariant s) (g : SameLaunch s t) (hz : ClearZero t) : Invariant t where
  base_iff_bound := by rw [g.base, g.phase]; exact h.base_iff_bound
  base_ok := by rw [g.base]; exact h.base_ok
  failure_iff := by rw [g.failure, g.phase]; exact h.failure_iff
  past_harness := by rw [g.phase, g.params]; exact h.past_harness
  params_legal := by rw [g.params]; exact h.params_legal
  clear_is_zero := hz

/-- Before `BIND` there is no base (R21). -/
theorem Invariant.unbound {s : State} (h : Invariant s) (hp : s.phase ≠ .bound) : s.base = none := by
  have := h.base_iff_bound
  simpa [hp] using this

/-- While the build is not halted there is no failure record (R304). -/
theorem Invariant.no_failure {s : State} (h : Invariant s) (hp : s.phase ≠ .buildHalted) : s.failure = none := by
  have := h.failure_iff
  simpa [hp] using this

/-- Every completed operation keeps the invariant. -/
theorem LifecycleStep.invariant {i : Instr} {s t : State} (h : LifecycleStep i s t) (hs : Invariant s) : Invariant t := by
  cases h with
  | moves h => exact hs.of_sameLaunch h.sameLaunch (h.clearZero hs.params_legal hs.clear_is_zero)
  | passed => exact hs.of_sameLaunch ⟨rfl, rfl, rfl, rfl, rfl⟩ hs.clear_is_zero
  | verified _ hp hv =>
    have hb := hs.unbound (by simp [hp])
    have hf := hs.no_failure (by simp [hp])
    exact ⟨by simp [hb], by simp [hb], by simp [hf], fun _ => hv, hs.params_legal, hs.clear_is_zero⟩
  | halted f _ hp =>
    have hb := hs.unbound (by simp [hp])
    exact ⟨by simp [hb], by simp [hb], by simp, by simp, hs.params_legal, hs.clear_is_zero⟩
  | bound base _ hp hok =>
    have hf := hs.no_failure (by simp [hp])
    exact ⟨by simp, by simp [hok], by simp [hf], fun _ => hs.past_harness (.inl hp), hs.params_legal, hs.clear_is_zero⟩

/-- A completed step is the completed operation at the head of the queue. -/
theorem step_next {s t : State} (h : step s = .next t) :
    ∃ p rest i, s.queue = p :: rest ∧ decode p.word = .ok i ∧ exec i (s.take p rest) = .next t := by
  unfold step at h
  split at h
  · cases h
  · next p rest hq =>
    split at h
    · next i hd => exact ⟨p, rest, i, hq, hd, h⟩
    · cases h

/-- Taking an operation from the queue keeps the invariant. -/
theorem Invariant.take {s : State} (h : Invariant s) (p : Pending) (rest : List Pending) : Invariant (s.take p rest) :=
  ⟨h.base_iff_bound, h.base_ok, h.failure_iff, h.past_harness, h.params_legal, h.clear_is_zero⟩

/-- Settles O9: an operation is a run of moves or an edge of the lifecycle, and each keeps the invariant. -/
theorem stepKeepsInvariant : Obligations.StepKeepsInvariant := by
  intro s t hs h
  obtain ⟨p, rest, i, -, -, h⟩ := step_next h
  exact (exec_lifecycleStep h).invariant (hs.take p rest)

/-- Settles O10, by the cases of the lifecycle. -/
theorem lifecycleOrder : Obligations.LifecycleOrder := by
  intro i s t h
  cases exec_lifecycleStep h with
  | moves h => exact ⟨h.sameLaunch.params, .inl ⟨h.sameLaunch.phase, h.sameLaunch.base⟩⟩
  | passed => exact ⟨rfl, .inl ⟨rfl, rfl⟩⟩
  | verified hi hp _ => exact ⟨rfl, .inr (.inl ⟨hp, rfl, hi, rfl⟩)⟩
  | halted f hi hp => exact ⟨rfl, .inr (.inr (.inl ⟨hp, rfl, rfl, hi⟩))⟩
  | bound base hi hp _ => exact ⟨rfl, .inr (.inr (.inr ⟨hp, rfl, base, hi, rfl⟩))⟩

/-- Settles O6: the three cases of `step`. -/
theorem stepRunsDecoded : Obligations.StepRunsDecoded := by
  refine ⟨fun s p rest i hq hd => ?_, fun s p rest e hq hd => ?_, fun s hq => ?_⟩
  · rw [step, hq]; simp only [hd]; rfl
  · rw [step, hq]; simp only [hd]
  · rw [step, hq]

/-! ## Writes of a half -/

/-- A 16-bit write of a software-owned word without reserved bits replaces its half (R143). -/
theorem halfWrite_owned {mk : Access16 → Instr} {r : Reg} {k : Half} {ok : State → Prop}
    (he : ∀ s a, exec (mk a) s = transact16 r k a s) (ho : ∀ s, ok s → softwareOwned s.params r = true)
    (hr : ∀ p, reservedBits p r = 0) (hi : r ≠ .input) (hc : r ≠ .config) : HalfWrite mk r k ok (fun _ => ~~~ 0) := by
  refine halfWrite_of (fun s v => he s _) hi (fun s v hs => ?_) (fun p => ?_)
  · rw [commit_owned (s := s.silent) (ho s hs), if_neg hc]
  · rw [hr]; cases k <;> rfl

/-- Through either address of a half of `match_capture`, in match mode (R211, R212). -/
theorem halfWrite_matchCapture {mk : Access16 → Instr} {i : Slot} {k : Half}
    (he : ∀ s a, exec (mk a) s = transact16 (.matchCapture i) k a s) :
    HalfWrite mk (.matchCapture i) k inMatchMode (fun _ => ~~~ 0) :=
  halfWrite_owned he (fun _ hm => decide_eq_true hm) (fun _ => rfl) (by simp) (by simp)

/-- Through either address of a half of `capture_control` (R213, R214). -/
theorem halfWrite_captureControl {mk : Access16 → Instr} {i : Slot} {k : Half}
    (he : ∀ s a, exec (mk a) s = transact16 (.captureControl i) k a s) :
    HalfWrite mk (.captureControl i) k always (fun _ => ~~~ 0) :=
  halfWrite_owned he (fun _ _ => rfl) (fun _ => rfl) (by simp) (by simp)

/-- Through a half-view of one of the plain split registers (R172 to R175, R179). -/
theorem halfWrite_plain {mk : Access16 → Instr} {r : Reg} {k : Half} (he : ∀ s a, exec (mk a) s = transact16 r k a s)
    (hm : r ∈ [Reg.clearOnEvent, .haltOnEvent, .stopOnEvent, .startOnEvent, .registerMode]) :
    HalfWrite mk r k always (fun _ => ~~~ 0) := by
  simp only [List.mem_cons, List.not_mem_nil, or_false] at hm
  rcases hm with rfl | rfl | rfl | rfl | rfl <;>
    exact halfWrite_owned he (fun _ _ => rfl) (fun _ => rfl) (by simp) (by simp)

/-- Settles O27: each view is one half of a software-owned word without reserved bits. -/
theorem halfWrites : Obligations.HalfWrites := by
  refine ⟨?_, ?_, ?_, ?_, ?_, ?_, ?_, ?_, ?_, ?_, fun i => ⟨?_, ?_, ?_, ?_, ?_, ?_, ?_, ?_⟩⟩
  iterate 10 exact halfWrite_plain (fun _ _ => rfl) (by simp)
  iterate 4 exact halfWrite_matchCapture fun _ _ => rfl
  iterate 4 exact halfWrite_captureControl fun _ _ => rfl

/-! ## The status flags -/

/-- Only the evaluations scheduled inside it can run in an operation that is no `SCT_EVAL`. -/
theorem scheduled_of_ne {i : Instr} (h : ∀ d, i ≠ .sctEval d) (s : State) : scheduled i s = s.between := by
  cases i with
  | sctEval d => exact absurd rfl (h d)
  | _ => rfl

/-- `event_occurred` has one view. -/
theorem eventOccurred_view (u : View) (h : .eventOccurred = (storage u).1) : u = .eventOccurred := by
  cases u with
  | eventOccurred => rfl
  | _ => cases h

/-- `conflict_occurred` has one view. -/
theorem conflictOccurred_view (u : View) (h : .conflictOccurred = (storage u).1) : u = .conflictOccurred := by
  cases u with
  | conflictOccurred => rfl
  | _ => cases h

/-- An operation that is neither a transaction on a status word nor a sub-field access of its one view does not name it. -/
theorem not_namesStatus {i : Instr} {q : Reg} {v : View} (hv : ∀ u, q = (storage u).1 → u = v)
    (he : q = .eventOccurred → ∀ a, i ≠ .eventOccurred a) (hc : q = .conflictOccurred → ∀ a, i ≠ .conflictOccurred a)
    (hr : ∀ o w, i ≠ .fieldRd v o w) (hw : ∀ o w f, i ≠ .fieldWr v o w f) : ¬ namesStatus i q := by
  intro h
  cases i with
  | eventOccurred a => exact he h a rfl
  | conflictOccurred a => exact hc h a rfl
  | fieldRd u o w => exact hr o w (by rw [hv u h])
  | fieldWr u o w f => exact hw o w f (by rw [hv u h])
  | _ => exact h

/-- With no evaluation in it, an operation sets no flag of a status word, and changes the word only where it names it. -/
theorem exec_status {i : Instr} {s t : State} {q : Reg} (hq : isStatus q = true) (hi : ∀ d, i ≠ .sctEval d)
    (hb : s.between = []) (h : exec i s = .next t) :
    ClearsOnly q s t ∧ (¬ namesStatus i q → t.regs.get q = s.regs.get q) := by
  cases exec_lifecycleStep h with
  | moves run =>
    rw [scheduled_of_ne hi, hb] at run
    exact ⟨run.clearsOnly hq, fun hn => run.keepsStatus hq fun hm => hn (hm hq)⟩
  | passed | verified | halted | bound => exact ⟨.of_eq rfl, fun _ => rfl⟩

/-- Settles O39: no move but an evaluation sets a flag, and a move changes only the words it accesses. -/
theorem flagsSetByAgentOnly : Obligations.FlagsSetByAgentOnly := by
  intro i s t hi hb h
  obtain ⟨ev, evKept⟩ := exec_status (q := .eventOccurred) rfl hi hb h
  obtain ⟨co, coKept⟩ := exec_status (q := .conflictOccurred) rfl hi hb h
  exact ⟨fun e => ev e.val, fun p => co p.val,
    fun ha hr hw => evKept (not_namesStatus eventOccurred_view (fun _ => ha) nofun hr hw),
    fun ha hr hw => coKept (not_namesStatus conflictOccurred_view nofun (fun _ => ha) hr hw)⟩

/-! ## The frame of an evaluation -/

/-- A merge keeps the bits outside its mask. -/
theorem merge_and_outside {n : Nat} (m old new : BitVec n) : merge (~~~ m) old new &&& m = old &&& m := by
  apply BitVec.eq_of_getLsbD_eq
  intro i hi
  simp only [BitVec.getLsbD_and, BitVec.getLsbD_not, getLsbD_merge, hi, decide_true, Bool.true_and]
  cases m.getLsbD i <;> simp

/-- A merge takes the bits of its mask. -/
theorem merge_and_inside {n : Nat} (m old new : BitVec n) : merge m old new &&& m = new &&& m := by
  apply BitVec.eq_of_getLsbD_eq
  intro i hi
  simp only [BitVec.getLsbD_and, getLsbD_merge]
  cases m.getLsbD i <;> simp

/-- The flags of events and pins set no bit above the slots. -/
theorem setFlags_and_aboveSlots (x : Word) (f : Slot → Bool) : setFlags x (slotBits f) &&& aboveSlots = x &&& aboveSlots := by
  apply BitVec.eq_of_getLsbD_eq
  intro i hi
  have above : aboveSlots.getLsbD i = decide (16 ≤ i) := by
    revert hi; revert i; decide
  simp only [setFlags, BitVec.getLsbD_and, BitVec.getLsbD_or, above]
  by_cases h : 16 ≤ i
  · rw [getLsbD_slotBits_above f i h, Bool.or_false]
  · rw [decide_eq_false h, Bool.and_false, Bool.and_false]

/-- An evaluation keeps the bits of `state` outside the two state ids (R35). -/
theorem evaluate_state (d : EvalDraws) (s : State) :
    (evaluate d s).regs.get .state &&& outsideStates = s.regs.get .state &&& outsideStates := by
  cases hf : s.reservedInForce
  · rw [evaluate_of_rules hf]; exact newState_other s _
  · rw [evaluate_of_reserved hf]; exact merge_and_outside _ _ _

/-- An evaluation keeps the bits of `output` and of the status words above the slots. -/
theorem evaluate_aboveSlots (d : EvalDraws) (s : State) {r : Reg} (hr : r ∈ [Reg.output, .eventOccurred, .conflictOccurred]) :
    (evaluate d s).regs.get r &&& aboveSlots = s.regs.get r &&& aboveSlots := by
  simp only [List.mem_cons, List.not_mem_nil, or_false] at hr
  cases hf : s.reservedInForce
  · rw [evaluate_of_rules hf]
    rcases hr with rfl | rfl | rfl
    · exact merge_and_outside _ _ _
    · exact setFlags_and_aboveSlots _ _
    · exact setFlags_and_aboveSlots _ _
  · rw [evaluate_of_reserved hf]
    rcases hr with rfl | rfl | rfl <;> exact merge_and_outside _ _ _

/-- The draws of an evaluation are 32. -/
theorem drawn_evaluateReserved (s : State) {n : Nat} (h : n < evalDraws) : Drawn s (evaluateReserved s) (s.draw n) :=
  ⟨s.draws + n, by omega, by rw [evaluateReserved_draws]; omega, rfl⟩

/-- Under a reserved value the device-owned bits of a word are a draw (R131). -/
theorem evaluateReserved_drawn (s : State) {p : Reg × Word}
    (hp : p ∈ [(Reg.control, agentControlBits s.params), (.state, 0x001F001F), (.output, 0x0000FFFF), (.eventOccurred, 0x0000FFFF),
      (.conflictOccurred, 0x0000FFFF)]) :
    ∃ x, Drawn s (evaluateReserved s) x ∧ (evaluateReserved s).regs.get p.1 &&& p.2 = x &&& p.2 := by
  simp only [List.mem_cons, List.not_mem_nil, or_false] at hp
  rcases hp with rfl | rfl | rfl | rfl | rfl
  · exact ⟨s.draw 14, drawn_evaluateReserved s (by decide), merge_and_inside _ _ _⟩
  · exact ⟨s.draw 10, drawn_evaluateReserved s (by decide), merge_and_inside _ _ _⟩
  · exact ⟨s.draw 11, drawn_evaluateReserved s (by decide), merge_and_inside _ _ _⟩
  · exact ⟨s.draw 12, drawn_evaluateReserved s (by decide), merge_and_inside _ _ _⟩
  · exact ⟨s.draw 13, drawn_evaluateReserved s (by decide), merge_and_inside _ _ _⟩

/-- Under a reserved value a slot in capture mode is a draw (R131). -/
theorem evaluateReserved_slot (s : State) (hm : s.params.slotMode = .capturing) (i : Slot) :
    Drawn s (evaluateReserved s) ((evaluateReserved s).regs.get (.matchCapture i)) := by
  have slot : (evaluateReserved s).regs.get (.matchCapture i) = s.draw (16 + i.val) := by
    simp [evaluateReserved, Regs.get, hm]
  rw [slot]
  exact drawn_evaluateReserved s (by have := i.isLt; unfold evalDraws; omega)

/-- `SCT_EVAL` in phase `BOUND` is one evaluation, with nothing returned (R240). -/
theorem exec_sctEval {s : State} (hp : s.phase = .bound) (d : EvalDraws) : exec (.sctEval d) s = .next (evaluate d s).silent :=
  whenBound_of_bound hp _

/-- Settles O51: by the two kinds of evaluation, by the rules and under a reserved value. -/
theorem evaluationFrame : Obligations.EvaluationFrame := by
  intro s d hp hl
  refine ⟨(evaluate d s).silent, exec_sctEval hp d, rfl, evaluate_between .., ?_, evaluate_words d s, evaluate_control d s hl,
    evaluate_state d s, fun r hr => evaluate_aboveSlots d s hr, fun hn => ?_⟩
  · exact ⟨evaluate_phase .., evaluate_base .., evaluate_failure .., evaluate_params .., evaluate_queue ..⟩
  · have hf : s.reservedInForce = true := by rwa [← reservedInForce_iff, Bool.not_eq_false] at hn
    rw [evaluate_of_reserved hf]
    refine ⟨fun d₂ => ?_, drawn_evaluateReserved s (n := 9) (by decide), fun p => evaluateReserved_drawn s,
      evaluateReserved_slot s, s.draw 15, drawn_evaluateReserved s (by decide), rfl⟩
    rw [exec_sctEval hp, evaluate_of_reserved hf]

end Sys2Proof.Machine

/-! PROOFS. The family 30_encoding: the decoder and the encoder are inverse to each other, the verdict on a transaction, masked
reads and writes, insertion, and the halted machine. -/

namespace Sys2Proof

open Machine

/-! ## Transactions both ways -/

/-- The presentation of a transaction on a view: `tc = w ++ h ++ off` (R100) with a data word. -/
def transactionOp (v : View) (w : Bool) (d : Word) : OpWord :=
  { code := (if w then 0x2000 else 0) ||| v.code.setWidth 16, arg := 0, data := d, x0 := 0, x1 := 0, x2 := 0, x3 := 0 }

/-- A transaction the map admits (R102 test 5), with no data the packing does not use: a read carries none, a 16-bit write 16
bits (log entry 1). -/
structure Transacts (v : View) (w : Bool) (d : Word) : Prop where
  writable : w = true → v ≠ .input
  data     : if w then v.bits = 32 ∨ d >>> 16 = 0 else d = 0

/-- A word with a clear high half is its low half. -/
theorem setWidth_low_half {d : Word} (h : d >>> 16 = 0) : (d.setWidth 16).setWidth 32 = d := by
  have := congrArg BitVec.toNat h
  apply BitVec.eq_of_toNat_eq
  simp [BitVec.toNat_ushiftRight, Nat.shiftRight_eq_div_pow] at this ⊢
  omega

/-- The code of a transaction: bits 15 and 14 clear, bit 13 the direction, then the code of the view (R100). -/
theorem transactionOp_code (v : View) (w : Bool) (d : Word) :
    (transactionOp v w d).code.getLsbD 15 = false ∧ (transactionOp v w d).code.getLsbD 14 = false ∧
      (transactionOp v w d).code.getLsbD 13 = w ∧ (transactionOp v w d).code.setWidth 13 = v.code := by
  have bit := fun j (hj : 13 ≤ j) => Laws.HeadBits.view_bit v (if w then 0x2000 else 0) j hj
  refine ⟨(bit 15 (by decide)).trans ?_, (bit 14 (by decide)).trans ?_, (bit 13 (by decide)).trans ?_, ?_⟩
  iterate 3 cases w <;> rfl
  · rw [transactionOp, BitVec.setWidth_or, BitVec.setWidth_setWidth_of_le _ (by decide), BitVec.setWidth_eq]
    cases w <;> exact BitVec.zero_or

/-- A presented code with bits 15 and 14 clear is the code of a transaction on the view it names. -/
theorem transaction_code {c : HalfWord} {v : View} (h15 : c.getLsbD 15 = false) (h14 : c.getLsbD 14 = false)
    (hv : v.code = c.setWidth 13) : (if c.getLsbD 13 then 0x2000 else 0) ||| v.code.setWidth 16 = c := by
  have direction : ∀ (b : Bool) (i : Fin 16), (if b then 0x2000 else 0 : HalfWord).getLsbD i = (b && decide (i.val = 13)) := by
    decide
  rw [hv]
  apply BitVec.eq_of_getLsbD_eq
  intro i hi
  rw [BitVec.getLsbD_or, direction _ ⟨i, hi⟩, BitVec.getLsbD_setWidth, BitVec.getLsbD_setWidth]
  by_cases hl : i < 13
  · simp [hi, hl, Nat.ne_of_lt hl]
  · obtain rfl | rfl | rfl : i = 13 ∨ i = 14 ∨ i = 15 := by omega
    · simp
    · rw [h14]; simp
    · rw [h15]; simp

/-- Decoding the presentation of a transaction gives the transaction. -/
theorem decode_transactionOp {v : View} {w : Bool} {d : Word} (h : Transacts v w d) :
    decode (transactionOp v w d) = .ok (transactionOf v w d) := by
  obtain ⟨h15, h14, h13, hc⟩ := transactionOp_code v w d
  have packed : transactionPacked (transactionOp v w d) v w = true := by
    have := h.data
    cases w <;> simpa [transactionPacked, transactionOp] using this
  have admitted : (w && decide (v = .input)) = false := by
    have := h.writable
    cases w <;> simp_all
  simp only [decode, decodeTransaction, h15, h14, h13, hc, lookupView_code, packed, admitted]
  rfl

/-- What decodes as a transaction is the presentation of the transaction it decodes to. -/
theorem decodeTransaction_ok {op : OpWord} {i : Instr} (h15 : op.code.getLsbD 15 = false) (h : decodeTransaction op = .ok i) :
    ∃ v w d, Transacts v w d ∧ op = transactionOp v w d ∧ i = transactionOf v w d := by
  simp only [decodeTransaction] at h
  split at h
  · cases h
  next h14 =>
  split at h
  · cases h
  next v hv =>
  split at h
  · cases h
  next hw =>
  split at h
  next hp =>
    cases h
    simp only [transactionPacked, Bool.and_eq_true, decide_eq_true_eq] at hp
    obtain ⟨⟨⟨⟨⟨ha, h0⟩, h1⟩, h2⟩, h3⟩, hd⟩ := hp
    refine ⟨v, op.code.getLsbD 13, op.data, ⟨by simpa using hw, ?_⟩, ?_, rfl⟩
    · split at hd <;> simp_all
    · have hc := transaction_code h15 (by simpa using h14) (code_of_lookupView hv)
      cases op
      simp_all [transactionOp]
  · cases h

/-- A transaction is encoded with the width of its view (R100). -/
theorem encode_transactionOf_eq {v : View} {w : Bool} {d : Word} (h : Transacts v w d) :
    encode (transactionOf v w d) = if v.bits = 32 then encode32 v (access32 w d) else encode16 v (access16 w d) := by
  cases v with
  | input =>
    cases w with
    | true => exact absurd rfl (h.writable rfl)
    | false => rfl
  | _ => rfl

/-- A transaction is encoded as its presentation. -/
theorem encode_transactionOf {v : View} {w : Bool} {d : Word} (h : Transacts v w d) :
    encode (transactionOf v w d) = transactionOp v w d := by
  have hd := h.data
  rw [encode_transactionOf_eq h]
  split <;> cases w <;> simp_all [encode32, encode16, access32, access16, transactionOp, setWidth_low_half]

/-! ## Operands of the selected operations both ways -/

@[simp] theorem loByte_joinBytes (lo hi : Byte) : loByte (joinBytes lo hi) = lo := BitVec.setWidth_append_eq_right

@[simp] theorem hiByte_joinBytes (lo hi : Byte) : hiByte (joinBytes lo hi) = hi := by
  apply BitVec.eq_of_getLsbD_eq
  intro i h
  rw [hiByte, joinBytes, BitVec.getLsbD_setWidth, BitVec.getLsbD_ushiftRight, BitVec.getLsbD_append, if_neg (by omega)]
  simp [h]

@[simp] theorem joinBytes_bytes (x : HalfWord) : joinBytes (loByte x) (hiByte x) = x := by
  apply BitVec.eq_of_getLsbD_eq
  intro i h
  rw [loByte, hiByte, joinBytes, BitVec.getLsbD_append]
  by_cases hi : i < 8
  · simp [hi]
  · have h8 : 8 + (i - 8) = i := by omega
    simp [hi, h8]
    omega

/-- The half that carries a sub-field pair gives the pair back. -/
theorem pairHalf_bytes (x : HalfWord) : pairHalf (loByte x).toNat ((hiByte x).toNat + 1) = x := by
  simp [pairHalf]

/-- The numbers past the named entries (log entry 1). -/
theorem fieldNameOf_unnamed {n : Nat} (h : 26 ≤ n) :
    fieldNameOf n = if 0x8000 ≤ n then .ok (.other (n - 0x8000))
      else if 0x1000 ≤ n ∧ n < 0x2000 then .ok (.reserved (n - 0x1000)) else .error .badOperand := by
  unfold fieldNameOf
  split <;> first | omega | rfl

/-- A field name is the name with its number. -/
theorem fieldNameOf_number {name : FieldName} (h : name.wellFormed = true) : fieldNameOf name.number = .ok name := by
  cases name with
  | reserved off =>
    have : off < 0x1000 := by simpa [FieldName.wellFormed] using h
    rw [FieldName.number, fieldNameOf_unnamed (by omega), if_neg (by omega), if_pos (by omega), Nat.add_sub_cancel_left]
  | other n => rw [FieldName.number, fieldNameOf_unnamed (by omega), if_pos (by omega), Nat.add_sub_cancel_left]
  | _ => rfl

/-- The number of a well-formed name has 16 bits. -/
theorem number_lt {name : FieldName} (h : name.wellFormed = true) : name.number < 65536 := by
  cases name <;> simp [FieldName.wellFormed, FieldName.number] at h ⊢ <;> omega

/-- The name with a number has that number. -/
theorem number_of_fieldNameOf {n : Nat} {name : FieldName} (h : fieldNameOf n = .ok name) : name.number = n := by
  by_cases hn : 26 ≤ n
  · rw [fieldNameOf_unnamed hn] at h
    split at h
    · cases h; simp only [FieldName.number]; omega
    · split at h
      · cases h; simp only [FieldName.number]; omega
      · cases h
  · interval_cases n <;> cases h <;> rfl

theorem slotArrayOf_number (a : SlotArray) : slotArrayOf a.number.toNat = .ok a := by cases a <;> rfl

theorem slotSelectOf_number (j : SlotSelect) : slotSelectOf j.number.toNat = .ok j := by cases j <;> rfl

theorem number_of_slotArrayOf {x : HalfWord} {a : SlotArray} (h : slotArrayOf x.toNat = .ok a) : a.number = x := by
  apply BitVec.eq_of_toNat_eq
  unfold slotArrayOf at h
  split at h <;> cases h <;> exact Eq.symm ‹_›

theorem number_of_slotSelectOf {x : HalfWord} {j : SlotSelect} (h : slotSelectOf x.toNat = .ok j) : j.number = x := by
  apply BitVec.eq_of_toNat_eq
  unfold slotSelectOf at h
  split at h <;> cases h <;> exact Eq.symm ‹_›

/-- An operation is accepted when the unused bits of its packing are clear. -/
theorem packed_ok {b : Bool} {i j : Instr} : packed b i = .ok j ↔ b = true ∧ i = j := by
  cases b <;> simp [packed]

/-- The register operand of a sub-field access gives its view back (R145, R146). -/
theorem decodeRegister_code (v : View) (code : HalfWord) (data : Word) (x0 x1 x2 x3 : HalfWord) :
    decodeRegister ⟨code, v.code.setWidth 16, data, x0, x1, x2, x3⟩ = .ok v := by
  have hl := v.code.isLt
  have hc : (v.code.setWidth 16).toNat = v.code.toNat := by
    rw [BitVec.toNat_setWidth]; exact Nat.mod_eq_of_lt (by omega)
  rw [decodeRegister, hc, if_pos hl, BitVec.setWidth_setWidth_of_le _ (by decide), BitVec.setWidth_eq, lookupView_code]

/-- The view of a register operand has that code. -/
theorem code_of_decodeRegister {op : OpWord} {v : View} (h : decodeRegister op = .ok v) : v.code.setWidth 16 = op.arg := by
  unfold decodeRegister at h
  split at h
  · next hl =>
    rw [code_of_lookupView h]
    apply BitVec.eq_of_toNat_eq
    simp
    omega
  · cases h

/-! ## Selected operations both ways -/

/-- The code of a selected operation: bit 15 and the selector (R105, log entry 1). -/
theorem selected_code {c : HalfWord} {n : Nat} (h15 : c.getLsbD 15 = true) (hz : c.toNat % 0x8000 / 16 = 0)
    (hn : c.toNat % 16 = n) : 0x8000 ||| BitVec.ofNat 16 n = c := by
  have marked : ∀ k : Fin 16, (0x8000 ||| BitVec.ofNat 16 k.val : HalfWord).toNat = 0x8000 + k.val := by decide
  have hc : 0x8000 ≤ c.toNat := by
    rw [← BitVec.testBit_toNat] at h15
    exact Nat.ge_two_pow_of_testBit h15
  have hl := c.isLt
  apply BitVec.eq_of_toNat_eq
  rw [marked ⟨n, by omega⟩]
  show 0x8000 + n = _
  omega

/-- `CHECK_OFFSET` is the encoding of what it decodes to (R105). -/
theorem encode_of_decodeCheckOffset {op : OpWord} {i : Instr} (h : decodeCheckOffset op = .ok i) :
    encode i = { op with code := 0x8001 } := by
  unfold decodeCheckOffset at h
  split at h
  · next name hn =>
    obtain ⟨hp, rfl⟩ := packed_ok.1 h
    have := number_of_fieldNameOf hn
    cases op
    simp_all [encode, encodeSelected, tailClear]
  · cases h

/-- `CHECK_STRIDE` is the encoding of what it decodes to (R105). -/
theorem encode_of_decodeCheckStride {op : OpWord} {i : Instr} (h : decodeCheckStride op = .ok i) :
    encode i = { op with code := 0x8003 } := by
  unfold decodeCheckStride at h
  split at h
  · next name hn =>
    obtain ⟨hp, rfl⟩ := packed_ok.1 h
    have := number_of_fieldNameOf hn
    cases op
    simp_all [encode, encodeSelected, tailClear]
  · cases h

/-- `FIELD_RD` is the encoding of what it decodes to (R105, R145). -/
theorem encode_of_decodeFieldRd {op : OpWord} {i : Instr} (h : decodeFieldRd op = .ok i) :
    encode i = { op with code := 0x8005 } := by
  unfold decodeFieldRd at h
  split at h
  · next v hv =>
    obtain ⟨hp, rfl⟩ := packed_ok.1 h
    have := code_of_decodeRegister hv
    cases op
    simp_all [encode, encodeSelected, pairHalf_bytes]
  · cases h

/-- `FIELD_WR` is the encoding of what it decodes to (R105, R146). -/
theorem encode_of_decodeFieldWr {op : OpWord} {i : Instr} (h : decodeFieldWr op = .ok i) :
    encode i = { op with code := 0x8006 } := by
  unfold decodeFieldWr at h
  split at h
  · next v hv =>
    split at h
    · cases h
    · obtain ⟨hp, rfl⟩ := packed_ok.1 h
      have := code_of_decodeRegister hv
      cases op
      simp_all [encode, encodeSelected, pairHalf_bytes]
  · cases h

/-- `SLOT_ADDR` is the encoding of what it decodes to (R105, R210). -/
theorem encode_of_decodeSlotAddr {op : OpWord} {i : Instr} (h : decodeSlotAddr op = .ok i) :
    encode i = { op with code := 0x8007 } := by
  unfold decodeSlotAddr at h
  split at h
  · next arr sel ha hs =>
    obtain ⟨hp, rfl⟩ := packed_ok.1 h
    have := number_of_slotArrayOf ha
    have := number_of_slotSelectOf hs
    cases op
    simp_all [encode, encodeSelected]
  · cases h
  · cases h

/-- `SCT_EVAL` is the encoding of what it decodes to (R105, R240). -/
theorem encode_of_decodeSctEval {op : OpWord} {i : Instr} (h : decodeSctEval op = .ok i) :
    encode i = { op with code := 0x8008 } := by
  obtain ⟨hp, rfl⟩ := packed_ok.1 h
  cases op
  simp_all [encode, encodeSelected]

/-- `CONFIGURE_EVENT` is the encoding of what it decodes to (R105, R219). -/
theorem encode_of_decodeConfigureEvent {op : OpWord} {i : Instr} (h : decodeConfigureEvent op = .ok i) :
    encode i = { op with code := 0x8009 } := by
  cases h
  cases op
  simp [encode, encodeSelected]

/-- What decodes by a selector is the encoding of what it decodes to, by the ten selectors of R105. -/
theorem encode_of_decodeSelected {op : OpWord} {i : Instr} (h15 : op.code.getLsbD 15 = true) (h : decodeSelected op = .ok i) :
    encode i = op := by
  unfold decodeSelected at h
  split at h
  · cases h
  next hz =>
  have code : ∀ n, op.code.toNat % 16 = n → { op with code := 0x8000 ||| BitVec.ofNat 16 n } = op := fun n hn => by
    rw [selected_code h15 (not_not.1 hz) hn]
  split at h
  next hn =>
    obtain ⟨hp, rfl⟩ := packed_ok.1 h
    rw [← code 0 hn]
    simp_all [encode, encodeSelected, tailClear]
  next hn => exact (encode_of_decodeCheckOffset h).trans (code 1 hn)
  next hn =>
    obtain ⟨hp, rfl⟩ := packed_ok.1 h
    rw [← code 2 hn]
    simp_all [encode, encodeSelected, tailClear]
  next hn => exact (encode_of_decodeCheckStride h).trans (code 3 hn)
  next hn =>
    obtain ⟨hp, rfl⟩ := packed_ok.1 h
    rw [← code 4 hn]
    simp_all [encode, encodeSelected, tailClear]
  next hn => exact (encode_of_decodeFieldRd h).trans (code 5 hn)
  next hn => exact (encode_of_decodeFieldWr h).trans (code 6 hn)
  next hn => exact (encode_of_decodeSlotAddr h).trans (code 7 hn)
  next hn => exact (encode_of_decodeSctEval h).trans (code 8 hn)
  next hn => exact (encode_of_decodeConfigureEvent h).trans (code 9 hn)
  next => cases h

/-- The offset and the width of a sub-field pair of a view fit their bytes (R110). -/
theorem pairHalf_fits {v : View} {o w : Nat} (h : fieldPairOk v.bits o w = true) :
    (loByte (pairHalf o w)).toNat = o ∧ (hiByte (pairHalf o w)).toNat + 1 = w := by
  have hb : v.bits ≤ 32 := by rw [bits_eq]; split <;> decide
  simp only [fieldPairOk, Bool.and_eq_true, decide_eq_true_eq] at h
  simp [pairHalf]
  omega

/-- Decoding the encoding of a well-formed operation of R105 gives it back. -/
theorem decode_encode_selected {i : Instr} (ht : isTransaction i = false) (h : i.wellFormed = true) :
    decode (encode i) = .ok i := by
  cases i with
  | verify => simp [encode, encodeSelected, decode, decodeSelected, tailClear, packed_ok]
  | checkOffset name n =>
    obtain ⟨hn, hd⟩ : name.wellFormed = true ∧ n < 4294967296 := by simpa [Instr.wellFormed] using h
    simp [encode, encodeSelected, decode, decodeSelected, decodeCheckOffset, tailClear, packed, fieldNameOf_number hn,
      Nat.mod_eq_of_lt (number_lt hn), Nat.mod_eq_of_lt hd]
  | checkSize n =>
    have hd : n < 4294967296 := by simpa [Instr.wellFormed] using h
    simp [encode, encodeSelected, decode, decodeSelected, tailClear, packed, Nat.mod_eq_of_lt hd]
  | checkStride name n =>
    obtain ⟨hn, hd⟩ : name.wellFormed = true ∧ n < 4294967296 := by simpa [Instr.wellFormed] using h
    simp [encode, encodeSelected, decode, decodeSelected, decodeCheckStride, tailClear, packed, fieldNameOf_number hn,
      Nat.mod_eq_of_lt (number_lt hn), Nat.mod_eq_of_lt hd]
  | bind base => simp [encode, encodeSelected, decode, decodeSelected, tailClear, packed]
  | fieldRd v o w =>
    simp [encode, encodeSelected, decode, decodeSelected, decodeFieldRd, packed, decodeRegister_code, pairHalf_fits h]
  | fieldWr v o w f =>
    obtain ⟨⟨hp, -⟩, hi⟩ : (fieldPairOk v.bits o w = true ∧ f.toNat < 2 ^ w) ∧ v ≠ .input := by
      simpa [Instr.wellFormed] using h
    simp [encode, encodeSelected, decode, decodeSelected, decodeFieldWr, packed, decodeRegister_code, pairHalf_fits hp, hi]
  | slotAddr arr n sel =>
    obtain ⟨hn, -⟩ : n < 16 ∧ slotDeclares arr sel = true := by simpa [Instr.wellFormed] using h
    have hl : n < 65536 := by omega
    simp [encode, encodeSelected, decode, decodeSelected, decodeSlotAddr, packed, slotArrayOf_number, slotSelectOf_number,
      Nat.mod_eq_of_lt hl]
  | sctEval d => simp [encode, encodeSelected, decode, decodeSelected, decodeSctEval, packed]
  | configureEvent n fields gate =>
    have hn : n < 16 := by simpa [Instr.wellFormed] using h
    have hl : n < 65536 := by omega
    simp [encode, encodeSelected, decode, decodeSelected, decodeConfigureEvent, Nat.mod_eq_of_lt hl]
  | _ => cases ht

/-- The encoding of a 32-bit access to a writable view decodes to it. -/
theorem decode_encode32 {v : View} {mk : Access32 → Instr} (hm : ∀ w d, transactionOf v w d = mk (access32 w d))
    (hb : v.bits = 32) (hi : v ≠ .input) (a : Access32) : decode (encode32 v a) = .ok (mk a) := by
  obtain ⟨w, d, ht, rfl⟩ : ∃ w d, Transacts v w d ∧ access32 w d = a := by
    cases a with
    | read => exact ⟨false, 0, ⟨nofun, rfl⟩, rfl⟩
    | write d => exact ⟨true, d, ⟨fun _ => hi, .inl hb⟩, rfl⟩
  have he : encode32 v (access32 w d) = transactionOp v w d := by
    rw [← encode_transactionOf ht, encode_transactionOf_eq ht, if_pos hb]
  rw [he, decode_transactionOp ht, hm]

/-- The encoding of a 16-bit access to a view decodes to it. -/
theorem decode_encode16 {v : View} {mk : Access16 → Instr} (hm : ∀ w d, transactionOf v w d = mk (access16 w d))
    (hb : v.bits = 16) (a : Access16) : decode (encode16 v a) = .ok (mk a) := by
  have hi : v ≠ .input := by rintro rfl; cases hb
  obtain ⟨w, d, ht, rfl⟩ : ∃ w d, Transacts v w d ∧ access16 w d = a := by
    cases a with
    | read => exact ⟨false, 0, ⟨nofun, rfl⟩, rfl⟩
    | write x =>
      refine ⟨true, x.setWidth 32, ⟨fun _ => hi, .inr ?_⟩, ?_⟩
      · ext i h; simp
      · exact congrArg Access16.write (BitVec.setWidth_setWidth_of_le _ (by decide))
  have he : encode16 v (access16 w d) = transactionOp v w d := by
    rw [← encode_transactionOf ht, encode_transactionOf_eq ht, if_neg (by rw [hb]; decide)]
  rw [he, decode_transactionOp ht, hm]

/-- Decoding the encoding of a transaction gives it back, row by row of R103. -/
theorem decode_encode_transaction {i : Instr} (h : isTransaction i = true) : decode (encode i) = .ok i := by
  cases i with
  | input => exact decode_transactionOp (v := .input) (w := false) (d := 0) ⟨nofun, rfl⟩
  | config a | control a | clearOnEvent a | haltOnEvent a | stopOnEvent a | startOnEvent a | count a | state a | registerMode a
  | output a | outputDirectionControl a | conflictResolution a | dmaRequest0 a | dmaRequest1 a | interruptOnEvent a
  | eventOccurred a | interruptOnConflict a | conflictOccurred a | matchCapture _ a | captureControl _ a
  | eventEnabledInState _ a | eventControl _ a | outputOnEventSet _ a | outputOnEventClear _ a =>
    exact decode_encode32 (fun _ _ => rfl) rfl (by simp) a
  | controlLow a | controlHigh a | clearOnEventLow a | clearOnEventHigh a | haltOnEventLow a | haltOnEventHigh a
  | stopOnEventLow a | stopOnEventHigh a | startOnEventLow a | startOnEventHigh a | countLow a | countHigh a | stateLow a
  | stateHigh a | registerModeLow a | registerModeHigh a | matchCaptureLow _ a | matchCaptureHigh _ a | matchAliasLow _ a
  | matchAliasHigh _ a | captureControlLow _ a | captureControlHigh _ a | captureControlAliasLow _ a
  | captureControlAliasHigh _ a => exact decode_encode16 (fun _ _ => rfl) rfl a
  | _ => cases h

/-- Settles O1: the rows of R103 by the code of their view, the selectors of R105 by their operands. -/
theorem decodeOfEncode : Obligations.DecodeOfEncode := by
  intro i h
  cases ht : isTransaction i with
  | true => exact decode_encode_transaction ht
  | false => exact decode_encode_selected ht h

/-- Settles O2: bit 15 of the code tells the two kinds of operation apart. -/
theorem encodeOfDecode : Obligations.EncodeOfDecode := by
  intro op i h
  unfold decode at h
  split at h
  · next h15 => exact encode_of_decodeSelected h15 h
  · next h15 =>
    obtain ⟨v, w, d, ht, rfl, rfl⟩ := decodeTransaction_ok (by simpa using h15) h
    exact encode_transactionOf ht

end Sys2Proof

namespace Sys2Proof

open Machine

/-! ## The opcode map -/

/-- Two rows are told apart by a bit that both masks look at and in which their codes differ. -/
theorem rows_disjoint {a b : OpcodeRow} (h : (a.code ^^^ b.code) &&& (a.mask &&& b.mask) ≠ 0) (c : BitVec 13) :
    ¬ (a.matches c = true ∧ b.matches c = true) := by
  simp only [OpcodeRow.matches, decide_eq_true_eq]
  rintro ⟨ha, hb⟩
  refine h (BitVec.eq_of_getLsbD_eq fun i hi => ?_)
  rw [← ha, ← hb]
  simp only [BitVec.getLsbD_and, BitVec.getLsbD_xor]
  cases c.getLsbD i <;> cases a.mask.getLsbD i <;> cases b.mask.getLsbD i <;> simp

/-- Settles O3: every two rows differ in a bit that both masks look at. -/
theorem opcodeRowsDisjoint : Obligations.OpcodeRowsDisjoint := by
  have told : opcodeRows.Pairwise fun a b => (a.code ^^^ b.code) &&& (a.mask &&& b.mask) ≠ 0 := by decide
  exact told.imp fun h => rows_disjoint h

/-- Settles O5, by evaluating the decoder on each word. -/
theorem specWordsDecode : Obligations.SpecWordsDecode := by
  unfold Obligations.SpecWordsDecode
  decide

/-! ## The verdict on a transaction -/

/-- The entries of a descriptor with their offsets (R272), the first one at `b`. -/
def placed : Nat → List Entry → List (Nat × Entry)
  | _, [] => []
  | b, e :: L => (b, e) :: placed (b + e.unit * e.count) L

/-- An offset inside a descriptor lies in one of its placed entries. -/
theorem entryAt_placed (L : List Entry) (b off : Nat) (h : off < totalBytes L) :
    ∃ p ∈ placed b L, ∃ k < p.2.unit * p.2.count, b + off = p.1 + k ∧ entryAt L off = some (p.2, k) := by
  induction L generalizing b off with
  | nil => simp [totalBytes] at h
  | cons e L ih =>
    by_cases he : off < e.unit * e.count
    · exact ⟨(b, e), List.mem_cons_self, off, he, rfl, if_pos he⟩
    · have hl : off - e.unit * e.count < totalBytes L := by
        simp only [totalBytes, List.map_cons, List.sum_cons] at h ⊢
        omega
      obtain ⟨p, hp, k, hk, ho, hat⟩ := ih (b + e.unit * e.count) _ hl
      exact ⟨p, List.mem_cons_of_mem _ hp, k, hk, by omega, (if_neg he).trans hat⟩

/-- The reserved rows of R30 are the padding entries of the descriptor, and apart from its fields (R271). -/
theorem placed_reserved : ∀ p ∈ placed 0 specLayout,
    (p.2.kind = .reserved ∧ (p.1, p.1 + p.2.unit * p.2.count) ∈ reservedRegions) ∨
      (p.2.kind = .field ∧ ∀ q ∈ reservedRegions, p.1 + p.2.unit * p.2.count ≤ q.1 ∨ q.2 ≤ p.1) := by decide

/-- An offset of the map lies in a reserved row of R30 exactly where the descriptor has padding. -/
theorem isReserved_eq {off : Nat} (h : off < 0x580) : isReserved off = inPadding specLayout off := by
  obtain ⟨p, hp, k, hk, ho, hat⟩ := entryAt_placed specLayout 0 off h
  rw [Nat.zero_add] at ho
  rcases placed_reserved p hp with ⟨hr, hm⟩ | ⟨hf, hd⟩
  · have : isReserved off = true := List.any_eq_true.2 ⟨_, hm, by simp; omega⟩
    simp [this, inPadding, hat, hr]
  · have : isReserved off = false := List.any_eq_false.2 fun q hq => by
      have := hd q hq
      simp; omega
    simp [this, inPadding, hat, hf]

/-- The offsets inside an element at which an entry declares an access of `n` bytes (R76). -/
def elementAccesses (e : Entry) (n : Nat) : List Nat :=
  (if e.unit = n then [0] else []) ++ (e.subs.filter fun p => decide (p.bytes = n)).map SubEntry.off

/-- The code `h ++ off` of an access (R100). -/
def accessCode (h : Bool) (off : Nat) : BitVec 13 := BitVec.ofNat 13 ((if h then 0x1000 else 0) + off)

/-- Every access a field of the descriptor declares is in the opcode map (R103). -/
theorem placed_mapped : ∀ p ∈ placed 0 specLayout, p.2.kind = .field → ∀ (h : Bool) (i : Fin p.2.count),
    ∀ o ∈ elementAccesses p.2 (if h then 2 else 4), (viewOf (accessCode h (p.1 + p.2.unit * i + o))).isSome = true := by decide

/-- An access the descriptor declares is in the opcode map. -/
theorem viewOf_of_declares {h : Bool} {off : Nat} (hl : off < 0x580) (hd : declaresAccess specLayout h off = true) :
    (viewOf (accessCode h off)).isSome = true := by
  obtain ⟨p, hp, k, hk, ho, hat⟩ := entryAt_placed specLayout 0 off hl
  simp only [declaresAccess, hat, Bool.and_eq_true, Bool.or_eq_true, decide_eq_true_eq, List.any_eq_true] at hd
  obtain ⟨hf, hd⟩ := hd
  have hi : k / p.2.unit < p.2.count := Nat.div_lt_of_lt_mul hk
  have hoff : off = p.1 + p.2.unit * (k / p.2.unit) + k % p.2.unit := by
    have := Nat.div_add_mod k p.2.unit
    omega
  have ho : k % p.2.unit ∈ elementAccesses p.2 (if h then 2 else 4) := by
    rcases hd with ⟨hn, hz⟩ | ⟨q, hq, hn, hz⟩
    · simp [elementAccesses, hn, hz]
    · exact List.mem_append_right _ (List.mem_map.2 ⟨q, List.mem_filter.2 ⟨hq, by simpa using hn⟩, hz.symm⟩)
  have := placed_mapped p hp hf h ⟨_, hi⟩ _ ho
  rwa [← hoff] at this

/-- A view the map selects is that of one of its rows, at the index the code carries (R103, R104). -/
theorem viewOf_row {c : BitVec 13} {v : View} (h : viewOf c = some v) :
    ∃ r ∈ opcodeRows, r.matches c = true ∧ r.view (r.index c) = v := by
  obtain ⟨r, hr, h⟩ := List.exists_of_findSome?_eq_some h
  split at h
  · next hm => cases h; exact ⟨r, hr, hm, rfl⟩
  · cases h

/-- The code of a view selects the view. -/
theorem viewOf_code (v : View) : viewOf v.code = some v := by
  have hv := lookupView_code v
  simp only [lookupView] at hv
  repeat' split at hv
  all_goals cases hv
  all_goals assumption

/-- Every view is that of a row of the map (R103): what the views of the rows have, every view has. -/
theorem view_of_rows {P : View → Prop} (h : ∀ r ∈ opcodeRows, ∀ i, P (r.view i)) (v : View) : P v := by
  obtain ⟨r, hr, -, he⟩ := viewOf_row (viewOf_code v)
  exact he ▸ h r hr _

/-- The access of a view is one the descriptor declares. -/
theorem declares_code : ∀ v : View, declaresAccess specLayout (v.code.getLsbD 12) (v.code.toNat % 0x1000) = true :=
  view_of_rows (by decide)

/-- The width of a view is bit 12 of its code (R100). -/
theorem bits_code : ∀ v : View, v.bits = if v.code.getLsbD 12 then 16 else 32 := view_of_rows (by decide)

section
variable {h : Bool} {off : Nat}

theorem accessCode_toNat (hl : off < 0x1000) : (accessCode h off).toNat = (if h then 0x1000 else 0) + off := by
  rw [accessCode, BitVec.toNat_ofNat]
  cases h <;> simp <;> omega

theorem accessCode_offset (hl : off < 0x1000) : (accessCode h off).toNat % 0x1000 = off := by
  rw [accessCode_toNat hl]
  cases h <;> simp <;> omega

theorem accessCode_half (hl : off < 0x1000) : (accessCode h off).getLsbD 12 = h := by
  rw [BitVec.getLsbD, accessCode_toNat hl, Nat.testBit_eq_decide_div_mod_eq]
  cases h <;> simp <;> omega

/-- The map has an access exactly where the descriptor declares it. -/
theorem viewOf_isSome (hl : off < 0x580) : (viewOf (accessCode h off)).isSome = declaresAccess specLayout h off := by
  rw [Bool.eq_iff_iff]
  refine ⟨fun hs => ?_, viewOf_of_declares hl⟩
  obtain ⟨v, hv⟩ := Option.isSome_iff_exists.1 hs
  have := declares_code v
  rwa [code_of_viewOf hv, accessCode_offset (by omega), accessCode_half (by omega)] at this

/-- The tests 1 to 4 of R102, read from the descriptor. -/
theorem lookupView_accessCode (hl : off < 0x1000) :
    lookupView (accessCode h off) =
      if 0x580 ≤ off then .error .outside
      else if off % (if h then 2 else 4) ≠ 0 then .error .misaligned
      else if inPadding specLayout off then .error .reserved
      else (viewOf (accessCode h off)).elim (.error .undeclaredWidth) .ok := by
  simp only [lookupView, accessCode_offset hl, accessCode_half hl]
  by_cases ho : 0x580 ≤ off
  · rw [if_pos ho, if_pos ho]
  · rw [if_neg ho, if_neg ho, isReserved_eq (by omega)]
    cases viewOf (accessCode h off) <;> rfl

/-- The code of a transaction word (R100). -/
theorem transactionWord_code (w : Bool) (d : Word) (hl : off < 0x1000) :
    (transactionWord w h off d).code.getLsbD 15 = false ∧ (transactionWord w h off d).code.getLsbD 14 = false ∧
      (transactionWord w h off d).code.getLsbD 13 = w ∧ (transactionWord w h off d).code.setWidth 13 = accessCode h off := by
  have hn : (transactionWord w h off d).code.toNat = (if w then 0x2000 else 0) + (if h then 0x1000 else 0) + off := by
    rw [transactionWord, BitVec.toNat_ofNat]
    cases w <;> cases h <;> simp <;> omega
  refine ⟨?_, ?_, ?_, ?_⟩
  iterate 3
    rw [BitVec.getLsbD, hn, Nat.testBit_eq_decide_div_mod_eq]
    cases w <;> cases h <;> simp <;> omega
  apply BitVec.eq_of_toNat_eq
  rw [BitVec.toNat_setWidth, hn, accessCode_toNat hl]
  cases w <;> cases h <;> simp <;> omega

/-- The view of an access is `input` at one place of the map. -/
theorem view_eq_input {v : View} (hl : off < 0x1000) (hv : viewOf (accessCode h off) = some v) :
    v = .input ↔ off = 0x048 := by
  constructor
  · rintro rfl
    have := congrArg BitVec.toNat (code_of_viewOf hv)
    rw [accessCode_toNat hl] at this
    cases h <;> simp [View.code] at this <;> omega
  · rintro rfl
    cases h with
    | false =>
      have : viewOf (accessCode false 0x048) = some .input := by decide
      rw [this] at hv
      exact (Option.some.inj hv).symm
    | true =>
      have : viewOf (accessCode true 0x048) = none := by decide
      rw [this] at hv
      cases hv

/-- A view the map selects is that of a row, at the index the code carries (R103, R104), in numbers. -/
theorem viewOf_accessCode {v : View} (hl : off < 0x1000) (hv : viewOf (accessCode h off) = some v) :
    ∃ r ∈ opcodeRows, ∃ i : Slot, accessCode h off &&& r.mask = r.code ∧
      i.val = ((if h then 0x1000 else 0) + off) / 2 ^ r.shift % 16 ∧ r.view i = v := by
  obtain ⟨r, hr, hm, he⟩ := viewOf_row hv
  refine ⟨r, hr, r.index (accessCode h off), by simpa [OpcodeRow.matches] using hm, ?_, he⟩
  rw [← accessCode_toNat hl, ← Nat.shiftRight_eq_div_pow]
  rfl

end

/-- Settles O4: the verdict follows the tests in their order, and the map has an access exactly where the descriptor declares it. -/
theorem transactionVerdict : Obligations.TransactionVerdict := by
  intro w h off d hl hread hhalf verdict
  obtain ⟨h15, h14, h13, hc⟩ := transactionWord_code (h := h) w d hl
  have unfolded : verdict = decodeTransaction (transactionWord w h off d) := if_neg (by rw [h15]; decide)
  simp only [decodeTransaction, h14, h13, hc, lookupView_accessCode hl] at unfolded
  rw [unfolded]
  by_cases outside : 0x580 ≤ off
  · simp [outside]
  by_cases misaligned : off % (if h then 2 else 4) ≠ 0
  · simp [outside, misaligned]
  by_cases reserved : inPadding specLayout off = true
  · simp [outside, misaligned, reserved]
  simp only [outside, misaligned, reserved, if_false, ← viewOf_isSome (not_le.1 outside)]
  cases hv : viewOf (accessCode h off) with
  | none => simp
  | some v =>
    have packed : transactionPacked (transactionWord w h off d) v w = true := by
      have hb := bits_code v
      rw [code_of_viewOf hv, accessCode_half hl] at hb
      cases w <;> cases h <;> simp_all [transactionPacked, transactionWord]
    have test5 : (w && decide (v = .input)) = true ↔ w = true ∧ off = 0x048 := by simp [view_eq_input hl hv]
    simp only [Option.isSome_some, Option.elim_some, test5, packed, if_true, reduceCtorEq, if_false, Bool.false_eq_true]
    by_cases readOnly : w = true ∧ off = 0x048
    · rw [if_pos readOnly, if_pos readOnly]
    · rw [if_neg readOnly, if_neg readOnly]
      obtain ⟨r, hr, i, hm, hi, rfl⟩ := viewOf_accessCode hl hv
      exact ⟨r, hr, i, hm, hi, rfl⟩

end Sys2Proof

namespace Sys2Proof.Machine

/-! ## Masked words -/

section
variable {mk : Access32 → Instr} {r : Reg}

/-- A 32-bit read of a word that is no status word and has no bits that read as 0, where the drawn bits do not depend on the
state. -/
theorem wordRead_fixed {reserved device shown drawn : Word} (he : ∀ s, exec (mk .read) s = transact32 r .read s)
    (hf : isStatus r = false) (hz : ∀ p, zeroBits p r = 0) (hr : ∀ p, reservedBits p r = reserved)
    (hd : ∀ s, deviceBits s r = device) (h1 : ~~~ (reserved ||| device) = shown) (h2 : reserved ||| device = drawn) :
    WordRead mk r (fun _ => shown) (fun _ => drawn) :=
  wordRead_of he (fun _ => .inr hf) (fun s => by rw [hz, and_ones, drawnBits, hr, hd, h1])
    (fun s => by rw [hz, and_ones, drawnBits, hr, hd, h2])

/-- The same, where the parameters say which bits are named and no other bit is drawn. -/
theorem wordRead_named {named : Params → Word} (he : ∀ s, exec (mk .read) s = transact32 r .read s) (hf : isStatus r = false)
    (hz : ∀ p, zeroBits p r = 0) (hr : ∀ p, reservedBits p r = ~~~ named p) (hd : ∀ s, deviceBits s r = 0) :
    WordRead mk r (fun s => named s.params) (fun s => ~~~ named s.params) :=
  wordRead_of he (fun _ => .inr hf) (fun s => by rw [hz, and_ones, drawnBits, hr, hd, or_zero_bits, not_not_bits])
    (fun s => by rw [hz, and_ones, drawnBits, hr, hd, or_zero_bits])

/-- A 32-bit read of a word of which only the bits above the slots are drawn. -/
theorem wordRead_slots {reserved device : Word} (he : ∀ s, exec (mk .read) s = transact32 r .read s)
    (hf : isStatus r = false) (hz : ∀ p, zeroBits p r = 0) (hr : ∀ p, reservedBits p r = reserved)
    (hd : ∀ s, deviceBits s r = device) (h : reserved ||| device = 0xFFFF0000) :
    WordRead mk r (fun _ => 0x0000FFFF) (fun _ => 0xFFFF0000) :=
  wordRead_fixed he hf hz hr hd (by rw [h]; decide) h

/-- A 32-bit write that is a plain store, where the parameters say which bits are named (R130). -/
theorem wordWrite_stored {named : Params → Word} (he : ∀ s v, exec (mk (.write v)) s = transact32 r (.write v) s)
    (hi : r ≠ .input) (hc : ∀ s v, commit r [.low, .high] v s = .next (store r v s)) (hr : ∀ p, reservedBits p r = ~~~ named p) :
    WordWrite mk r always named :=
  wordWrite_of he hi (fun s v _ => hc s.silent v) fun p => by rw [hr, not_not_bits]

end

/-- A read of `input` is a draw in every bit (R178). -/
theorem input_drawn : WordRead (fun _ => .input) .input (fun _ => 0) (fun _ => ~~~ 0) :=
  wordRead_fixed (fun _ => rfl) rfl (fun _ => rfl) (fun _ => rfl) (fun _ => rfl) (by decide) (by decide)

/-- Settles O24: the drawn bits of each word are its reserved bits and the device-owned ones a read does not show. -/
theorem maskedWordReads : Obligations.MaskedWordReads := by
  refine ⟨?config, ?state, ?output, ?dma0, ?dma1, ?interrupt, fun s hb => ?input, fun i => ⟨?enabled, ?control, ?set, ?clear⟩⟩
  case state =>
    exact wordRead_fixed (fun _ => rfl) rfl (fun _ => rfl) (fun _ => rfl) (fun _ => rfl) (by decide) (by decide)
  case input =>
    obtain ⟨t, ht, hr, rest⟩ := input_drawn s hb
    refine ⟨t, ht, ?_, rest⟩
    rw [hr, get_input, and_ones]
    simp
  case config =>
    exact wordRead_named (r := .config) (fun _ => rfl) rfl (fun _ => rfl) (fun _ => rfl) fun _ => rfl
  case enabled =>
    exact wordRead_named (r := .eventEnabledInState i) (fun _ => rfl) rfl (fun _ => rfl) (fun _ => rfl) fun _ => rfl
  case control =>
    exact wordRead_named (r := .eventControl i) (fun _ => rfl) rfl (fun _ => rfl) (fun _ => rfl) fun _ => rfl
  case output | dma0 | dma1 | interrupt | set | clear =>
    exact wordRead_slots (fun _ => rfl) rfl (fun _ => rfl) (fun _ => rfl) (fun _ => rfl) (by decide)

/-- Settles O25: the effect of each write is a plain store, and the reserved bits are those the value loses. -/
theorem maskedWordWrites : Obligations.MaskedWordWrites := by
  have slots : aboveSlots = ~~~ 0x0000FFFF := by decide
  refine ⟨?_, fun i => ⟨?_, ?_, ?_, ?_⟩⟩
  · exact wordWrite_stored (fun _ _ => rfl) (by simp) (fun _ _ => rfl) fun _ => slots
  · exact wordWrite_stored (fun _ _ => rfl) (by simp) (fun _ _ => rfl) fun _ => rfl
  · exact wordWrite_stored (fun _ _ => rfl) (by simp) (fun _ _ => rfl) fun _ => rfl
  · exact wordWrite_stored (fun _ _ => rfl) (by simp) (fun _ _ => rfl) fun _ => slots
  · exact wordWrite_stored (fun _ _ => rfl) (by simp) (fun _ _ => rfl) fun _ => slots

/-! ## Control -/

/-- The bits a read of `control` shows, half by half (R171). -/
theorem control_shown (s : State) (k : Half) :
    halfOf k (~~~ drawnBits s .control &&& ~~~ zeroBits s.params .control) = steadyControl s.params := by
  simp only [drawnBits, reservedBits, deviceBits, zeroBits, halfOf_and, halfOf_not, halfOf_or, halfOf_inBothHalves, steadyControl]
  ext i hi
  simp

/-- The bits of a ControlRegister a read draws: the reserved ones and `count_down`, unless they read as 0 (R116, R171). -/
def drawnControl (p : Params) : HalfWord :=
  (~~~ fieldsMask 16 p.ctrlLayout.fields ||| fieldMask 16 p.ctrlLayout.countDown) &&& ~~~ fieldMask 16 p.ctrlLayout.clearCounter

/-- The bits a read of `control` draws, half by half (R171). -/
theorem control_drawn (s : State) (k : Half) :
    halfOf k (drawnBits s .control &&& ~~~ zeroBits s.params .control) = drawnControl s.params := by
  simp only [drawnBits, reservedBits, deviceBits, zeroBits, halfOf_and, halfOf_not, halfOf_or, halfOf_inBothHalves, drawnControl]

/-- A word with one half twice is that half repeated. -/
theorem eq_inBothHalves {v : Word} {x : HalfWord} (h : ∀ k, halfOf k v = x) : v = inBothHalves x :=
  word_ext_halves _ _ fun k => by rw [h, halfOf_inBothHalves]

/-- Settles O30: both halves of `control` have the same layout. -/
theorem controlReads : Obligations.ControlReads :=
  ⟨wordRead_of (fun _ => rfl) (fun _ => .inr rfl) (fun s => eq_inBothHalves (control_shown s))
      (fun s => eq_inBothHalves (control_drawn s)),
    halfRead_of (fun _ => rfl) rfl (fun s => control_shown s .low) (fun s => control_drawn s .low),
    halfRead_of (fun _ => rfl) rfl (fun s => control_shown s .high) (fun s => control_drawn s .high)⟩

/-! ## Insertion -/

/-- Settles O41: the laws of sub-fields bit by bit, and the check of each operation. -/
theorem insertionLaws : Obligations.InsertionLaws := by
  refine ⟨fun n v f o w _ hn hf => ⟨toNat_extract v o w (by omega), fun i hi => ?_, extract_insert v f o w hn hf,
    insert_extract v o w, fun o₂ w₂ _ hd => extract_insert_disjoint v f o w o₂ w₂ hd⟩, fun s reg o w f hb hw ho hf => ?_,
    fun s i fields gate hb hf => ?_⟩
  · rw [getLsbD_insert, decide_eq_true hi, Bool.true_and]
  · have pair : fieldPairOk reg.bits o w = true := by simp [fieldPairOk, hw, ho]
    show execFieldWr reg o w f s = _
    rw [execFieldWr, withHandle_of_bound hb, if_pos pair, if_neg (by omega)]
  · have unfit : ¬ eventFieldsFit s.params.evCtrlLayout fields = true := by
      obtain ⟨p, hp, hl⟩ := hf
      exact fun h => absurd (of_decide_eq_true (List.all_eq_true.1 h p hp)) (by omega)
    show execConfigureEvent i.val fields gate s = _
    rw [execConfigureEvent, withHandle_of_bound hb, dif_pos i.isLt, if_neg unfit]

/-! ## The halted machine -/

/-- The half an event belongs to is one in use (R133, R241). -/
theorem eventHalf_inUse (s : State) (e : Slot) : s.eventHalf e ∈ s.halvesInUse := by
  unfold State.eventHalf State.halvesInUse
  cases s.unify <;> cases s.eventFlag EvCtrlLayout.counterHalf e <;> simp

/-- With every half in use halted the gate of every event is shut (R116, R241). -/
theorem firingSet_of_halted {s : State} (h : ∀ k ∈ s.halvesInUse, s.halted k = true) (d : EvalDraws) : s.firingSet d = [] := by
  have shut : ∀ e, s.fires d e = false := fun e => by
    simp [State.fires, State.eventEnabled, h _ (eventHalf_inUse s e)]
  simp [State.firingSet, shut]

/-- With every half in use halted no half runs (R32). -/
theorem not_runs_of_halted {s : State} (h : ∀ k ∈ s.halvesInUse, s.halted k = true) (k : Half) : s.runs k = false := by
  have governed : s.halted k = s.halted (s.governor k) := by
    unfold State.halted State.governor
    cases s.unify <;> simp
  have inUse : s.governor k ∈ s.halvesInUse := by
    unfold State.governor State.halvesInUse
    cases s.unify <;> cases k <;> simp
  rw [State.runs, governed, h _ inUse]
  rfl

/-! ## An evaluation in which no event fires -/

theorem slotBits_none : slotBits (fun _ => false) = 0 := by decide

/-- With no event firing a half keeps its state (R247). -/
theorem newState_nil (s : State) : s.newState [] = s.regs.state := by
  have kept : ∀ k, s.newStateId (s.firingOf [] k) k = s.stateId k := fun k => by
    simp [State.newStateId, State.unloadedState, State.firingOf]
  have put : ∀ k, insert s.regs.state (halfOff k) 5 ((s.stateId k).setWidth 32) = s.regs.state := fun k => by
    have : (s.stateId k).setWidth 32 = extract s.regs.state (halfOff k) 5 := by
      apply BitVec.eq_of_getLsbD_eq
      intro i hi
      rw [getLsbD_extract, BitVec.getLsbD_setWidth, State.stateId, BitVec.getLsbD_extractLsb', decide_eq_true hi]
      rw [Bool.true_and, Bool.and_comm]
    rw [this, insert_extract]
  unfold State.newState State.halvesInUse
  cases s.unify <;> simp [kept, put]

/-- Putting a flag back changes nothing. -/
theorem putFlag_fieldFlag (f : SubField) (v : HalfWord) : putFlag f (fieldFlag f v) v = v := by
  apply BitVec.eq_of_getLsbD_eq
  intro i hi
  rw [getLsbD_putFlag _ _ _ _ hi]
  split
  · next h => rw [h, fieldFlag]
  · rfl

/-- With no event firing no half is halted, stopped or started (R250). -/
theorem newControl_nil (s : State) : s.newControl [] = s.regs.control := by
  refine word_ext_halves _ _ fun k => ?_
  have halt : s.newHalt [] k = fieldFlag s.params.ctrlLayout.haltSct (s.controlOf k) := by simp [State.newHalt, hits]
  have pause : s.newPause [] k = fieldFlag s.params.ctrlLayout.pauseCounter (s.controlOf k) := by simp [State.newPause, hits]
  rw [newControl_half, halt, pause, putFlag_fieldFlag, putFlag_fieldFlag, ite_self]
  rfl

/-- With no event firing a half of `count` that does not run keeps its value (R250). -/
theorem newCount_nil {s : State} (d : EvalDraws) (h : ∀ k, s.runs k = false) : s.newCount d [] = s.regs.count := by
  cases hu : s.unify with
  | false =>
    refine word_ext_halves _ _ fun k => ?_
    rw [newCount_half s d [] k hu]
    simp [hits, h]
  | true =>
    have stands : halvesMask s.runs = 0 := by simp [halvesMask, h]
    have now : s.countNow d = s.regs.count := by rw [State.countNow, stands, merge_zero]
    simp [State.newCount, hu, hits, now]

/-- With no event firing nothing is captured (R253). -/
theorem newSlots_nil (s : State) (d : EvalDraws) : s.newSlots d [] = s.regs.matchCapture := by
  have none : ∀ i, s.capturedBits [] i = 0 := fun i => by simp [State.capturedBits, hits, halvesMask]
  unfold State.newSlots
  cases s.params.slotMode with
  | matching => rfl
  | capturing =>
    ext i hi : 1
    simp only [Vector.getElem_ofFn, none]
    exact merge_zero _ _

/-- With no event firing the pins keep their levels (R252). -/
theorem newOutput_nil (s : State) : merge (~~~ aboveSlots) s.regs.output (slotBits (s.newLevel [])) = s.regs.output := by
  have low : ∀ i : Fin 32, (~~~ aboveSlots).getLsbD i.val = decide (i.val < 16) := by decide
  apply BitVec.eq_of_getLsbD_eq
  intro i hi
  rw [getLsbD_merge, low ⟨i, hi⟩]
  by_cases h : i < 16
  · have level : s.newLevel [] ⟨i, h⟩ = s.regs.output.getLsbD i := by
      simp [State.newLevel, State.conflictOn, State.setsPin, State.clearsPin, hits]
    have := getLsbD_slotBits (s.newLevel []) ⟨i, h⟩
    simp [h, this, level]
  · simp [h]

/-- With no event firing there is no conflict (R254). -/
theorem conflictOn_nil (s : State) : s.conflictOn [] = fun _ => false := rfl

/-- With no event firing and no half running an evaluation keeps the image. -/
theorem evaluateRules_nil {s : State} (d : EvalDraws) (h : ∀ k, s.runs k = false) : (evaluateRules d [] s).regs = s.regs := by
  simp [evaluateRules, newState_nil, newControl_nil, newCount_nil d h, newSlots_nil, newOutput_nil, conflictOn_nil,
    slotBits_none, setFlags]

/-- Settles O60: the gate of every event is shut and no half runs, so nothing fires and nothing moves. -/
theorem haltedMachineIsQuiet : Obligations.HaltedMachineIsQuiet := by
  intro s d hp hh hn
  refine ⟨(evaluateRules d [] s).silent, ?_, ?_, ?_, ⟨rfl, rfl, rfl, rfl, rfl⟩, fun r _ => ?_, rfl, rfl⟩
  · rw [exec_sctEval hp, evaluate_rules hn, firingSet_of_halted hh]
  · simp [evaluateRules, slotBits_none]
  · simp [evaluateRules, State.newDma, hits]
  · rw [silent_regs, evaluateRules_nil d (not_runs_of_halted hh)]

end Sys2Proof.Machine

/-! PROOFS. The family 40_transactions: what a transaction can answer, plain words, split registers, and the sub-field operations. -/

namespace Sys2Proof.Machine

/-! ## Transactions with no handle -/

/-- With no handle a transaction is refused (R149). -/
theorem exec_transaction_of_not {i : Instr} {s : State} (hi : isTransaction i = true) (hb : ¬ Bound s) :
    exec i s = .refused .notBound := by
  obtain ⟨r, he, -, -⟩ := exec_transaction hi
  rcases he with ⟨a, he⟩ | ⟨k, a, he⟩
  · exact (he s).trans (withHandle_of_not hb _)
  · exact (he s).trans (withHandle_of_not hb _)

/-- Settles O11: each of these operations begins by asking for the handle, and `SCT_EVAL` for the phase. -/
theorem nothingBeforeBinding : Obligations.NothingBeforeBinding := by
  intro i s
  constructor
  · rintro hb (ht | ⟨r, o, w, rfl⟩ | ⟨r, o, w, f, rfl⟩ | ⟨n, f, g, rfl⟩ | ⟨a, n, sel, rfl⟩)
    · exact exec_transaction_of_not ht hb
    · exact withHandle_of_not hb _
    · exact withHandle_of_not hb _
    · exact withHandle_of_not hb _
    · exact withHandle_of_not hb _
  · rintro hp ⟨d, rfl⟩
    exact whenBound_of_not hp _

/-! ## Write effects, one rule for each kind of word -/

section
variable {r : Reg} {ks : List Half} {v : Word} {s : State}

/-- A request word keeps its bits 31:30 (R183, log entry 33). -/
theorem commit_request (h : r = .dmaRequest0 ∨ r = .dmaRequest1) :
    commit r ks v s = .next (store r (merge 0x3FFFFFFF (s.regs.get r) v) s) := by
  rcases h with rfl | rfl <;> rfl

/-- A write that waits for halted halves loads the word where they are (R176, R177, R180). -/
theorem storeHalted_of_halted (h : ∀ k ∈ ks, s.halted k = true) : storeHalted r ks v s = .next (store r v s) :=
  if_pos (List.all_eq_true.2 h)

/-- It is refused where one of them is not (R176, R177, R180). -/
theorem storeHalted_of_running (h : ∃ k ∈ ks, s.halted k = false) : storeHalted r ks v s = .refused .counterRunning := by
  obtain ⟨k, hk, hh⟩ := h
  exact if_neg fun hall => by simp [List.all_eq_true.1 hall k hk] at hh

/-- `count` and `state` wait for the halves written (R176, R177). -/
theorem commit_counter (h : r = .count ∨ r = .state) : commit r ks v s = storeHalted r ks v s := by
  rcases h with rfl | rfl <;> rfl

/-- A status word follows the rule of the launch (R185). -/
theorem commit_status (h : r = .eventOccurred ∨ r = .conflictOccurred) : commit r ks v s = storeFlags r v s := by
  rcases h with rfl | rfl <;> rfl

/-- Under `write_one_to_clear` each 1 clears its flag (R185). -/
theorem storeFlags_of_writeOneToClear (h : s.params.flagClearRule = .writeOneToClear) :
    storeFlags r v s = .next (store r (clearByOnes (s.regs.get r) v) s) := by
  rw [storeFlags, h]

/-- Under `read_clears` a write is refused (R185). -/
theorem storeFlags_of_readClears (h : s.params.flagClearRule = .readClears) :
    storeFlags r v s = .refused .flagWriteUnderReadClears := by
  rw [storeFlags, h]

/-- In match mode a slot holds a threshold (R211). -/
theorem storeSlot_of_matching (h : s.params.slotMode = .matching) : storeSlot r v s = .next (store r v s) := by
  rw [storeSlot, h]

/-- In capture mode a slot refuses a write (R211). -/
theorem storeSlot_of_capturing (h : s.params.slotMode = .capturing) : storeSlot r v s = .refused .captureModeWrite := by
  rw [storeSlot, h]

end

/-! ## What a transaction can answer -/

/-- What a write asks of the state (R150): halted halves for `count`, `state` and `output` (R176, R177, R180),
`write_one_to_clear` for a status word (R185), match mode for a slot (R211); `input` takes none (R178). -/
def accepts (r : Reg) (ks : List Half) (s : State) : Prop :=
  match r with
  | .count | .state => ∀ k ∈ ks, s.halted k = true
  | .output => ∀ k ∈ s.halvesInUse, s.halted k = true
  | .eventOccurred | .conflictOccurred => s.params.flagClearRule = .writeOneToClear
  | .matchCapture _ => s.params.slotMode = .matching
  | .input => False
  | _ => True

/-- A write that finds what it asks for completes. -/
theorem commit_accepted {r : Reg} {ks : List Half} {s : State} (h : accepts r ks s) (v : Word) :
    ∃ t, commit r ks v s = .next t := by
  cases r with
  | count => exact ⟨_, storeHalted_of_halted h⟩
  | state => exact ⟨_, storeHalted_of_halted h⟩
  | output => exact ⟨_, storeHalted_of_halted h⟩
  | eventOccurred => exact ⟨_, storeFlags_of_writeOneToClear h⟩
  | conflictOccurred => exact ⟨_, storeFlags_of_writeOneToClear h⟩
  | matchCapture i => exact ⟨_, storeSlot_of_matching h⟩
  | input => exact h.elim
  | _ => exact ⟨_, rfl⟩

/-- The answers the contract leaves a transaction of the bound machine (R150): it completes, or it is refused on one of three
grounds. -/
def WithinContract (a : Answer) : Prop :=
  (∃ t, a = .next t) ∨ a = .refused .counterRunning ∨ a = .refused .captureModeWrite ∨ a = .refused .flagWriteUnderReadClears

/-- A write of a word that is not read-only. -/
theorem commit_withinContract {r : Reg} (hr : r ≠ .input) (ks : List Half) (v : Word) (s : State) :
    WithinContract (commit r ks v s) := by
  cases h : commit r ks v s with
  | next t => exact .inl ⟨t, rfl⟩
  | fault f => exact absurd h (commit_no_fault r ks v s f)
  | refused e =>
    rcases commit_refused h with ⟨-, rfl⟩ | ⟨-, rfl⟩ | ⟨-, rfl⟩ | ⟨hi, -⟩
    · exact .inr (.inl rfl)
    · exact .inr (.inr (.inl rfl))
    · exact .inr (.inr (.inr rfl))
    · exact absurd hi hr

/-- A 32-bit transaction. -/
theorem transact32_withinContract {r : Reg} {s : State} (hb : Bound s) (hr : r ≠ .input) (a : Access32) :
    WithinContract (transact32 r a s) := by
  rw [transact32, withHandle_of_bound hb]
  cases a with
  | read => exact .inl ⟨_, rfl⟩
  | write v => exact commit_withinContract hr _ _ _

/-- A 16-bit transaction. -/
theorem transact16_withinContract {r : Reg} {k : Half} {s : State} (hb : Bound s) (hr : r ≠ .input) (a : Access16) :
    WithinContract (transact16 r k a s) := by
  rw [transact16, withHandle_of_bound hb]
  cases a with
  | read => exact .inl ⟨_, rfl⟩
  | write v => exact commit_withinContract hr _ _ _

/-- Every row of R103 but that of `input` is a transaction on a word that is not read-only. -/
theorem exec_transaction_writable {i : Instr} (h : isTransaction i = true) (hi : i ≠ .input) :
    ∃ r, r ≠ .input ∧ ((∃ a, ∀ s, exec i s = transact32 r a s) ∨ ∃ k a, ∀ s, exec i s = transact16 r k a s) := by
  cases i <;>
    first
      | exact absurd rfl hi
      | (cases h; done)
      | (refine ⟨_, ?_, .inl ⟨_, fun _ => rfl⟩⟩; simp)
      | (refine ⟨_, ?_, .inr ⟨_, _, fun _ => rfl⟩⟩; simp)

/-- A transaction of the bound machine. -/
theorem exec_withinContract {i : Instr} {s : State} (h : isTransaction i = true) (hb : Bound s) :
    WithinContract (exec i s) := by
  by_cases hi : i = .input
  · subst hi
    exact .inl ⟨_, withHandle_of_bound hb _⟩
  · obtain ⟨r, hr, ⟨a, he⟩ | ⟨k, a, he⟩⟩ := exec_transaction_writable h hi <;> rw [he]
    · exact transact32_withinContract hb hr a
    · exact transact16_withinContract hb hr a

/-- A transaction is an operation of phase `BOUND` (R9). -/
theorem actsWhenBound_of_transaction {i : Instr} (h : isTransaction i = true) : actsWhenBound i := by
  cases i <;> first | rfl | cases h

/-- A transaction on a view is one on its storage (R140 to R143); the row of `input` has no write (R178). -/
theorem exec_transactionOf {v : View} {w : Bool} (h : w = true → v ≠ .input) (x : Word) (s : State) :
    exec (transactionOf v w x) s =
      match storage v with
      | (r, .whole) => transact32 r (access32 w x) s
      | (r, .half k) => transact16 r k (access16 w x) s := by
  cases v with
  | input =>
    cases w with
    | true => exact absurd rfl (h rfl)
    | false => rfl
  | _ => rfl

/-- The halves a part of a word is made of. -/
def Part.halves : Part → List Half
  | .whole => [.low, .high]
  | .half k => [k]

/-- A declared transaction of the bound machine completes: a read always, a write that finds what it asks for (R150). -/
theorem exec_transactionOf_completes {v : View} {w : Bool} {s : State} (hb : Bound s)
    (h : w = true → v ≠ .input ∧ accepts (storage v).1 (storage v).2.halves s) (x : Word) :
    ∃ t, exec (transactionOf v w x) s = .next t := by
  rw [exec_transactionOf (fun hw => (h hw).1)]
  cases w with
  | false =>
    split
    · exact ⟨_, withHandle_of_bound hb _⟩
    · exact ⟨_, withHandle_of_bound hb _⟩
  | true =>
    obtain ⟨-, ha⟩ := h rfl
    rcases hst : storage v with ⟨r, _ | k⟩ <;> rw [hst] at ha
    · obtain ⟨t, ht⟩ := commit_accepted (s := s.silent) ha (x &&& ~~~ reservedBits s.params r)
      exact ⟨t, (withHandle_of_bound hb _).trans ht⟩
    · obtain ⟨t, ht⟩ := commit_accepted (s := s.silent) ha
        (withHalf k (s.regs.get r) (x.setWidth 16 &&& ~~~ halfOf k (reservedBits s.params r)))
      exact ⟨t, (withHandle_of_bound hb _).trans ht⟩

/-- Only the view of `input` addresses `input`. -/
theorem input_view {reg : View} : (storage reg).1 = .input ↔ reg = .input := by cases reg <;> simp [storage]

/-- Both counter halves are halted. -/
def bothHalted (s : State) : Prop := s.halted .low = true ∧ s.halted .high = true

/-- Then any of them is. -/
theorem bothHalted.all {s : State} (h : bothHalted s) (ks : List Half) : ∀ k ∈ ks, s.halted k = true := by
  obtain ⟨hl, hg⟩ := h
  intro k _
  cases k
  · exact hl
  · exact hg

/-- What a declared write asks of the state is met where both halves are halted, flags are cleared by ones and slots hold
thresholds, each where the word is concerned. -/
theorem accepts_of_conditions {r : Reg} {ks : List Half} {s : State} (hi : r ≠ .input)
    (hh : r = .count ∨ r = .state ∨ r = .output → bothHalted s)
    (hf : r = .eventOccurred ∨ r = .conflictOccurred → s.params.flagClearRule = .writeOneToClear)
    (hm : ∀ i, r = .matchCapture i → s.params.slotMode = .matching) : accepts r ks s := by
  cases r with
  | count => exact (hh (by simp)).all ks
  | state => exact (hh (by simp)).all ks
  | output => exact (hh (by simp)).all _
  | eventOccurred => exact hf (by simp)
  | conflictOccurred => exact hf (by simp)
  | matchCapture i => exact hm i rfl
  | input => exact hi rfl
  | _ => exact trivial

/-! ## No operation faults -/

section
variable {s : State} {f : Fault}

/-- Past the handle nothing faults, and before it an operation is refused. -/
theorem withHandle_no_fault {g : Handle → Answer} (h : ∀ hd, g hd ≠ .fault f) : withHandle s g ≠ .fault f := by
  unfold withHandle
  split
  · simp
  · exact h _

/-- The same at the gate of the harness. -/
theorem whenUnverified_no_fault {a : Answer} (h : a ≠ .fault f) : whenUnverified s a ≠ .fault f := by
  unfold whenUnverified
  split
  · exact h
  · simp

/-- The write of a sub-field ends in a write effect. -/
theorem fieldWrite_no_fault {hd : Handle} {reg : View} {o w : Nat} {x : Word} : fieldWrite hd reg o w x s ≠ .fault f := by
  unfold fieldWrite
  split <;> exact commit_no_fault _ _ _ _ _

/-- Both transactions of `CONFIGURE_EVENT` end in a write effect (R219). -/
theorem configureEvent_no_fault {n : Nat} {fields : EventFields} {gate : Word} : execConfigureEvent n fields gate s ≠ .fault f := by
  refine withHandle_no_fault fun hd => ?_
  split
  · split
    · split
      · exact commit_no_fault _ _ _ _ _
      · exact commit_no_fault _ _ _ _ _
    · simp
  · simp

/-- A transaction answers or is refused (R302). -/
theorem transaction_no_fault {i : Instr} (h : isTransaction i = true) : exec i s ≠ .fault f := by
  obtain ⟨r, he, -, -⟩ := exec_transaction h
  rcases he with ⟨a, he⟩ | ⟨k, a, he⟩ <;> rw [he] <;> refine withHandle_no_fault fun hd => ?_ <;> cases a
  · simp
  · exact commit_no_fault _ _ _ _ _
  · simp
  · exact commit_no_fault _ _ _ _ _

/-- No operation faults (R302). -/
theorem exec_no_fault (i : Instr) : exec i s ≠ .fault f := by
  cases ht : isTransaction i with
  | true => exact transaction_no_fault ht
  | false =>
    cases i with
    | verify => exact whenUnverified_no_fault (by split <;> simp)
    | checkOffset => exact whenUnverified_no_fault (by simp)
    | checkSize => exact whenUnverified_no_fault (by simp)
    | checkStride => exact whenUnverified_no_fault (by simp)
    | bind =>
      show execBind _ s ≠ _
      unfold execBind
      split_ifs <;> simp
    | fieldRd => exact withHandle_no_fault fun hd => by split <;> simp
    | fieldWr =>
      refine withHandle_no_fault fun hd => ?_
      split_ifs
      · simp
      · exact fieldWrite_no_fault
      · simp
      · simp
    | slotAddr => exact withHandle_no_fault fun hd => by split_ifs <;> simp
    | sctEval =>
      show whenBound s _ ≠ _
      unfold whenBound
      split <;> simp
    | configureEvent => exact configureEvent_no_fault
    | _ => cases ht

end

/-- Settles O12: a transaction ends in a read or in a write effect, whose refusals are the three of the contract. -/
theorem transactionsComplete : Obligations.TransactionsComplete := by
  refine ⟨fun i s ht hb => ?_, fun v w x s hb h => ?_, fun i s f => exec_no_fault i⟩
  · rcases exec_withinContract ht hb with ⟨t, h⟩ | refused
    · have kept := (exec_moves (actsWhenBound_of_transaction ht) h).sameLaunch
      exact .inl ⟨t, h, kept.phase.trans hb.phase, kept.failure, kept.queue⟩
    · exact .inr refused
  · refine exec_transactionOf_completes hb (fun hw => ?_) x
    obtain ⟨hi, hh, hf, hm⟩ := h hw
    exact ⟨hi, accepts_of_conditions (mt input_view.1 hi) hh hf hm⟩

/-! ## Plain words -/

section
variable {r : Reg}

/-- A 32-bit read of a word without drawn bits and without bits that read as 0 returns it whole. -/
theorem wordRead_plain {mk : Access32 → Instr} (he : ∀ s, exec (mk .read) s = transact32 r .read s) (hf : isStatus r = false)
    (hz : ∀ p, zeroBits p r = 0) (hr : ∀ p, reservedBits p r = 0) (hd : ∀ s, deviceBits s r = 0) :
    WordRead mk r (fun _ => ~~~ 0) (fun _ => 0) :=
  wordRead_fixed he hf hz hr hd (by decide) (by decide)

/-- A 32-bit write of a software-owned word without reserved bits replaces it whole (R141). -/
theorem wordWrite_owned {mk : Access32 → Instr} {ok : State → Prop} (he : ∀ s a, exec (mk a) s = transact32 r a s)
    (ho : ∀ s, ok s → softwareOwned s.params r = true) (hr : ∀ p, reservedBits p r = 0) (hi : r ≠ .input) (hc : r ≠ .config) :
    WordWrite mk r ok (fun _ => ~~~ 0) := by
  refine wordWrite_of (fun s v => he s _) hi (fun s v hs => ?_) (fun p => by rw [hr])
  rw [commit_owned (s := s.silent) (ho s hs), if_neg hc]

/-- A 16-bit read of a half of a word whose drawn bits do not depend on the state. -/
theorem halfRead_fixed {mk : Access16 → Instr} {k : Half} {reserved : Word} {shown drawn : HalfWord}
    (he : ∀ s, exec (mk .read) s = transact16 r k .read s) (hf : isStatus r = false) (hz : ∀ p, zeroBits p r = 0)
    (hr : ∀ p, reservedBits p r = reserved) (hd : ∀ s, deviceBits s r = 0) (h1 : halfOf k (~~~ reserved) = shown)
    (h2 : halfOf k reserved = drawn) : HalfRead mk r k (fun _ => shown) (fun _ => drawn) :=
  halfRead_of he hf (fun s => by rw [hz, and_ones, drawnBits, hr, hd, or_zero_bits, h1])
    (fun s => by rw [hz, and_ones, drawnBits, hr, hd, or_zero_bits, h2])

/-- A 16-bit read of a half of a word without drawn bits and without bits that read as 0 returns the half whole. -/
theorem halfRead_plain {mk : Access16 → Instr} {k : Half} (he : ∀ s, exec (mk .read) s = transact16 r k .read s)
    (hf : isStatus r = false) (hz : ∀ p, zeroBits p r = 0) (hr : ∀ p, reservedBits p r = 0) (hd : ∀ s, deviceBits s r = 0) :
    HalfRead mk r k (fun _ => ~~~ 0) (fun _ => 0) :=
  halfRead_fixed he hf hz hr hd (by cases k <;> decide) (halfOf_zero k)

end

/-- Settles O22: none of these words has a drawn bit or one that reads as 0. -/
theorem plainWordReads : Obligations.PlainWordReads := by
  refine ⟨?_, ?_, ?_, ?_, ?_, ?_, ?_, ?_, fun i => ⟨?_, ?_⟩⟩
  iterate 10 exact wordRead_plain (fun _ => rfl) rfl (fun _ => rfl) (fun _ => rfl) fun _ => rfl

/-- Settles O23: each of these words is software-owned and has no reserved bit. -/
theorem plainWordWrites : Obligations.PlainWordWrites := by
  refine ⟨?_, ?_, ?_, ?_, ?_, ?_, ?_, ?_, fun i => ⟨?slot, ?_⟩⟩
  case slot => exact wordWrite_owned (fun _ _ => rfl) (fun _ hm => decide_eq_true hm) (fun _ => rfl) (by simp) (by simp)
  iterate 9 exact wordWrite_owned (fun _ _ => rfl) (fun _ _ => rfl) (fun _ => rfl) (by simp) (by simp)

/-- Settles O26: each view is one half of a word of which at most the reserved bits of `state` are drawn. -/
theorem halfReads : Obligations.HalfReads := by
  refine ⟨?_, ?_, ?_, ?_, ?_, ?_, ?_, ?_, ?_, ?_, ?low, ?high, fun i => ⟨?_, ?_, ?_, ?_, ?_, ?_, ?_, ?_⟩⟩
  case low | high =>
    exact halfRead_fixed (fun _ => rfl) rfl (fun _ => rfl) (fun _ => rfl) (fun _ => rfl) (by decide) (by decide)
  iterate 18 exact halfRead_plain (fun _ => rfl) rfl (fun _ => rfl) (fun _ => rfl) fun _ => rfl

/-! ## The bits a read shows -/

/-- The bits of a word that a read shows as they are stored: those it neither draws nor reads as 0. -/
def shownBits (s : State) (r : Reg) : Word := ~~~ drawnBits s r &&& ~~~ zeroBits s.params r

/-- A bit that a read shows is the stored one (R140). -/
theorem getLsbD_readValue {r : Reg} {s : State} {i : Nat} (h : (shownBits s r).getLsbD i = true) :
    (readValue r s).getLsbD i = (s.regs.get r).getLsbD i := by
  have drawn : (drawnBits s r).getLsbD i = false := by
    rw [shownBits, BitVec.getLsbD_and, BitVec.getLsbD_not] at h
    cases hd : (drawnBits s r).getLsbD i <;> simp_all
  rw [readValue_eq, ← shownBits, BitVec.getLsbD_or, BitVec.getLsbD_and, h, BitVec.getLsbD_and, BitVec.getLsbD_and, drawn]
  simp

/-- The same in a half. -/
theorem getLsbD_half_readValue {r : Reg} {k : Half} {s : State} {i : Nat}
    (h : (halfOf k (shownBits s r)).getLsbD i = true) :
    (halfOf k (readValue r s)).getLsbD i = (halfOf k (s.regs.get r)).getLsbD i := by
  rw [getLsbD_halfOf, Bool.and_eq_true] at h
  rw [getLsbD_halfOf, getLsbD_halfOf, getLsbD_readValue h.2]

/-- Where every bit of a mask is shown, a read returns the stored word under the mask. -/
theorem readValue_and {r : Reg} {s : State} {m : Word} (h : ∀ i, m.getLsbD i = true → (shownBits s r).getLsbD i = true) :
    readValue r s &&& m = s.regs.get r &&& m := by
  apply BitVec.eq_of_getLsbD_eq
  intro i _
  rw [BitVec.getLsbD_and, BitVec.getLsbD_and]
  cases hm : m.getLsbD i
  · rw [Bool.and_false, Bool.and_false]
  · rw [getLsbD_readValue (h i hm)]

/-- A read of a software-owned word shows every bit that is not reserved (R130). -/
theorem owned_shown {s : State} {r : Reg} (h : softwareOwned s.params r = true) :
    shownBits s r = ~~~ reservedBits s.params r := by
  have device : deviceBits s r = 0 := by cases r <;> first | rfl | simp [softwareOwned] at h
  have zero : zeroBits s.params r = 0 := by cases r <;> first | rfl | simp [softwareOwned] at h
  rw [shownBits, drawnBits, device, zero, or_zero_bits, and_ones]

/-- A read of `control` shows the steady bits of each half (R116, R171). -/
theorem halfOf_shownBits_control (s : State) (k : Half) : halfOf k (shownBits s .control) = steadyControl s.params :=
  control_shown s k

/-! ## Split registers -/

/-- A half of a word written over agrees, under a mask, with the half written over another word that agrees under the mask. -/
theorem withHalf_and {k : Half} {v w m : Word} {x y : HalfWord} (hv : v &&& m = w &&& m) (hx : x &&& halfOf k m = y &&& halfOf k m) :
    withHalf k v x &&& m = withHalf k w y &&& m := by
  refine word_ext_halves _ _ fun j => ?_
  rw [halfOf_and, halfOf_and]
  by_cases h : j = k
  · subst h
    rw [halfOf_withHalf_same, halfOf_withHalf_same, hx]
  · rw [halfOf_withHalf_other _ _ _ _ h, halfOf_withHalf_other _ _ _ _ h, ← halfOf_and, ← halfOf_and, hv]

/-- Masking off bits that a mask does not hold changes nothing under the mask. -/
theorem and_not_and {n : Nat} {v z m : BitVec n} (h : z &&& m = 0) : v &&& ~~~ z &&& m = v &&& m := by
  apply BitVec.eq_of_getLsbD_eq
  intro i hi
  have apart := congrArg (·.getLsbD i) h
  simp only [BitVec.getLsbD_and, BitVec.getLsbD_not, hi] at apart ⊢
  cases hm : m.getLsbD i <;> simp_all

/-- A word whose write effect stores the named bits under a condition that it keeps: a write of it or of a half of it completes,
the named bits become the value's. -/
def StoresNamed (ok : State → Prop) (named : Params → Word) (r : Reg) : Prop :=
  ∀ (s : State) (ks : List Half) (v : Word), ok s →
    ∃ t, commit r ks v s.silent = .next t ∧ ok t ∧ t.regs.get r &&& named s.params = v &&& named s.params

/-- The split-register law of a word whose write effect stores the named bits, none of them reserved, and whose read shows them
(R144). -/
theorem splitLaw_of {ok : State → Prop} {named : Params → Word} {word : Access32 → Instr} {half : Access16 → Instr} {r : Reg}
    {k : Half} (hw : ∀ s a, exec (word a) s = transact32 r a s) (hh : ∀ s a, exec (half a) s = transact16 r k a s)
    (hc : StoresNamed ok named r) (hn : ∀ p, reservedBits p r &&& named p = 0)
    (hr : ∀ s, ok s → ∀ i, (named s.params).getLsbD i = true → (shownBits s r).getLsbD i = true) : SplitLaw ok named word half k := by
  intro s a b hb ho
  obtain ⟨t, ht, hto, htv⟩ := hc s [.low, .high] (a &&& ~~~ reservedBits s.params r) ho
  have keptT := ((silent_frame s).trans (commit_frame ht).1).launch
  obtain ⟨u, hu, huo, huv⟩ := hc t [k] (withHalf k (t.regs.get r) (b &&& ~~~ halfOf k (reservedBits t.params r))) hto
  have keptU := ((silent_frame t).trans (commit_frame hu).1).launch
  have hbt := hb.of_launch keptT
  have hbu := hbt.of_launch keptU
  refine ⟨t, u, read32 hbu.handle r u, readValue r u, ?_, ?_, ?_, rfl, ?_⟩
  · rw [hw, transact32, withHandle_of_bound hb]; exact ht
  · rw [hh, transact16, withHandle_of_bound hbt]; exact hu
  · rw [hw, transact32, withHandle_of_bound hbu]
  · have apart : halfOf k (reservedBits s.params r) &&& halfOf k (named s.params) = 0 := by
      rw [← halfOf_and, hn, halfOf_zero]
    have stored : t.regs.get r &&& named s.params = a &&& named s.params := htv.trans (and_not_and (hn _))
    have shown := readValue_and (hr u huo)
    rw [keptU.params, keptT.params] at shown
    rw [keptT.params] at huv
    calc readValue r u &&& named s.params
        = withHalf k (t.regs.get r) (b &&& ~~~ halfOf k (reservedBits s.params r)) &&& named s.params := shown.trans huv
      _ = withHalf k a b &&& named s.params := withHalf_and stored (and_not_and apart)
      _ = _ := by cases k <;> rfl

section
variable {ok : State → Prop} {r : Reg}

/-- A software-owned word other than `config` stores every bit. -/
theorem storesNamed_owned (ho : ∀ s, ok s → softwareOwned s.params r = true) (hk : ∀ s v, ok s → ok (store r v s.silent))
    (hi : r ≠ .input) (hc : r ≠ .config) : StoresNamed ok allBits r := by
  intro s ks v hs
  refine ⟨store r v s.silent, ?_, hk s v hs, ?_⟩
  · rw [commit_owned (s := s.silent) (ho s hs), if_neg hc]
  · rw [store_regs, get_set_same _ _ _ hi]

/-- The split-register law of a software-owned word of which a read shows every bit. -/
theorem splitLaw_owned {word : Access32 → Instr} {half : Access16 → Instr} {k : Half}
    (hw : ∀ s a, exec (word a) s = transact32 r a s) (hh : ∀ s a, exec (half a) s = transact16 r k a s)
    (ho : ∀ s, ok s → softwareOwned s.params r = true) (hk : ∀ s v, ok s → ok (store r v s.silent)) (hi : r ≠ .input)
    (hc : r ≠ .config) (hr : ∀ p, reservedBits p r = 0) : SplitLaw ok allBits word half k := by
  refine splitLaw_of hw hh (storesNamed_owned ho hk hi hc) (fun p => by rw [hr]; simp) (fun s hs i h => ?_)
  rw [owned_shown (ho s hs), hr]
  exact h

end

/-- Neither half of `count` is drawn with both halted (R176). -/
theorem bothHalted.count_shown {s : State} (h : bothHalted s) : halvesMask s.runs = 0 := by
  have stands : ∀ k, s.runs k = false := not_runs_of_halted (h.all _)
  simp [halvesMask, stands]

/-- `count` and `state` store every bit while both halves are halted, and keep them halted. -/
theorem storesNamed_counter {r : Reg} (h : r = .count ∨ r = .state) (named : Params → Word) : StoresNamed bothHalted named r := by
  intro s ks v hs
  refine ⟨store r v s.silent, ?_, ?_, ?_⟩
  · rw [commit_counter h, storeHalted_of_halted (s := s.silent) (hs.all ks)]
  · rcases h with rfl | rfl <;> exact hs
  · rw [store_regs, get_set_same _ _ _ (by rcases h with rfl | rfl <;> simp)]

/-- The split-register law of `count` (R176). -/
theorem splitLaw_count {half : Access16 → Instr} {k : Half} (hh : ∀ s a, exec (half a) s = transact16 .count k a s) :
    SplitLaw bothHalted allBits .count half k := by
  refine splitLaw_of (fun _ _ => rfl) hh (storesNamed_counter (.inl rfl) _) (fun p => by simp [reservedBits]) (fun s hs i h => ?_)
  rw [shownBits, drawnBits, deviceBits, hs.count_shown]
  simpa [reservedBits, zeroBits, allBits] using h

/-- The split-register law of `state` on the bits of the two state ids (R177). -/
theorem splitLaw_state {half : Access16 → Instr} {k : Half} (hh : ∀ s a, exec (half a) s = transact16 .state k a s) :
    SplitLaw bothHalted (fun _ => 0x001F001F) .state half k := by
  refine splitLaw_of (fun _ _ => rfl) hh (storesNamed_counter (.inr rfl) _) (fun p => by simp [reservedBits, outsideStates])
    (fun s _ i h => ?_)
  have shown : shownBits s .state = 0x001F001F := by
    simp [shownBits, drawnBits, reservedBits, deviceBits, zeroBits, outsideStates]
  rwa [shown]

/-- `control` stores its steady bits (R116, R171). -/
theorem storesNamed_control : StoresNamed always (fun p => inBothHalves (steadyControl p)) .control := by
  intro s ks v _
  refine ⟨writeControl ks v s.silent, rfl, trivial, word_ext_halves _ _ fun j => ?_⟩
  have apart : fieldMask 16 s.params.ctrlLayout.clearCounter &&& steadyControl s.params = 0 := by
    unfold steadyControl
    ext i hi
    simp +contextual
  rw [halfOf_and, halfOf_and, halfOf_inBothHalves, writeControl_half]
  split
  · exact and_not_and apart
  · rfl

/-- The split-register law of `control` on its steady bits (R116, R171). -/
theorem splitLaw_control {half : Access16 → Instr} {k : Half} (hh : ∀ s a, exec (half a) s = transact16 .control k a s) :
    SplitLaw always (fun p => inBothHalves (steadyControl p)) .control half k := by
  refine splitLaw_of (fun _ _ => rfl) hh storesNamed_control (fun p => word_ext_halves _ _ fun j => ?_) (fun s _ i h => ?_)
  · rw [halfOf_and, halfOf_zero, halfOf_inBothHalves, reservedBits, halfOf_inBothHalves, steadyControl]
    ext i hi
    simp +contextual
  · rwa [eq_inBothHalves (halfOf_shownBits_control s)]

/-- The split-register law of the plain split registers (R172 to R175, R179). -/
theorem splitLaw_plain {word : Access32 → Instr} {half : Access16 → Instr} {r : Reg} {k : Half}
    (hw : ∀ s a, exec (word a) s = transact32 r a s) (hh : ∀ s a, exec (half a) s = transact16 r k a s)
    (hm : r ∈ [Reg.clearOnEvent, .haltOnEvent, .stopOnEvent, .startOnEvent, .registerMode]) :
    SplitLaw always allBits word half k := by
  simp only [List.mem_cons, List.not_mem_nil, or_false] at hm
  rcases hm with rfl | rfl | rfl | rfl | rfl <;>
    exact splitLaw_owned hw hh (fun _ _ => rfl) (fun _ _ _ => trivial) (by simp) (by simp) fun _ => rfl

/-- The split-register law of a match slot in match mode, through either address of its halves (R211, R212). -/
theorem splitLaw_matchCapture {half : Access16 → Instr} {i : Slot} {k : Half}
    (hh : ∀ s a, exec (half a) s = transact16 (.matchCapture i) k a s) :
    SplitLaw inMatchMode allBits (.matchCapture i) half k :=
  splitLaw_owned (fun _ _ => rfl) hh (fun _ hm => decide_eq_true hm) (fun _ _ hm => hm) (by simp) (by simp) fun _ => rfl

/-- The split-register law of a capture control word, through either address of its halves (R213, R214). -/
theorem splitLaw_captureControl {half : Access16 → Instr} {i : Slot} {k : Half}
    (hh : ∀ s a, exec (half a) s = transact16 (.captureControl i) k a s) :
    SplitLaw always allBits (.captureControl i) half k :=
  splitLaw_owned (fun _ _ => rfl) hh (fun _ _ => rfl) (fun _ _ _ => trivial) (by simp) (by simp) fun _ => rfl

/-- Settles O40: each word stores its named bits, and a read after the two writes shows them. -/
theorem splitRegisterLaw : Obligations.SplitRegisterLaw := by
  refine ⟨?_, ?_, ?_, ?_, ?_, ?_, ?_, ?_, ?_, ?_, ?_, ?_, ?_, ?_, ?_, ?_, fun i => ⟨?_, ?_, ?_, ?_, ?_, ?_, ?_, ?_⟩⟩
  iterate 2 exact splitLaw_control fun _ _ => rfl
  iterate 10 exact splitLaw_plain (fun _ _ => rfl) (fun _ _ => rfl) (by simp)
  iterate 2 exact splitLaw_count fun _ _ => rfl
  iterate 2 exact splitLaw_state fun _ _ => rfl
  iterate 4 exact splitLaw_matchCapture fun _ _ => rfl
  iterate 4 exact splitLaw_captureControl fun _ _ => rfl

/-! ## Sub-fields: the read, and the field of what it returned -/

/-- What a transaction on a part of a word shows of the word (R140, R142). -/
def Part.result : Part → Word → Result
  | .whole, v => .word v
  | .half k, v => .half (halfOf k v)

/-- What a read of a view returns. -/
def viewResult (v : View) (s : State) : Result := (storage v).2.result (readValue (storage v).1 s)

/-- The state after a read of a view. -/
def afterRead (v : View) (s : State) : State := { readEffect (storage v).1 s with result := viewResult v s }

/-- The read of a view of the bound machine completes with that state. -/
theorem exec_read_bound {s : State} (hb : Bound s) (v : View) : exec (transactionOf v false 0) s = .next (afterRead v s) := by
  rw [exec_read, afterRead, viewResult]
  rcases storage v with ⟨r, _ | k⟩ <;> exact withHandle_of_bound hb _

/-- A read changes neither the lifecycle nor the parameters nor the waiting operations. -/
theorem afterRead_launch (v : View) (s : State) : SameLaunch s (afterRead v s) := ⟨rfl, rfl, rfl, rfl, rfl⟩

/-- A read of a word that is no status word changes no word. -/
theorem afterRead_frame {v : View} (h : isStatus (storage v).1 = false) (s : State) : Frame [] s (afterRead v s) :=
  ⟨afterRead_launch v s, ⟨rfl, rfl⟩, fun q _ => congrArg (·.get q) (readEffect_regs _ s (.inl h))⟩

/-- The field of what a read returned, as a word. -/
def resultField (o w : Nat) : Result → Word
  | .word x => extract x o w
  | .half x => (extract x o w).setWidth 32
  | _ => 0

/-- `FIELD_RD` is the read of the view with the field of its value returned (R145). -/
theorem exec_fieldRd {s : State} {reg : View} {o w : Nat} (hb : Bound s) (hw : 1 ≤ w) (ho : o + w ≤ reg.bits) :
    exec (.fieldRd reg o w) s = .next { afterRead reg s with result := .field (resultField o w (viewResult reg s)) } := by
  have past : exec (.fieldRd reg o w) s =
      .next { readEffect (storage reg).1 s with result := .field (fieldRead hb.handle reg o w s) } :=
    (withHandle_of_bound hb _).trans (if_pos (field_pair hw ho))
  rw [past, fieldRead, afterRead, viewResult]
  rcases storage reg with ⟨r, _ | k⟩ <;> rfl

/-- A pair outside the view is refused (R110, R145). -/
theorem exec_fieldRd_outside {s : State} {reg : View} {o w : Nat} (hb : Bound s) (h : ¬ (1 ≤ w ∧ o + w ≤ reg.bits)) :
    exec (.fieldRd reg o w) s = .refused .fieldOutsideView := by
  have unfit : ¬ fieldPairOk reg.bits o w = true := by simpa [fieldPairOk] using h
  exact (withHandle_of_bound hb _).trans (if_neg unfit)

/-- Settles O42: `FIELD_RD` is the read of the view, with the field of its value returned. (The name `fieldRead` is the model's.) -/
theorem fieldReadHolds : Obligations.FieldRead := by
  intro s reg o w hb
  refine ⟨fun hw ho => ⟨_, _, exec_read_bound hb reg, exec_fieldRd hb hw ho, rfl, ?_⟩, exec_fieldRd_outside hb⟩
  simp only [afterRead]
  cases viewResult reg s <;> rfl

/-! ## Sub-fields: the write of the part that was read, with the field inserted -/

/-- The content `FIELD_WR` writes to a word that holds `old`, from what its read returned: the part of the view with the field
inserted, the rest kept (R146). -/
def fieldContent (p : Part) (x : Result) (o w : Nat) (f old : Word) : Word :=
  match p, x with
  | .whole, .word x => insert x o w f
  | .half k, .half x => withHalf k old (insert x o w (f.setWidth 16))
  | _, _ => 0

/-- The state at the second transaction of a `FIELD_WR`: the evaluations have run after the read (R81). -/
def beforeWrite (v : View) (s : State) : State := runBetween (afterRead v s)

/-- The content a `FIELD_WR` on a view writes. -/
def writtenContent (v : View) (o w : Nat) (f : Word) (s : State) : Word :=
  fieldContent (storage v).2 (viewResult v s) o w f ((beforeWrite v s).regs.get (storage v).1)

/-- The lifecycle, the parameters and the waiting operations are the same at the second transaction. -/
theorem beforeWrite_launch (v : View) (s : State) : SameLaunch s (beforeWrite v s) :=
  (afterRead_launch v s).trans (runBetween_launch _)

/-- With no evaluation scheduled the second transaction meets the state the read leaves. -/
theorem beforeWrite_of_nil {v : View} {s : State} (h : s.between = []) : beforeWrite v s = afterRead v s :=
  runBetween_of_nil (s := afterRead v s) h

/-- A software-owned word is as before at the second transaction (R25). -/
theorem beforeWrite_owned {v : View} {s : State} (h : softwareOwned s.params (storage v).1 = true) :
    (beforeWrite v s).regs.get (storage v).1 = s.regs.get (storage v).1 :=
  (runBetween_words (afterRead v s) _ (softwareOwned_kept h)).trans ((afterRead_frame (owned_status h) s).words _ (by simp))

section
variable {s : State} {reg : View} {o w : Nat} {f : Word}

/-- `FIELD_WR` past its checks is the write effect of the new content on the state it then meets (R146). -/
theorem exec_fieldWr_commit (hb : Bound s) (hw : 1 ≤ w) (ho : o + w ≤ reg.bits) (hf : f.toNat < 2 ^ w) (hi : reg ≠ .input) :
    exec (.fieldWr reg o w f) s =
      commit (storage reg).1 (storage reg).2.halves (writtenContent reg o w f s) (beforeWrite reg s).silent := by
  rw [exec_fieldWr hb hw ho hf hi, fieldWrite, writtenContent, beforeWrite, afterRead, runBetween_with, viewResult]
  rcases storage reg with ⟨r, _ | k⟩ <;> rfl

/-- `FIELD_WR` on a software-owned word stores the new content; of `config` it also settles `count` (R146). -/
theorem fieldWr_owned (hb : Bound s) (hs : softwareOwned s.params (storage reg).1 = true) (hw : 1 ≤ w) (ho : o + w ≤ reg.bits)
    (hf : f.toNat < 2 ^ w) :
    ∃ t, exec (.fieldWr reg o w f) s = .next t ∧ t.regs.get (storage reg).1 = writtenContent reg o w f s ∧
      Frame (if reg = .config then [.config, .count] else [(storage reg).1]) (beforeWrite reg s) t ∧ t.result = .nothing ∧
      t.between = [] := by
  have hm : softwareOwned (beforeWrite reg s).silent.params (storage reg).1 = true := by
    rw [silent_params, (beforeWrite_launch reg s).params, hs]
  have written := exec_fieldWr_commit hb hw ho hf (owned_not_input hs)
  rw [commit_owned hm] at written
  obtain ⟨-, result, between⟩ := commit_frame (commit_owned hm (storage reg).2.halves (writtenContent reg o w f s))
  refine ⟨_, written, owned_get hm _ _, ?_, result, between⟩
  simp only [← config_view]
  exact (silent_frame _).trans (owned_frame _ _)

end

/-- The other half is another half. -/
theorem otherHalf_ne (k : Half) : otherHalf k ≠ k := by cases k <;> simp [otherHalf]

/-- Settles O43: the new content is stored on the state the evaluations leave, which kept the word. (The name `fieldWrite` is the
model's.) -/
theorem fieldWriteHolds : Obligations.FieldWrite := by
  intro s reg o w f hb hs hw ho hf r
  obtain ⟨t, ht, content, frame, result, between⟩ := fieldWr_owned hb hs hw ho hf
  refine ⟨t, afterRead reg s, exec_read_bound hb reg, ht, ?_, fun q hq hc => frame.words q ?_, frame.agent, result, between,
    (beforeWrite_launch reg s).trans frame.launch, fun hn => ?_⟩
  · rw [writtenContent, beforeWrite_owned hs] at content
    simp only [afterRead, viewResult, r] at content ⊢
    revert content
    rcases storage reg with ⟨q, _ | k⟩ <;> intro content
    · exact content
    · exact ⟨(congrArg (halfOf k) content).trans (halfOf_withHalf_same _ _ _),
        (congrArg (halfOf (otherHalf k)) content).trans (halfOf_withHalf_other _ _ _ _ (otherHalf_ne k))⟩
  · split
    · next h => simpa using ⟨by rintro rfl; exact hq (config_view.2 h).symm, hc h⟩
    · simpa using hq
  · rw [beforeWrite_of_nil hn] at frame
    exact (afterRead_frame (owned_status hs) s).trans frame

/-! ## Sub-field writes on the other words -/

/-- A half the view does not address is written back as it stands. -/
theorem halfOf_fieldContent_kept {p : Part} {x : Word} {o w : Nat} {f old : Word} {k : Half} (hk : k ∉ p.halves) :
    halfOf k (fieldContent p (p.result x) o w f old) = halfOf k old := by
  rcases p with _ | j
  · cases k <;> simp [Part.halves] at hk
  · exact halfOf_withHalf_other j k old _ (by simpa [Part.halves] using hk)

/-- The mask of the sixteen flags. -/
theorem getLsbD_flags (b : Nat) : (0x0000FFFF : Word).getLsbD b = decide (b < 16) := by
  rw [show (0x0000FFFF : Word) = mask 32 0 16 by decide, getLsbD_mask, Bool.eq_iff_iff]
  simp
  omega

/-- A read of a status word draws the bits above its flags. -/
theorem drawnBits_status {r : Reg} (h : r = .eventOccurred ∨ r = .conflictOccurred) (s : State) : drawnBits s r = ~~~ 0x0000FFFF := by
  rcases h with rfl | rfl
  · show aboveSlots ||| 0 = _
    decide
  · show 0x3FFF0000 ||| 0xC0000000 = _
    decide

/-- A read of a status word shows its flags. -/
theorem flag_shown {r : Reg} (h : r = .eventOccurred ∨ r = .conflictOccurred) (s : State) {b : Nat} (hb : b < 16) :
    (readValue r s).getLsbD b = (s.regs.get r).getLsbD b := by
  have noZero : zeroBits s.params r = 0 := by rcases h with rfl | rfl <;> rfl
  refine getLsbD_readValue ?_
  rw [shownBits, drawnBits_status h, noZero, and_ones, not_not_bits, getLsbD_flags, decide_eq_true hb]

/-- A write of ones clears the flags it holds (R185). -/
theorem clearByOnes_flag {x v : Word} {b : Nat} (hb : b < 16) (hv : v.getLsbD b = true) : (clearByOnes x v).getLsbD b = false := by
  rw [clearByOnes, BitVec.getLsbD_and, BitVec.getLsbD_not, BitVec.getLsbD_and, hv, getLsbD_flags, decide_eq_true hb]
  simp

/-- A request word after a write: the value below bits 31:30, which are kept (R183, log entry 33). -/
theorem merge_request (old v : Word) : merge 0x3FFFFFFF old v = (v &&& 0x3FFFFFFF) ||| (old &&& 0xC0000000) :=
  BitVec.or_comm _ _

/-- The status words have one view each, the word itself. -/
theorem status_part {reg : View} (h : (storage reg).1 = .eventOccurred ∨ (storage reg).1 = .conflictOccurred) :
    (storage reg).2 = .whole := by
  cases reg <;> simp_all [storage]

/-- The second transaction of a `FIELD_WR` of `s` completes with `t`, `m` the state it meets: beside its word and the `others` it
leaves every word as it stands in `m` (R146). -/
def Completes (s m : State) (r : Reg) (others : List Reg) (a : Answer) (t : State) : Prop :=
  a = .next t ∧ t.result = .nothing ∧ t.between = [] ∧ SameLaunch s t ∧ SameAgent m t ∧
    ∀ q, q ≠ r → q ∉ others → t.regs.get q = m.regs.get q

section
variable {s m : State} {r : Reg} {ks : List Half} {v : Word} (hm : SameLaunch s m) (hb : m.between = [])
include hm hb

/-- A write effect with that frame. -/
theorem completes_of_frame {t : State} {others : List Reg} (h : commit r ks v m.silent = .next t)
    (frame : Frame (r :: others) m.silent t) : Completes s m r others (commit r ks v m.silent) t := by
  obtain ⟨-, result, between⟩ := commit_frame h
  have kept := (silent_frame m).trans frame
  exact ⟨h, result, between.trans hb, hm.trans kept.launch, kept.agent, fun q hq hn => kept.words q (by simp [hq, hn])⟩

/-- A write effect that replaces its word. -/
theorem completes_of_store {w : Word} (h : commit r ks v m.silent = .next (store r w m.silent)) :
    ∃ t, Completes s m r [] (commit r ks v m.silent) t ∧ t.regs.get r = w := by
  refine ⟨_, completes_of_frame hm hb h (store_frame r w _), get_set_same _ _ _ ?_⟩
  rintro rfl
  cases h

/-- A write effect that waits for halted halves loads its word, or is refused (R176, R177, R180). -/
theorem completes_of_storeHalted {js : List Half} (h : commit r ks v m.silent = storeHalted r js v m.silent) :
    ((∀ k ∈ js, m.halted k = true) → ∃ t, Completes s m r [] (commit r ks v m.silent) t ∧ t.regs.get r = v) ∧
      ((∃ k ∈ js, m.halted k = false) → commit r ks v m.silent = .refused .counterRunning) :=
  ⟨fun hh => completes_of_store hm hb (h.trans (storeHalted_of_halted (s := m.silent) hh)),
    fun hh => h.trans (storeHalted_of_running (s := m.silent) hh)⟩

/-- A write of `control`, half by half: `clear_counter` is stored as 0 and a set one clears its counter (R171), a half that is
stopped holds a draw (log entry 12). -/
theorem completes_control :
    ∃ t, Completes s m .control [.count] (commit .control ks v m.silent) t ∧
      (∀ k, (k ∈ ks → halfOf k (t.regs.get .control) = halfOf k v &&& ~~~ fieldMask 16 s.params.ctrlLayout.clearCounter) ∧
        (k ∉ ks → halfOf k (t.regs.get .control) = halfOf k v)) ∧
      ∀ k, let asked : Prop := m.governor k ∈ ks ∧
          fieldFlag s.params.ctrlLayout.clearCounter (halfOf (m.governor k) v) = true
        (asked → halfOf k (t.regs.get .count) = 0) ∧
        (¬ asked → (m.runs k = true ∧ t.runs k = false → halfOf k (t.regs.get .count) = halfOf k (Config.freeWord m.draws)) ∧
          (¬ (m.runs k = true ∧ t.runs k = false) → halfOf k (t.regs.get .count) = halfOf k (m.regs.get .count))) := by
  refine ⟨_, completes_of_frame hm hb rfl (writeControl_frame ks v _), fun k => ⟨fun hk => ?_, fun hk => ?_⟩, fun k => ?_⟩
  · rw [writeControl_half, if_pos hk, silent_params, hm.params]
  · rw [writeControl_half, if_neg hk]
  · have count := writeControl_count ks v m.silent k
    rw [silent_params, hm.params] at count
    exact ⟨fun ha => count.trans (if_pos ha), fun ha =>
      ⟨fun hs => count.trans ((if_neg ha).trans (if_pos hs)), fun hs => count.trans ((if_neg ha).trans (if_neg hs))⟩⟩

end

/-- Settles O44: the write effect of each kind of word, on the state the evaluations leave. -/
theorem fieldWriteCompletes : Obligations.FieldWriteCompletes := by
  intro s u reg o w f hb hw ho hf hu r m old written new answer after
  obtain rfl : afterRead reg s = u := Host.Outcome.next.inj ((exec_read_bound hb reg).symm.trans hu)
  have launch : SameLaunch s m := beforeWrite_launch reg s
  have between : m.between = [] := runBetween_between _
  have content : new = writtenContent reg o w f s := rfl
  have halves : ∀ k, written k ↔ k ∈ (storage reg).2.halves := fun k => by
    simp only [written]
    rcases (storage reg).2 with _ | j
    · cases k <;> simp [Part.halves]
    · simp [Part.halves]
  have answered : r ≠ .input → answer = commit r (storage reg).2.halves new m.silent := fun hi =>
    exec_fieldWr_commit hb hw ho hf (mt input_view.2 hi)
  refine ⟨fun h => ?request, fun h => ?counter, fun h => ?output, fun h => ?control, fun h => ?status, fun i h mode => ?slot,
    fun h => ?input⟩
  case request =>
    simp only [after, answered (by rcases h with h | h <;> simp [h])]
    rw [← merge_request]
    exact completes_of_store launch between (commit_request h)
  case counter =>
    simp only [after, answered (by rcases h with h | h <;> simp [h]), halves]
    exact completes_of_storeHalted launch between (commit_counter h)
  case output =>
    simp only [after, answered (by simp [h])]
    exact completes_of_storeHalted (js := m.halvesInUse) launch between (by rw [h]; rfl)
  case control =>
    simp only [after, answered (by simp [h]), halves]
    obtain ⟨t, done, control, count⟩ := completes_control (ks := (storage reg).2.halves) (v := new) launch between
    rw [h]
    refine ⟨t, done, fun k => ⟨(control k).1, fun hk => ((control k).2 hk).trans ?_⟩, count⟩
    exact halfOf_fieldContent_kept hk
  case status =>
    simp only [after, answered (by rcases h with h | h <;> simp [h])]
    have effect : commit r (storage reg).2.halves new m.silent = _ := commit_status h
    refine ⟨fun rule => ?_, fun rule =>
      effect.trans (storeFlags_of_readClears (s := m.silent) ((congrArg _ launch.params).trans rule))⟩
    obtain ⟨t, done, flags⟩ := completes_of_store launch between
      (effect.trans (storeFlags_of_writeOneToClear (s := m.silent) ((congrArg _ launch.params).trans rule)))
    refine ⟨t, done, flags, fun b hb16 outside hset => ?_⟩
    rw [flags]
    refine clearByOnes_flag hb16 ?_
    rw [content, writtenContent, viewResult, status_part h]
    show (insert (readValue r s) o w f).getLsbD b = true
    rw [getLsbD_insert, if_neg (by omega), flag_shown h s hb16, hset]
  case slot =>
    rw [answered (by simp [h]), h]
    exact storeSlot_of_capturing (s := m.silent) ((congrArg _ launch.params).trans mode)
  case input =>
    refine (withHandle_of_bound hb _).trans ?_
    rw [field_pair hw ho, if_pos rfl, if_pos hf, if_pos (input_view.1 h)]

/-! ## Sub-fields: reading back what was written -/

/-- The bit of the word at a bit of a part. -/
def Part.place : Part → Nat → Nat
  | .whole, b => b
  | .half k, b => halfOff k + b

/-- A field is told by its bits. -/
theorem extract_congr {n : Nat} {x y : BitVec n} {o w : Nat} (h : ∀ b, o ≤ b → b < o + w → x.getLsbD b = y.getLsbD b) :
    extract x o w = extract y o w := by
  apply BitVec.eq_of_getLsbD_eq
  intro i _
  rw [getLsbD_extract, getLsbD_extract]
  by_cases hi : i < w
  · rw [h _ (by omega) (by omega)]
  · rw [decide_eq_false hi, Bool.and_false, Bool.and_false]

/-- The field of what a part shows is told by its bits in the word. -/
theorem resultField_congr {p : Part} {x y : Word} {o w : Nat}
    (h : ∀ b, o ≤ b → b < o + w → x.getLsbD (p.place b) = y.getLsbD (p.place b)) :
    resultField o w (p.result x) = resultField o w (p.result y) := by
  cases p with
  | whole => exact extract_congr h
  | half k =>
    refine congrArg (BitVec.setWidth 32) (extract_congr fun b h1 h2 => ?_)
    have same := h b h1 h2
    simp only [Part.place] at same
    rw [getLsbD_halfOf, getLsbD_halfOf, same]

/-- What was inserted in a half is extracted as a word (R145, R146). -/
theorem extract_half_inserted {x : HalfWord} {f : Word} {o w : Nat} (ho : o + w ≤ 16) (hf : f.toNat < 2 ^ w) :
    (extract (insert x o w (f.setWidth 16)) o w).setWidth 32 = f := by
  have small : f.toNat < 2 ^ 16 := hf.trans_le (Nat.pow_le_pow_right (by decide) ((Nat.le_add_left ..).trans ho))
  have low : (f.setWidth 16).toNat = f.toNat := by rw [BitVec.toNat_setWidth, Nat.mod_eq_of_lt small]
  rw [extract_insert _ _ _ _ ho (low.trans_lt hf)]
  apply BitVec.eq_of_toNat_eq
  rw [BitVec.toNat_setWidth, low, Nat.mod_eq_of_lt f.isLt]

/-- The width of a part (R27, R46). -/
def Part.width : Part → Nat
  | .whole => 32
  | .half _ => 16

/-- A view has the width of the part it addresses. -/
theorem bits_eq_width (v : View) : v.bits = (storage v).2.width := by cases v <;> rfl

/-- What was inserted is extracted (R112, R147). -/
theorem resultField_inserted {p : Part} {x old f : Word} {o w : Nat} (ho : o + w ≤ p.width) (hf : f.toNat < 2 ^ w) :
    resultField o w (p.result (fieldContent p (p.result x) o w f old)) = f := by
  cases p with
  | whole => exact extract_insert x f o w ho hf
  | half k =>
    simp only [fieldContent, Part.result, halfOf_withHalf_same, resultField]
    exact extract_half_inserted ho hf

/-- A disjoint field is kept (R112, R147). -/
theorem resultField_beside {p : Part} {x old f : Word} {o₁ w₁ o₂ w₂ : Nat} (h : o₁ + w₁ ≤ o₂ ∨ o₂ + w₂ ≤ o₁) :
    resultField o₂ w₂ (p.result (fieldContent p (p.result x) o₁ w₁ f old)) = resultField o₂ w₂ (p.result x) := by
  cases p with
  | whole => exact extract_insert_disjoint x f o₁ w₁ o₂ w₂ h
  | half k =>
    simp only [fieldContent, Part.result, halfOf_withHalf_same, resultField]
    rw [extract_insert_disjoint _ _ _ _ _ _ h]

/-- A read shows a field of which every bit is shown as it is stored. -/
theorem resultField_shown {reg : View} {s : State} {o w : Nat}
    (h : ∀ b, o ≤ b → b < o + w → (shownBits s (storage reg).1).getLsbD ((storage reg).2.place b) = true) :
    resultField o w (viewResult reg s) = resultField o w ((storage reg).2.result (s.regs.get (storage reg).1)) :=
  resultField_congr fun b h1 h2 => getLsbD_readValue (h b h1 h2)

/-- A bit of a part is one of the word. -/
theorem Part.place_lt {p : Part} {b : Nat} (h : b < p.width) : p.place b < 32 := by
  cases p with
  | whole => exact h
  | half k =>
    simp only [Part.width] at h
    cases k <;> simp only [Part.place, halfOff] <;> omega

/-- Settles O45: the word stores the content with the field inserted, and a read shows both fields as stored. -/
theorem siblingPreservation : Obligations.SiblingPreservation := by
  intro s reg o₁ w₁ o₂ w₂ f hb _ hs hw₁ ho₁ hw₂ ho₂ hf apart named
  obtain ⟨t, ht, content, frame, -, -⟩ := fieldWr_owned hb hs hw₁ ho₁ hf
  have launch : SameLaunch s t := (beforeWrite_launch reg s).trans frame.launch
  have owned : softwareOwned t.params (storage reg).1 = true := by rw [launch.params, hs]
  have shown : ∀ o w, o + w ≤ reg.bits → (∀ b, o ≤ b → b < o + w → o₁ ≤ b ∧ b < o₁ + w₁ ∨ o₂ ≤ b ∧ b < o₂ + w₂) →
      resultField o w (viewResult reg t) = resultField o w ((storage reg).2.result (writtenContent reg o₁ w₁ f s)) := by
    intro o w ho inside
    rw [← content]
    refine resultField_shown fun b h1 h2 => ?_
    have width : b < (storage reg).2.width := by rw [← bits_eq_width]; omega
    have free : (reservedBits s.params (storage reg).1).getLsbD ((storage reg).2.place b) = false := by
      have := named b (inside b h1 h2)
      revert this
      cases (storage reg).2 <;> exact id
    rw [owned_shown owned, launch.params, BitVec.getLsbD_not, decide_eq_true (Part.place_lt width), Bool.true_and,
      Bool.not_eq_true']
    exact free
  have hbt := hb.of_launch launch
  refine ⟨t, _, _, _, ht, exec_fieldRd hbt hw₁ ho₁, exec_fieldRd hbt hw₂ ho₂, exec_fieldRd hb hw₂ ho₂, ?_, ?_⟩
  · refine congrArg Result.field ((shown o₁ w₁ ho₁ (by omega)).trans (resultField_inserted ?_ hf))
    rw [← bits_eq_width]
    exact ho₁
  · exact congrArg Result.field ((shown o₂ w₂ ho₂ (by omega)).trans (resultField_beside apart))

/-! ## The prescaler of a ControlRegister -/

/-- `pause_counter`, `halt_sct` and `count_prescaler` lie apart from `count_down` and `clear_counter`, so they are read as stored
(R116). -/
theorem steady_of_legal {p : Params} (h : p.legal = true) {g : SubField}
    (hg : g ∈ [p.ctrlLayout.pauseCounter, p.ctrlLayout.haltSct, p.ctrlLayout.countPrescaler]) {b : Nat} (h1 : g.off ≤ b)
    (h2 : b < g.off + g.width) : (steadyControl p).getLsbD b = true := by
  obtain ⟨legal, -⟩ := legal_ctrl h
  simp only [CtrlLayout.fields, fieldsLegal, disjointFields, List.all_cons, List.all_nil, Bool.and_eq_true, Bool.or_eq_true,
    decide_eq_true_eq] at legal
  have fits : b < 16 := by
    simp only [List.mem_cons, List.not_mem_nil, or_false] at hg
    rcases hg with rfl | rfl | rfl <;> omega
  simp only [steadyControl, BitVec.getLsbD_and, BitVec.getLsbD_not, fieldsMask_getLsbD, fieldMask, getLsbD_mask, fits,
    CtrlLayout.fields, List.any_cons, List.any_nil, decide_true, Bool.true_and, Bool.and_eq_true, Bool.not_eq_true',
    Bool.or_eq_true, Bool.and_eq_false_iff, decide_eq_true_eq, decide_eq_false_iff_not]
  simp only [List.mem_cons, List.not_mem_nil, or_false] at hg
  rcases hg with rfl | rfl | rfl <;> omega

/-- `count_prescaler` is eight bits wide and lies in its ControlRegister (R116). -/
theorem prescaler_fits {p : Params} (h : p.legal = true) :
    p.ctrlLayout.countPrescaler.width = 8 ∧ p.ctrlLayout.countPrescaler.off + 8 ≤ 16 := by
  obtain ⟨legal, widths⟩ := legal_ctrl h
  simp only [CtrlLayout.fields, fieldsLegal, Bool.and_eq_true, decide_eq_true_eq] at legal
  simp only [CtrlLayout.fields, List.map_cons, List.map_nil, List.cons.injEq, and_true] at widths
  omega

/-- `pause_counter` and `halt_sct` are one bit wide and lie apart from `count_prescaler` (R116). -/
theorem prescaler_apart {p : Params} (h : p.legal = true) {g : SubField}
    (hg : g ∈ [p.ctrlLayout.pauseCounter, p.ctrlLayout.haltSct]) :
    g.width = 1 ∧ ¬ (p.ctrlLayout.countPrescaler.off ≤ g.off ∧ g.off < p.ctrlLayout.countPrescaler.off + 8) := by
  obtain ⟨legal, widths⟩ := legal_ctrl h
  simp only [CtrlLayout.fields, fieldsLegal, disjointFields, List.all_cons, List.all_nil, Bool.and_eq_true, Bool.or_eq_true,
    decide_eq_true_eq] at legal
  simp only [CtrlLayout.fields, List.map_cons, List.map_nil, List.cons.injEq, and_true] at widths
  simp only [List.mem_cons, List.not_mem_nil, or_false] at hg
  rcases hg with rfl | rfl <;> omega

/-- A write of `control` stores the steady bits of the value (R171). -/
theorem getLsbD_steady {p : Params} {b : Nat} (h : (steadyControl p).getLsbD b = true) (x : HalfWord) :
    (x &&& ~~~ fieldMask 16 p.ctrlLayout.clearCounter).getLsbD b = x.getLsbD b := by
  rw [steadyControl, BitVec.getLsbD_and, Bool.and_eq_true] at h
  rw [BitVec.getLsbD_and, h.2, Bool.and_true]

/-- A read of a ControlRegister shows a field of steady bits as it is stored. -/
theorem resultField_control {reg : View} {k : Half} (view : storage reg = (.control, .half k)) {s : State} {o w : Nat}
    (h : ∀ b, o ≤ b → b < o + w → (steadyControl s.params).getLsbD b = true) :
    resultField o w (viewResult reg s) = resultField o w ((Part.half k).result (s.regs.get .control)) := by
  rw [viewResult, view]
  exact congrArg (BitVec.setWidth 32) (extract_congr fun b h1 h2 => getLsbD_half_readValue (by rw [halfOf_shownBits_control, h b h1 h2]))

/-- Settles O46: only the written field of the one half changes, and its bits are read as stored. -/
theorem prescalerKeepsSentinel : Obligations.PrescalerKeepsSentinel := by
  intro s k f hb hn hl hf c reg
  have view : storage reg = (.control, .half k) := by cases k <;> rfl
  obtain ⟨width, fits⟩ : c.countPrescaler.width = 8 ∧ c.countPrescaler.off + 8 ≤ 16 := prescaler_fits hl
  have bits : c.countPrescaler.off + 8 ≤ reg.bits := by rw [bits_eq_width, view]; exact fits
  obtain ⟨t, ⟨done, -, -, launch, -, -⟩, control, -⟩ := completes_control (ks := [k])
    (v := writtenContent reg c.countPrescaler.off 8 f s) (beforeWrite_launch reg s) (runBetween_between _)
  have written : exec (.fieldWr reg c.countPrescaler.off 8 f) s = .next t := by
    rw [exec_fieldWr_commit hb (by decide) bits hf (mt input_view.2 (by simp [view])), view]
    exact done
  have content : writtenContent reg c.countPrescaler.off 8 f s = fieldContent (.half k) ((Part.half k).result (readValue .control s))
      c.countPrescaler.off 8 f (s.regs.get .control) := by
    rw [writtenContent, beforeWrite_of_nil hn, (afterRead_frame (by rw [view]; rfl) s).regs, viewResult, view]
  have stored : halfOf k (t.regs.get .control) =
      insert (halfOf k (readValue .control s)) c.countPrescaler.off 8 (f.setWidth 16) &&& ~~~ fieldMask 16 c.clearCounter := by
    rw [(control k).1 (by simp), content]
    exact congrArg (· &&& _) (halfOf_withHalf_same ..)
  have sentinel : ∀ g ∈ [c.pauseCounter, c.haltSct], fieldFlag g (t.controlOf k) = fieldFlag g (s.controlOf k) := fun g hg => by
    obtain ⟨one, apart⟩ := prescaler_apart hl hg
    have steady : (steadyControl s.params).getLsbD g.off = true :=
      steady_of_legal hl (g := g) (by simp only [List.mem_cons, List.not_mem_nil, or_false] at hg ⊢; tauto) le_rfl (by omega)
    calc fieldFlag g (t.controlOf k)
        = (insert (halfOf k (readValue .control s)) c.countPrescaler.off 8 (f.setWidth 16)).getLsbD g.off :=
          (congrArg (BitVec.getLsbD · g.off) stored).trans (getLsbD_steady steady _)
      _ = (halfOf k (readValue .control s)).getLsbD g.off := by rw [getLsbD_insert, if_neg apart]
      _ = fieldFlag g (s.controlOf k) := getLsbD_half_readValue (by rw [halfOf_shownBits_control, steady])
  refine ⟨t, _, written, exec_fieldRd (hb.of_launch launch) (by decide) bits, congrArg Result.field ?_, sentinel _ (by simp),
    sentinel _ (by simp), ?_⟩
  · have steady : ∀ b, c.countPrescaler.off ≤ b → b < c.countPrescaler.off + 8 → (steadyControl s.params).getLsbD b = true :=
      fun b h1 h2 => steady_of_legal hl (g := c.countPrescaler) (by simp [c]) h1 (by omega)
    calc resultField c.countPrescaler.off 8 (viewResult reg t)
        = resultField c.countPrescaler.off 8 ((Part.half k).result (t.regs.get .control)) :=
          resultField_control view (by rw [launch.params]; exact steady)
      _ = (extract (insert (halfOf k (readValue .control s)) c.countPrescaler.off 8 (f.setWidth 16))
            c.countPrescaler.off 8).setWidth 32 :=
          congrArg (BitVec.setWidth 32) (extract_congr fun b h1 h2 => by rw [stored, getLsbD_steady (steady b h1 h2)])
      _ = f := extract_half_inserted fits hf
  · refine ((control _).2 (by simp [otherHalf_ne])).trans ?_
    rw [content]
    exact halfOf_withHalf_other _ _ _ _ (otherHalf_ne k)

end Sys2Proof.Machine

/-! PROOFS. The family 41_global_registers: the writes of `config`, `control`, `count`, `state`, `output` and the request words, the
reads of `count`, and the status words. -/

namespace Sys2Proof.Machine

/-! ## A write of the bound machine -/

section
variable {s : State} (hb : Bound s)
include hb

/-- A 32-bit write is the write effect of the value without its reserved bits (R130, R141). -/
theorem transact32_write (r : Reg) (v : Word) :
    transact32 r (.write v) s = commit r [.low, .high] (v &&& ~~~ reservedBits s.params r) s.silent :=
  withHandle_of_bound hb _

/-- A 16-bit write is the write effect of the word with that half replaced (R143, log entry 18). -/
theorem transact16_write (r : Reg) (k : Half) (v : HalfWord) :
    transact16 r k (.write v) s =
      commit r [k] (withHalf k (s.regs.get r) (v &&& ~~~ halfOf k (reservedBits s.params r))) s.silent :=
  withHandle_of_bound hb _

/-- A 32-bit write whose effect replaces the word by `w` changes nothing else. -/
theorem transact32_stores {r : Reg} {v w : Word}
    (h : commit r [.low, .high] (v &&& ~~~ reservedBits s.params r) s.silent = .next (store r w s.silent)) :
    ∃ t, transact32 r (.write v) s = .next t ∧ t.regs.get r = w ∧ t.result = .nothing ∧ t.draws = s.draws ∧
      t.between = s.between ∧ Frame [r] s t := by
  refine ⟨store r w s.silent, (transact32_write hb r v).trans h, get_set_same _ _ _ ?_, rfl, rfl, rfl,
    (silent_frame s).trans (store_frame r w _)⟩
  rintro rfl
  cases h

end

/-! ## The configuration -/

/-- Settles O29: the new `config` decides which halves have stopped. -/
theorem configWrite : Obligations.ConfigWrite := by
  intro s v hb
  refine ⟨writeConfig (v &&& ~~~ reservedBits s.params .config) s.silent, transact32_write hb .config v, ?_, fun k => ?_, rfl,
    rfl, rfl, (silent_frame s).trans (writeConfig_frame _ _)⟩
  · rw [writeConfig_config, reservedBits, not_not_bits]
  · exact settleCount_count s.silent _ k

/-! ## Control -/

/-- A half of `control` without its reserved bits holds the fields of the ControlRegister (R116, R130). -/
theorem halfOf_unreserved_control (p : Params) (k : Half) :
    ~~~ halfOf k (reservedBits p .control) = fieldsMask 16 p.ctrlLayout.fields := by
  rw [reservedBits, halfOf_inBothHalves, not_not_bits]

/-- Settles O31: both halves are written, so every half of the counter has its governor among them. -/
theorem controlWordWrite : Obligations.ControlWordWrite := by
  intro s v hb hl
  have fields : ∀ k, halfOf k (v &&& ~~~ reservedBits s.params .control) =
      halfOf k v &&& fieldsMask 16 s.params.ctrlLayout.fields := fun k => by rw [halfOf_and, halfOf_not, halfOf_unreserved_control]
  have both : ∀ k, k ∈ [Half.low, .high] := fun k => by cases k <;> simp
  refine ⟨writeControl [.low, .high] (v &&& ~~~ reservedBits s.params .control) s.silent, transact32_write hb .control v,
    fun k => ?_, fun k => ?_, rfl, rfl, (silent_frame s).trans (writeControl_frame _ _ _)⟩
  · rw [writeControl_half, if_pos (both k), fields, silent_params]
  · rw [writeControl_count, fields, silent_params, flag_and_fields hl]
    simp only [both, true_and]
    rfl

/-- A counter half runs as before a write of ControlRegisters among which its own is not (R32, R171). -/
theorem writeControl_runs {s : State} {ks : List Half} {v : Word} {k : Half} (hk : s.governor k ∉ ks)
    (hv : halfOf (s.governor k) v = halfOf (s.governor k) (s.regs.get .control)) : (writeControl ks v s).runs k = s.runs k := by
  have kept : (writeControl ks v s).controlOf (s.governor k) = s.controlOf (s.governor k) :=
    (writeControl_half ks v s _).trans ((if_neg hk).trans hv)
  have governor : (writeControl ks v s).governor k = s.governor k := rfl
  simp only [State.runs, State.halted, State.paused, governor, kept, writeControl_params]

/-- `count` after a write of one ControlRegister: a half that another one governs is neither cleared nor stopped (R171). -/
theorem writeControl_one_count {s : State} {j : Half} {w : Word}
    (kept : ∀ k, k ≠ j → halfOf k w = halfOf k (s.regs.get .control)) (k : Half) :
    halfOf k ((writeControl [j] w s).regs.get .count) =
      if s.governor k = j ∧ fieldFlag s.params.ctrlLayout.clearCounter (halfOf j w) = true then 0
      else if s.governor k = j ∧ s.runs k = true ∧ (writeControl [j] w s).runs k = false then halfOf k (Config.freeWord s.draws)
      else halfOf k (s.regs.get .count) := by
  rw [writeControl_count]
  by_cases hg : s.governor k = j
  · simp only [hg, List.mem_singleton, true_and]
  · have runs : (writeControl [j] w s).runs k = s.runs k := writeControl_runs (by simpa using hg) (kept _ hg)
    simp [hg, runs]

/-- A write of one half of `control` is the write effect of a word whose other half is kept (R143). -/
theorem transact16_control {s : State} (hb : Bound s) (j : Half) (v : HalfWord) :
    ∃ w, transact16 .control j (.write v) s = .next (writeControl [j] w s.silent) ∧
      halfOf j w = v &&& fieldsMask 16 s.params.ctrlLayout.fields ∧
      ∀ k, k ≠ j → halfOf k w = halfOf k (s.regs.get .control) := by
  refine ⟨_, transact16_write hb .control j v, ?_, fun k => halfOf_withHalf_other _ _ _ _⟩
  rw [halfOf_withHalf_same, halfOf_unreserved_control]

/-- Settles O32: the word written keeps the other half, and so the counter halves that it governs. -/
theorem controlHalfWrites : Obligations.ControlHalfWrites := by
  intro s j v hb hl
  obtain ⟨w, answer, written, kept⟩ := transact16_control hb j v
  refine ⟨writeControl [j] w s.silent, by cases j <;> exact answer, ?_, ?_, fun k => ?_, rfl, rfl,
    (silent_frame s).trans (writeControl_frame _ _ _)⟩
  · rw [writeControl_half, if_pos (by simp), written, silent_params]
  · rw [writeControl_half, if_neg (by simp [otherHalf_ne]), kept _ (otherHalf_ne j)]
  · rw [writeControl_one_count (s := s.silent) kept, written, silent_params, flag_and_fields hl]
    rfl

/-! ## Count, state and output -/

/-- The halves of `count` that a read shows as they are stored: those that stand (R176). -/
def standing (s : State) (k : Half) : HalfWord := if s.runs k then 0 else ~~~ 0

/-- The halves of `count` that a read draws are the others (R176). -/
theorem drawnBits_count (s : State) : drawnBits s .count = ~~~ joinHalves (standing s .low) (standing s .high) := by
  refine word_ext_halves _ _ fun k => ?_
  have mask : drawnBits s .count = halvesMask s.runs := zero_or_bits _
  have join : halfOf k (joinHalves (standing s .low) (standing s .high)) = standing s k := by cases k <;> simp
  rw [mask, halfOf_halvesMask, halfOf_not, join, standing]
  cases s.runs k <;> rfl

/-- No bit of `count` reads as 0. -/
theorem and_not_zeroBits_count (p : Params) (x : Word) : x &&& ~~~ zeroBits p .count = x := and_ones x

/-- Settles O33: a read of `count` draws the halves that run and shows the others. -/
theorem countReads : Obligations.CountReads := by
  have drawn : ∀ s, drawnBits s .count &&& ~~~ zeroBits s.params .count = ~~~ joinHalves (standing s .low) (standing s .high) :=
    fun s => by rw [and_not_zeroBits_count, drawnBits_count]
  have shown : ∀ s, ~~~ drawnBits s .count &&& ~~~ zeroBits s.params .count = joinHalves (standing s .low) (standing s .high) :=
    fun s => by rw [and_not_zeroBits_count, drawnBits_count, not_not_bits]
  exact ⟨wordRead_of (fun _ => rfl) (fun _ => .inr rfl) shown drawn,
    halfRead_of (fun _ => rfl) rfl (fun s => by rw [shown, halfOf_low_join]; rfl)
      (fun s => by rw [drawn, halfOf_not, halfOf_low_join]; rfl),
    halfRead_of (fun _ => rfl) rfl (fun s => by rw [shown, halfOf_high_join]; rfl)
      (fun s => by rw [drawn, halfOf_not, halfOf_high_join]; rfl)⟩

section
variable {r : Reg} {k : Half} (hr : r = .count ∨ r = .state)
include hr

/-- A 32-bit write of `count` or `state` while both halves are halted (R176, R177). -/
theorem wordWrite_counter {mk : Access32 → Instr} {reserved kept : Word}
    (he : ∀ s v, exec (mk (.write v)) s = transact32 r (.write v) s) (hp : ∀ p, reservedBits p r = reserved)
    (hk : ~~~ reserved = kept) : WordWrite mk r bothHalted fun _ => kept :=
  wordWrite_of he (by rcases hr with rfl | rfl <;> simp)
    (fun s _ hs => (commit_counter hr).trans (storeHalted_of_halted (s := s.silent) (hs.all _))) fun p => by rw [hp, hk]

/-- A 16-bit write of `count` or `state` while its half is halted (R176, R177). -/
theorem halfWrite_counter {mk : Access16 → Instr} {reserved : Word} {kept : HalfWord}
    (he : ∀ s v, exec (mk (.write v)) s = transact16 r k (.write v) s) (hp : ∀ p, reservedBits p r = reserved)
    (hk : ~~~ halfOf k reserved = kept) : HalfWrite mk r k (fun s => s.halted k = true) fun _ => kept :=
  halfWrite_of he (by rcases hr with rfl | rfl <;> simp)
    (fun s _ hs => (commit_counter hr).trans (storeHalted_of_halted (s := s.silent) (List.forall_mem_singleton.2 hs)))
    fun p => by rw [hp, hk]

/-- A 32-bit write of `count` or `state` is refused while one half is not halted (R176, R177). -/
theorem transact32_counter_running {s : State} (hb : Bound s) (h : s.halted k = false) (v : Word) :
    transact32 r (.write v) s = .refused .counterRunning := by
  rw [transact32_write hb, commit_counter hr]
  exact storeHalted_of_running ⟨k, by cases k <;> simp, h⟩

/-- A 16-bit write of `count` or `state` is refused while its half is not halted (R176, R177). -/
theorem transact16_counter_running {s : State} (hb : Bound s) (h : s.halted k = false) (v : HalfWord) :
    transact16 r k (.write v) s = .refused .counterRunning := by
  rw [transact16_write hb, commit_counter hr]
  exact storeHalted_of_running ⟨k, by simp, h⟩

end

/-- Settles O34: the halves written are those that must be halted. -/
theorem countAndStateWrites : Obligations.CountAndStateWrites := by
  refine ⟨?_, ?_, ?_, ?_, ?_, ?_, fun s v x hb => ⟨fun h => ⟨?_, ?_⟩, fun h => ⟨?_, ?_⟩, fun h => ⟨?_, ?_⟩⟩⟩
  · exact wordWrite_counter (.inl rfl) (fun _ _ => rfl) (fun _ => rfl) rfl
  iterate 2 exact halfWrite_counter (.inl rfl) (fun _ _ => rfl) (fun _ => rfl) (by decide)
  · exact wordWrite_counter (.inr rfl) (fun _ _ => rfl) (fun _ => rfl) (by decide)
  iterate 2 exact halfWrite_counter (.inr rfl) (fun _ _ => rfl) (fun _ => rfl) (by decide)
  · exact transact16_counter_running (.inl rfl) hb h x
  · exact transact16_counter_running (.inr rfl) hb h x
  · exact transact16_counter_running (.inl rfl) hb h x
  · exact transact16_counter_running (.inr rfl) hb h x
  · exact h.elim (transact32_counter_running (.inl rfl) hb · v) (transact32_counter_running (.inl rfl) hb · v)
  · exact h.elim (transact32_counter_running (.inr rfl) hb · v) (transact32_counter_running (.inr rfl) hb · v)

/-- Settles O35: the pins wait for every half in use. -/
theorem outputWrite : Obligations.OutputWrite := by
  refine ⟨wordWrite_of (fun _ _ => rfl) (by simp) (fun s v hs => storeHalted_of_halted (s := s.silent) hs) fun _ => ?_,
    fun s v k hb hk h => ?_⟩
  · show ~~~ aboveSlots = _
    decide
  · exact (transact32_write hb .output v).trans (storeHalted_of_running (s := s.silent) ⟨k, hk, h⟩)

/-! ## The request words -/

/-- A request word after a write of it: bits 15:0 are the value's, bits 31:30 are kept (R130, R183, log entry 33). -/
theorem merge_unreserved_request (old v : Word) :
    merge 0x3FFFFFFF old (v &&& ~~~ 0x3FFF0000) = (v &&& 0x0000FFFF) ||| (old &&& 0xC0000000) := by
  rw [merge_request, BitVec.and_assoc]
  rfl

/-- A 32-bit write of a request word (R183). -/
theorem transact32_request {r : Reg} (hr : r = .dmaRequest0 ∨ r = .dmaRequest1) {s : State} (hb : Bound s) (v : Word) :
    ∃ t, transact32 r (.write v) s = .next t ∧ t.regs.get r = (v &&& 0x0000FFFF) ||| (s.regs.get r &&& 0xC0000000) ∧
      t.result = .nothing ∧ t.draws = s.draws ∧ t.between = s.between ∧ Frame [r] s t := by
  have reserved : reservedBits s.params r = 0x3FFF0000 := by rcases hr with rfl | rfl <;> rfl
  rw [← merge_unreserved_request, ← reserved]
  exact transact32_stores hb (commit_request hr)

/-- Settles O36: the two request words have one write effect. -/
theorem dmaWordWrites : Obligations.DmaWordWrites :=
  fun _ v hb => ⟨transact32_request (.inl rfl) hb v, transact32_request (.inr rfl) hb v⟩

/-! ## The status words -/

/-- Clearing in a word its own bits of a mask clears them all. -/
theorem and_not_and_self {n : Nat} (x m : BitVec n) : x &&& ~~~ (x &&& m) = x &&& ~~~ m := by
  ext i hi
  simp only [BitVec.getElem_and, BitVec.getElem_not]
  cases x[i] <;> simp

/-- The status words are two (R42, R44). -/
theorem isStatus_iff {r : Reg} : isStatus r = true ↔ r = .eventOccurred ∨ r = .conflictOccurred := by simp [isStatus]

/-- A read of a status word changes at most the word itself (R312). -/
theorem read32_status_frame {r : Reg} (hr : isStatus r = true) {hd : Handle} {s : State} : Frame [r] s (read32 hd r s) := by
  have effect := readEffect_frame r s
  rw [hr] at effect
  exact ⟨⟨rfl, rfl, rfl, rfl, rfl⟩, ⟨rfl, rfl⟩, effect.words⟩

section
variable {r : Reg} (hr : r = .eventOccurred ∨ r = .conflictOccurred) (s : State)
include hr

/-- A read of a status word returns the flags as they are stored and a draw above them (R185, R187). -/
theorem readValue_status : readValue r s = merge (~~~ 0x0000FFFF) (s.regs.get r) (Config.freeWord s.draws) := by
  have noZero : zeroBits s.params r = 0 := by rcases hr with rfl | rfl <;> rfl
  rw [readValue, drawnBits_status hr, noZero, and_ones, drawInto_eq_merge]
  rfl

/-- The flags a read of a status word returns (R185, R187). -/
theorem readValue_flags : readValue r s &&& 0x0000FFFF = s.regs.get r &&& 0x0000FFFF := by
  rw [readValue_status hr, merge_and_outside]

/-- The bits above the flags that a read of a status word returns (R130). -/
theorem readValue_aboveFlags : readValue r s &&& 0xFFFF0000 = Config.freeWord s.draws &&& 0xFFFF0000 := by
  rw [readValue_status hr]
  exact merge_and_inside (~~~ 0x0000FFFF) _ _

/-- What a read of a status word leaves of it, under each rule (R185, R312): every flag is among those it returned. -/
theorem readEffect_status : (readEffect r s).regs.get r = match s.params.flagClearRule with
    | .writeOneToClear => s.regs.get r
    | .readClears => s.regs.get r &&& 0xFFFF0000 := by
  have stored : r ≠ .input := by rcases hr with rfl | rfl <;> simp
  cases rule : s.params.flagClearRule with
  | writeOneToClear => rw [readEffect_regs r s (.inr rule)]
  | readClears =>
    have effect : (readEffect r s).regs = s.regs.set r (clearReturned (s.regs.get r) (readValue r s)) := by
      simp [readEffect, isStatus_iff.2 hr, rule]
    rw [effect, get_set_same _ _ _ stored, clearReturned, readValue_flags hr]
    exact and_not_and_self _ _

/-- A write of ones has no use for the reserved bits of its value (R185). -/
theorem clearByOnes_unreserved (x v : Word) : clearByOnes x (v &&& ~~~ reservedBits s.params r) = x &&& ~~~ (v &&& 0x0000FFFF) := by
  rw [clearByOnes, and_not_and]
  rcases hr with rfl | rfl
  · show aboveSlots &&& _ = _
    decide
  · show 0x3FFF0000 &&& _ = _
    decide

end

/-- Settles O37: both status words are read and written alike. -/
theorem statusWords : Obligations.StatusWords := by
  intro s mk r hb h
  have answer : ∀ a, exec (mk a) s = transact32 r a s := fun a => by rcases h with ⟨rfl, rfl⟩ | ⟨rfl, rfl⟩ <;> rfl
  have hr : r = .eventOccurred ∨ r = .conflictOccurred := h.imp And.right And.right
  simp only [answer]
  refine ⟨⟨read32 hb.handle r s, readValue r s, withHandle_of_bound hb _, rfl, readValue_flags hr s, readValue_aboveFlags hr s,
    readEffect_status hr s, rfl, rfl, read32_status_frame (isStatus_iff.2 hr)⟩, fun rule v => ?clears, fun rule v => ?refused⟩
  case clears =>
    rw [← clearByOnes_unreserved hr s]
    exact transact32_stores hb ((commit_status hr).trans (storeFlags_of_writeOneToClear (s := s.silent) rule))
  case refused =>
    rw [transact32_write hb, commit_status hr]
    exact storeFlags_of_readClears (s := s.silent) rule

end Sys2Proof.Machine

/-! PROOFS. The family 42_slot_arrays: `SLOT_ADDR`, the access its address decodes to, `CONFIGURE_EVENT`, and the writes of a
match/capture slot in capture mode. -/

namespace Sys2Proof.Machine

/-! ## The address of a slot -/

/-- Every slot lies in the map (R8, R210). -/
theorem slotByteOffset_lt (arr : SlotArray) {i : Nat} (hi : i < 16) (sel : SlotSelect) : slotByteOffset arr i sel < 0x580 := by
  have stride : arrayOffset arr + arrayStride arr * 15 ≤ 0x578 := by cases arr <;> decide
  have select : selectOffset sel ≤ 4 := by cases sel <;> decide
  have index : arrayStride arr * i ≤ arrayStride arr * 15 := Nat.mul_le_mul_left _ (by omega)
  unfold slotByteOffset
  omega

/-- The address of an offset in the map is the base plus the offset: the map does not wrap (R71, R283). -/
theorem Handle.toNat_address {h : Handle} (hk : baseOk h.base = true) {off : Nat} (hl : off < 0x580) :
    (h.address off).toNat = h.base.toNat + off := by
  have fits : h.base.toNat + 0x580 ≤ 2 ^ 32 := of_decide_eq_true (Bool.and_eq_true_iff.1 hk).2
  rw [Handle.address, BitVec.toNat_add, BitVec.toNat_ofNat]
  omega

section
variable {s : State} (hb : Bound s) {arr : SlotArray} {sel : SlotSelect} {i : Nat}
include hb

/-- `SLOT_ADDR` of a declared selector returns the address of the slot and changes nothing else (R210). -/
theorem exec_slotAddr (hd : slotDeclares arr sel = true) (hi : i < 16) :
    exec (.slotAddr arr i sel) s = .next { s with result := .address (hb.handle.address (slotByteOffset arr i sel)) } :=
  (withHandle_of_bound hb _).trans ((if_pos hi).trans (if_pos hd))

/-- That address as a number (R71, R210). -/
theorem toNat_slotAddr {base : Word} (bound : s.base = some base) (hk : baseOk base = true) (hi : i < 16) :
    (hb.handle.address (slotByteOffset arr i sel)).toNat = base.toNat + slotByteOffset arr i sel := by
  have same := handle_base hb bound
  rw [Handle.toNat_address (same ▸ hk) (slotByteOffset_lt arr hi sel), same]

/-- An index past 15 is refused (R210). -/
theorem exec_slotAddr_outOfRange (hi : 16 ≤ i) : exec (.slotAddr arr i sel) s = .refused .slotIndexOutOfRange :=
  (withHandle_of_bound hb _).trans (if_neg (by omega))

/-- A selector the array does not declare is refused (R210). -/
theorem exec_slotAddr_undeclared (hd : slotDeclares arr sel = false) (hi : i < 16) :
    exec (.slotAddr arr i sel) s = .refused .undeclaredSelector :=
  (withHandle_of_bound hb _).trans ((if_pos hi).trans (if_neg (by simp [hd])))

end

/-- Settles O48: the offset is that of the table, and the map does not wrap. -/
theorem slotAddress : Obligations.SlotAddress := by
  unfold Obligations.SlotAddress
  intro row wordOff
  have table : ∀ arr i sel, slotByteOffset arr i sel = (row arr).1 + (row arr).2 * i + wordOff sel := by
    intro arr i sel
    have array : row arr = (arrayOffset arr, arrayStride arr) := by cases arr <;> rfl
    have select : wordOff sel = selectOffset sel := by cases sel <;> rfl
    rw [array, select, slotByteOffset]
  refine ⟨fun s arr i sel hb => withHandle_of_not hb _, fun s base arr sel hb bound hk =>
    ⟨fun hd => ⟨fun i hi => ⟨_, exec_slotAddr hb hd hi, ?address⟩,
      fun i hi => ⟨_, _, exec_slotAddr hb hd (by omega), exec_slotAddr hb hd (by omega), ?apart⟩⟩,
    fun i => exec_slotAddr_outOfRange hb, fun hd i => exec_slotAddr_undeclared hb hd⟩⟩
  case address =>
    rw [toNat_slotAddr hb bound hk hi, table]
    omega
  case apart =>
    rw [toNat_slotAddr hb bound hk (by omega), toNat_slotAddr hb bound hk (by omega), table, table, Nat.mul_succ]
    omega

/-! ## The access at that address -/

/-- The code of a declared access to a slot is that of its width and its offset (R104, R210). -/
theorem slotView_code {arr : SlotArray} {sel : SlotSelect} (i : Slot) (hd : slotDeclares arr sel = true) :
    accessCode (decide ((slotView i arr sel).bits = 16)) (slotByteOffset arr i.val sel) = (slotView i arr sel).code := by
  revert i hd
  cases arr <;> cases sel <;> decide

/-- A presented read at the code of a view decodes to a read of the view (R100, R102). -/
theorem decode_read_at {v : View} {h : Bool} {off : Nat} (hl : off < 0x1000) (hv : accessCode h off = v.code) :
    decode (transactionWord false h off 0) = .ok (transactionOf v false 0) := by
  obtain ⟨h15, h14, h13, hc⟩ := transactionWord_code (h := h) false 0 hl
  have code := transaction_code h15 h14 (hv.symm.trans hc.symm)
  rw [h13] at code
  have presented : transactionWord false h off 0 = transactionOp v false 0 := by
    rw [transactionOp, code]
    rfl
  rw [presented]
  exact decode_transactionOp ⟨nofun, rfl⟩

/-- Settles O49: the offset of a slot is the offset in the code of its view. -/
theorem slotAddressDecodes : Obligations.SlotAddressDecodes := by
  intro s base arr sel i hb bound hk hd
  have inMap : slotByteOffset arr i sel < 0x580 := slotByteOffset_lt arr i.isLt sel
  refine ⟨_, exec_slotAddr hb hd i.isLt, ?_⟩
  rw [toNat_slotAddr hb bound hk i.isLt, Nat.add_sub_cancel_left]
  exact decode_read_at (by omega) (slotView_code i hd)

/-! ## A control word from its fields -/

/-- A word with values inserted one after another (R112, R219). -/
def insertFields (w : Word) (ps : List (SubField × Byte)) : Word :=
  ps.foldl (fun w p => insert w p.1.off p.1.width (p.2.setWidth 32)) w

/-- The control word of `CONFIGURE_EVENT` has its fields inserted in zero (R219). -/
theorem eventWord_eq (l : EvCtrlLayout) (fields : EventFields) : eventWord l fields = insertFields 0 (eventFieldList l fields) := rfl

/-- A field apart from those inserted is kept. -/
theorem fieldValue_insertFields_other {f : SubField} {ps : List (SubField × Byte)} (w : Word)
    (apart : ∀ p ∈ ps, disjointFields f p.1 = true) : fieldValue f (insertFields w ps) = fieldValue f w := by
  induction ps generalizing w with
  | nil => rfl
  | cons p ps ih =>
    have head : f.off + f.width ≤ p.1.off ∨ p.1.off + p.1.width ≤ f.off := by
      simpa [disjointFields] using apart p List.mem_cons_self
    refine (ih _ fun q hq => apart q (List.mem_cons_of_mem p hq)).trans ?_
    rw [fieldValue, extract_insert_disjoint _ _ _ _ _ _ head.symm, fieldValue]

/-- Every field inserted holds its value: the later ones lie apart from it (R110, R112). -/
theorem fieldValue_insertFields {ps : List (SubField × Byte)} (w : Word) (legal : fieldsLegal 32 (ps.map Prod.fst) = true)
    (fits : ∀ p ∈ ps, p.2.toNat < 2 ^ p.1.width) : ∀ p ∈ ps, fieldValue p.1 (insertFields w ps) = p.2.toNat := by
  induction ps generalizing w with
  | nil => simp
  | cons q ps ih =>
    simp only [List.map_cons, fieldsLegal, Bool.and_eq_true, decide_eq_true_eq, List.all_map, List.all_eq_true] at legal
    obtain ⟨⟨⟨-, inWord⟩, apart⟩, rest⟩ := legal
    intro p hp
    rcases List.mem_cons.1 hp with rfl | hp
    · have value : (p.2.setWidth 32).toNat = p.2.toNat := BitVec.toNat_setWidth_of_le (by decide)
      refine (fieldValue_insertFields_other _ apart).trans ?_
      rw [fieldValue, extract_insert _ _ _ _ inWord (value ▸ fits p hp), value]
    · exact ih _ rest (fun r hr => fits r (List.mem_cons_of_mem q hr)) p hp

/-- Clearing the bits outside the fields of a list changes none of them. -/
theorem fieldValue_and_fieldsMask {n : Nat} {f : SubField} {fs : List SubField} (hf : f ∈ fs) (v : BitVec n) :
    fieldValue f (v &&& fieldsMask n fs) = fieldValue f v := by
  refine congrArg BitVec.toNat (extract_congr fun b h1 h2 => ?_)
  have covered : (fs.any fun f => decide (f.off ≤ b) && decide (b < f.off + f.width)) = true :=
    List.any_eq_true.2 ⟨f, hf, by simp [h1, h2]⟩
  rw [BitVec.getLsbD_and, fieldsMask_getLsbD, covered, Bool.and_true]
  by_cases hb : b < n
  · simp [hb]
  · rw [BitVec.getLsbD_of_ge v b (by omega), Bool.false_and]

/-- A legal event control layout: disjoint fields in the word (R110, R118). -/
theorem legal_evCtrl {p : Params} (h : p.legal = true) : fieldsLegal 32 p.evCtrlLayout.fields = true := by
  unfold Params.legal at h
  simp only [Bool.and_eq_true] at h
  tauto

/-- The values of `CONFIGURE_EVENT` are those of the fields of the layout, in its order (R118). -/
theorem eventFieldList_fields (l : EvCtrlLayout) (fields : EventFields) : (eventFieldList l fields).map Prod.fst = l.fields := rfl

/-- The control word holds every given field (R219). -/
theorem fieldValue_eventWord {p : Params} (h : p.legal = true) {fields : EventFields}
    (fits : ∀ q ∈ eventFieldList p.evCtrlLayout fields, q.2.toNat < 2 ^ q.1.width) :
    ∀ q ∈ eventFieldList p.evCtrlLayout fields,
      fieldValue q.1 (eventWord p.evCtrlLayout fields &&& fieldsMask 32 p.evCtrlLayout.fields) = q.2.toNat := by
  intro q hq
  have named : q.1 ∈ p.evCtrlLayout.fields := eventFieldList_fields p.evCtrlLayout fields ▸ List.mem_map_of_mem hq
  have legal : fieldsLegal 32 ((eventFieldList p.evCtrlLayout fields).map Prod.fst) = true := legal_evCtrl h
  rw [fieldValue_and_fieldsMask named, eventWord_eq]
  exact fieldValue_insertFields 0 legal fits q hq

/-! ## The two transactions of `CONFIGURE_EVENT` -/

/-- The state after a write of the gate word of an event (R215). -/
def afterGate (i : Slot) (gate : Word) (s : State) : State :=
  store (.eventEnabledInState i) (gate &&& BitVec.ofNat 32 (2 ^ s.params.numStates - 1)) s.silent

/-- The state after a write of the control word of an event (R216). -/
def afterEventControl (i : Slot) (word : Word) (s : State) : State :=
  store (.eventControl i) (word &&& fieldsMask 32 s.params.evCtrlLayout.fields) s.silent

/-- A write of the gate word changes nothing else. -/
theorem afterGate_frame (i : Slot) (gate : Word) (s : State) : Frame [.eventEnabledInState i] s (afterGate i gate s) :=
  (silent_frame s).trans (store_frame _ _ _)

/-- A write of the control word changes nothing else. -/
theorem afterEventControl_frame (i : Slot) (word : Word) (s : State) : Frame [.eventControl i] s (afterEventControl i word s) :=
  (silent_frame s).trans (store_frame _ _ _)

/-- The gate word holds the state bits of the value (R215). -/
theorem afterGate_gate (i : Slot) (gate : Word) (s : State) :
    (afterGate i gate s).regs.get (.eventEnabledInState i) = gate &&& BitVec.ofNat 32 (2 ^ s.params.numStates - 1) := by
  rw [afterGate, store_regs, get_set_same _ _ _ (by simp)]

/-- The control word holds the fields of the value (R216). -/
theorem afterEventControl_control (i : Slot) (word : Word) (s : State) :
    (afterEventControl i word s).regs.get (.eventControl i) = word &&& fieldsMask 32 s.params.evCtrlLayout.fields := by
  rw [afterEventControl, store_regs, get_set_same _ _ _ (by simp)]

/-- The state at the second transaction of `CONFIGURE_EVENT`: the evaluations have run after the first (R86). -/
def beforeEventControl (i : Slot) (gate : Word) (s : State) : State := runBetween (afterGate i gate s)

/-- Until then the lifecycle, the parameters and the waiting operations are the same. -/
theorem beforeEventControl_launch (i : Slot) (gate : Word) (s : State) : SameLaunch s (beforeEventControl i gate s) :=
  (afterGate_frame i gate s).launch.trans (runBetween_launch _)

/-- No evaluation changes the gate (R25). -/
theorem beforeEventControl_gate (i : Slot) (gate : Word) (s : State) :
    (beforeEventControl i gate s).regs.get (.eventEnabledInState i) = gate &&& BitVec.ofNat 32 (2 ^ s.params.numStates - 1) :=
  (runBetween_words (afterGate i gate s) _ (softwareOwned_kept rfl)).trans (afterGate_gate i gate s)

/-- With no evaluation scheduled the second transaction meets the state the first one leaves. -/
theorem beforeEventControl_of_nil {s : State} (h : s.between = []) (i : Slot) (gate : Word) :
    beforeEventControl i gate s = afterGate i gate s :=
  runBetween_of_nil (s := afterGate i gate s) h

section
variable {s : State} (hb : Bound s)
include hb

/-- The gate word can be written in every state of the bound machine (R141, R215). -/
theorem exec_writeGate (i : Slot) (gate : Word) : exec (.eventEnabledInState i (.write gate)) s = .next (afterGate i gate s) := by
  rw [afterGate, ← not_not_bits (BitVec.ofNat 32 (2 ^ s.params.numStates - 1))]
  exact transact32_write hb (.eventEnabledInState i) gate

/-- So can the control word (R141, R216). -/
theorem exec_writeEventControl (i : Slot) (word : Word) :
    exec (.eventControl i (.write word)) s = .next (afterEventControl i word s) := by
  rw [afterEventControl, ← not_not_bits (fieldsMask 32 s.params.evCtrlLayout.fields)]
  exact transact32_write hb (.eventControl i) word

/-- `CONFIGURE_EVENT` is a write of the gate word and then, in the state the evaluations leave, one of the control word (R86,
R219). -/
theorem exec_configureEvent {i : Slot} {fields : EventFields} {gate : Word}
    (fits : ∀ p ∈ eventFieldList s.params.evCtrlLayout fields, p.2.toNat < 2 ^ p.1.width) :
    exec (.configureEvent i.val fields gate) s =
      exec (.eventControl i (.write (eventWord s.params.evCtrlLayout fields))) (beforeEventControl i gate s) := by
  have fit : eventFieldsFit s.params.evCtrlLayout fields = true := List.all_eq_true.2 fun p hp => decide_eq_true (fits p hp)
  have first : write32 hb.handle (.eventEnabledInState i) gate s = .next (afterGate i gate s) :=
    (withHandle_of_bound hb _).symm.trans (exec_writeGate hb i gate)
  have second : Bound (beforeEventControl i gate s) := hb.of_launch (beforeEventControl_launch i gate s)
  show execConfigureEvent i.val fields gate s = _
  rw [execConfigureEvent, withHandle_of_bound hb, dif_pos i.isLt, if_pos fit, first]
  exact (transact32_write second (.eventControl i) _).symm

end

/-- Settles O50: the second transaction meets the new gate, and its word holds every field. -/
theorem configureEvent : Obligations.ConfigureEvent := by
  refine ⟨fun s i fields gate hb hl fits => ?completes, fun s n fields gate hb hn => ?refused⟩
  case refused => exact (withHandle_of_bound hb _).trans (dif_neg (by omega))
  case completes =>
    have met := beforeEventControl_launch i gate s
    have second := exec_writeEventControl (hb.of_launch met) i (eventWord s.params.evCtrlLayout fields)
    have written := afterEventControl_control i (eventWord s.params.evCtrlLayout fields) (beforeEventControl i gate s)
    have rest := afterEventControl_frame i (eventWord s.params.evCtrlLayout fields) (beforeEventControl i gate s)
    rw [met.params] at written
    refine ⟨afterGate i gate s, _, _, exec_writeGate hb i gate, (exec_configureEvent hb fits).trans second, second,
      afterGate_gate i gate s, (afterGate_frame i gate s).words _ (by simp), rfl,
      (rest.words _ (by simp)).trans (beforeEventControl_gate i gate s), ?holds, ?clear, rfl, rfl, met.trans rest.launch,
      fun empty => ?alone⟩
    case holds =>
      rw [written]
      exact fieldValue_eventWord hl fits
    case clear =>
      rw [written, BitVec.and_assoc, BitVec.and_not_self]
      exact BitVec.and_zero
    case alone =>
      rw [beforeEventControl_of_nil empty] at rest ⊢
      exact ⟨rfl, (afterGate_frame i gate s).trans rest⟩

/-! ## Match/capture slots in capture mode -/

/-- In capture mode the write effect of a slot is a refusal, whatever halves are written (R211). -/
theorem commit_slot_of_capturing {s : State} (h : s.params.slotMode = .capturing) (i : Slot) (ks : List Half) (v : Word) :
    commit (.matchCapture i) ks v s.silent = .refused .captureModeWrite :=
  storeSlot_of_capturing (s := s.silent) h

/-- Settles O28: each of the five forms ends in the write effect of the slot. -/
theorem captureModeRefusesWrites : Obligations.CaptureModeRefusesWrites := by
  intro s i v x hb hc
  have half : ∀ k, transact16 (.matchCapture i) k (.write x) s = .refused .captureModeWrite := fun k =>
    (transact16_write hb _ k x).trans (commit_slot_of_capturing hc i _ _)
  exact ⟨(transact32_write hb _ v).trans (commit_slot_of_capturing hc i _ _), half .low, half .high, half .low, half .high⟩

end Sys2Proof.Machine

/-! PROOFS. The family 43_event_semantics: which events fire, and what the firing events do to the flags, the requests, the states,
the counters, the outputs and the slots. -/

namespace Sys2Proof.Machine

/-! ## An evaluation by the rules -/

/-- With no reserved value in force a completed `SCT_EVAL` is an evaluation by the rules on its firing set (R131, R240). -/
theorem sctEval_rules {s t : State} {d : EvalDraws} (h : exec (.sctEval d) s = .next t) (hn : NoReservedValue s) :
    t = (evaluateRules d (s.firingSet d) s).silent := by
  obtain ⟨-, answer⟩ := whenBound_next h
  rw [evaluate_rules hn] at answer
  exact (Host.Outcome.next.inj answer).symm

section
variable {s t : State} {d : EvalDraws} (h : exec (.sctEval d) s = .next t) (hn : NoReservedValue s)
include h hn

/-- The events that fired are those of the firing set (R246). -/
theorem fired_iff_mem {e : Slot} : t.fired e ↔ e ∈ s.firingSet d := by
  rw [sctEval_rules h hn]
  exact fired_evaluateRules d _ s e

/-- The events that fired are those whose gate and predicate hold (R240, R246). -/
theorem fired_iff_fires {e : Slot} : t.fired e ↔ s.fires d e = true := (fired_iff_mem h hn).trans (mem_firingSet s d e)

/-- An event that fired acts through a table exactly when the firing set does (R248). -/
theorem tableHit_iff_hits {w : Word} {off : Nat} : t.tableHit w off ↔ hits (s.firingSet d) w off = true := by
  rw [sctEval_rules h hn]
  exact tableHit_evaluateRules d _ s w off

end

/-! ## Which events fire -/

/-- In a legal layout the fields that decide whether an event fires have the widths of R118. -/
theorem legal_evCtrl_widths {p : Params} (h : p.legal = true) :
    p.evCtrlLayout.matchRegister.width = 4 ∧ p.evCtrlLayout.counterHalf.width = 1 ∧ p.evCtrlLayout.ioIsOutput.width = 1 ∧
      p.evCtrlLayout.ioPin.width = 4 := by
  unfold Params.legal at h
  simp only [Bool.and_eq_true, decide_eq_true_eq, EvCtrlLayout.fields, List.map_cons, List.cons.injEq] at h
  tauto

/-- The value of a field fits its width (R111). -/
theorem fieldValue_lt (f : SubField) (v : Word) (h : f.width ≤ 32) : fieldValue f v < 2 ^ f.width := by
  rw [fieldValue, toNat_extract v f.off f.width h]
  exact Nat.mod_lt _ (Nat.two_pow_pos _)

/-- A one-bit field is set where its value is 1 (R111). -/
theorem fieldFlag_eq_value (f : SubField) (v : Word) (h : f.width = 1) : fieldFlag f v = decide (fieldValue f v = 1) := by
  rw [fieldValue, toNat_extract v f.off f.width (by omega), h, fieldFlag, BitVec.getLsbD,
    Nat.testBit_eq_decide_div_mod_eq, Nat.pow_one]

/-- The state id of a half is the low five bits of its half of `state` (R35). -/
theorem stateId_eq_half (s : State) (k : Half) : (s.stateId k).toNat = (extract (halfOf k (s.regs.get .state)) 0 5).toNat := by
  rw [toNat_extract _ _ _ (by omega), State.stateId, Regs.get]
  cases k <;> simp only [halfOf, halfOff, BitVec.extractLsb'_toNat] <;> omega

/-- The I/O condition by its number (R120, R244). -/
theorem ioHolds_iff (c : Nat) (old level : Bool) :
    ioHolds c old level = true ↔
      match c with
      | 0 => level = false
      | 1 => old = false ∧ level = true
      | 2 => old = true ∧ level = false
      | _ => level = true := by
  match c with
  | 0 => simp [ioHolds]
  | 1 => simp [ioHolds]
  | 2 => simp [ioHolds]
  | _ + 3 => exact Iff.rfl

/-- The combination of two conditions by its number (R121, R245). -/
theorem combine_iff (c : Nat) {m i : Bool} {isMatch io : Prop} (hm : m = true ↔ isMatch) (hi : i = true ↔ io) :
    combine c m i = true ↔
      match c with
      | 0 => isMatch ∨ io
      | 1 => isMatch
      | 2 => io
      | _ => isMatch ∧ io := by
  match c with
  | 0 => exact (Bool.or_eq_true_iff ..).trans (or_congr hm hi)
  | 1 => exact hm
  | 2 => exact hi
  | _ + 3 => exact Bool.and_eq_true_iff.trans (and_congr hm hi)

/-- A field of width 4 of an event record is below 16 (R118). -/
theorem eventField_lt {s : State} {f : EvCtrlLayout → SubField} (h : (f s.params.evCtrlLayout).width = 4) (e : Slot) :
    s.eventField f e < 16 :=
  (fieldValue_lt _ _ (by omega)).trans_eq (congrArg (2 ^ ·) h)

section
variable {s : State} (hl : s.params.legal = true) (d : EvalDraws) (e : Slot)

/-- An event fires where its gate bit is set, its half is not halted and its conditions combine (R240, R241, R246). -/
theorem fires_iff : s.fires d e = true ↔
    (s.regs.get (.eventEnabledInState e)).getLsbD (s.stateId (s.eventHalf e)).toNat = true ∧ s.halted (s.eventHalf e) = false ∧
      combine (s.eventField EvCtrlLayout.condition e) (s.matchHolds d e) (s.ioCondition d e) = true := by
  simp [State.fires, State.eventEnabled, Regs.get, and_assoc]

/-- In capture mode the match condition is a draw (R242). -/
theorem matchHolds_capturing (hm : s.params.slotMode = .capturing) : s.matchHolds d e = (s.draw 1).getLsbD e.val := by
  rw [State.matchHolds, hm]

include hl

/-- The half of an event by the value of its `counter_half` (R118, R241). -/
theorem eventHalf_eq :
    s.eventHalf e = if s.unify = false ∧ s.eventField EvCtrlLayout.counterHalf e = 1 then .high else .low := by
  obtain ⟨-, halfWidth, -⟩ := legal_evCtrl_widths hl
  rw [State.eventHalf, State.eventFlag, fieldFlag_eq_value _ _ halfWidth, State.eventField]
  cases s.unify <;> simp

/-- In match mode the match condition is equality of the counter, or of the event's half of it, with the slot the event names
(R242, R243). -/
theorem matchHolds_matching (hm : s.params.slotMode = .matching) :
    s.matchHolds d e = true ↔ ∃ m : Slot, m.val = s.eventField EvCtrlLayout.matchRegister e ∧
      if s.unify = true then d.cnt = s.regs.get (.matchCapture m)
      else halfOf (s.eventHalf e) d.cnt = halfOf (s.eventHalf e) (s.regs.get (.matchCapture m)) := by
  obtain ⟨slotWidth, -⟩ := legal_evCtrl_widths hl
  have inRange : s.eventField EvCtrlLayout.matchRegister e < 16 := eventField_lt slotWidth e
  have named : ∀ m : Slot, m.val = s.eventField EvCtrlLayout.matchRegister e ↔
      m = Fin.ofNat 16 (s.eventField EvCtrlLayout.matchRegister e) := fun m => by
    rw [Fin.ext_iff, Fin.val_ofNat, Nat.mod_eq_of_lt inRange]
  simp only [named, exists_eq_left, State.matchHolds, hm, Regs.get]
  split <;> exact decide_eq_true_iff

/-- With no reserved value in force the I/O condition is on one of the sixteen pins or one of the eight lines (R244). -/
theorem ioCondition_eq (hn : NoReservedValue s) :
    let n := s.eventField EvCtrlLayout.ioPin e
    let onPin := decide (s.eventField EvCtrlLayout.ioIsOutput e = 1)
    s.ioCondition d e = ioHolds (s.eventField EvCtrlLayout.ioCondition e)
      (if onPin then d.outPrev.getLsbD n else d.prev.getLsbD n) (if onPin then d.out.getLsbD n else d.inp.getLsbD n) := by
  intro n onPin
  obtain ⟨-, -, outputWidth, pinWidth⟩ := legal_evCtrl_widths hl
  have isPin : n < 16 := eventField_lt pinWidth e
  have source : s.eventFlag EvCtrlLayout.ioIsOutput e = onPin := fieldFlag_eq_value _ _ outputWidth
  have isLine : onPin = true ∨ n < numInputs := source ▸ hn.input e
  unfold State.ioCondition
  rw [source]
  cases hp : onPin with
  | true => exact if_pos isPin
  | false => exact if_pos (isLine.resolve_left (by simp [hp]))

end

/-- Settles O52: the gate, the half and the two conditions, each read from the fields of the event record. -/
theorem eventFiring : Obligations.EventFiring := by
  intro s t d e h hl hn l c value k current equal onPin level old io predicate
  have half : s.eventHalf e = k := eventHalf_eq hl e
  have state : (s.stateId k).toNat = current := stateId_eq_half s k
  have input : s.ioCondition d e = true ↔ io := by
    rw [ioCondition_eq hl d e hn]
    exact ioHolds_iff _ _ _
  refine ⟨s.matchHolds d e = true, fun matching => ?matching, fun capturing => ?capturing, ?fires⟩
  case matching =>
    rw [matchHolds_matching hl d e matching, half]
    exact Iff.rfl
  case capturing =>
    refine ⟨s.draw 1, ⟨s.draws + 1, by omega, ?_, rfl⟩, by rw [matchHolds_capturing d e capturing]⟩
    rw [sctEval_rules h hn]
    exact Nat.add_lt_add_left (by decide : 1 < evalDraws) s.draws
  case fires =>
    rw [fired_iff_fires h hn, fires_iff, half, state]
    exact and_congr_right fun _ => and_congr_right fun _ => combine_iff _ Iff.rfl input

/-! ## Flags and requests -/

/-- A status word after flags are set: each bit of the set, and every flag that was set (R249, R254). -/
theorem getLsbD_setFlags (x : Word) (f : Slot → Bool) (e : Slot) :
    (setFlags x (slotBits f)).getLsbD e.val = (f e || x.getLsbD e.val) := by
  rw [setFlags, BitVec.getLsbD_or, getLsbD_slotBits, Bool.or_comm]

/-- A flag of an event with its enable set requests the interrupt (R310). -/
theorem irq_of_event {t : State} {e : Slot} (flag : (t.regs.get .eventOccurred).getLsbD e.val = true)
    (enable : (t.regs.get .interruptOnEvent).getLsbD e.val = true) : t.irq = true := by
  have bit : ((t.regs.eventOccurred &&& t.regs.interruptOnEvent) &&& 0x0000FFFF).getLsbD e.val = true := by
    rw [BitVec.getLsbD_and, BitVec.getLsbD_and, getLsbD_flags, decide_eq_true e.isLt]
    simpa using ⟨flag, enable⟩
  refine Bool.or_eq_true_iff.2 (.inl (decide_eq_true fun zero => ?_))
  rw [zero] at bit
  simp at bit

/-- Each request is raised through its own table word (R251). -/
theorem newDma_bits (s : State) (F : List Slot) :
    (s.newDma F).getLsbD 0 = hits F (s.regs.get .dmaRequest0) 0 ∧ (s.newDma F).getLsbD 1 = hits F (s.regs.get .dmaRequest1) 0 := by
  unfold State.newDma Regs.get
  cases hits F s.regs.dmaRequest0 0 <;> cases hits F s.regs.dmaRequest1 0 <;> exact ⟨rfl, rfl⟩

/-- Settles O53: the flags are those of the firing set beside the old ones, and each request is raised through its table word. -/
theorem eventFlagsAndRequests : Obligations.EventFlagsAndRequests := by
  intro s t d h hn
  have flags : t.regs.get .eventOccurred =
      setFlags (s.regs.get .eventOccurred) (slotBits fun e => decide (e ∈ s.firingSet d)) := by
    rw [sctEval_rules h hn]; rfl
  have enables : t.regs.get .interruptOnEvent = s.regs.get .interruptOnEvent := by rw [sctEval_rules h hn]; rfl
  have requests : t.dmaRaised = s.newDma (s.firingSet d) := by rw [sctEval_rules h hn]; rfl
  have flag : ∀ e : Slot, (t.regs.get .eventOccurred).getLsbD e.val = true ↔
      t.fired e ∨ (s.regs.get .eventOccurred).getLsbD e.val = true := fun e => by
    rw [flags, getLsbD_setFlags, Bool.or_eq_true, decide_eq_true_iff, fired_iff_mem h hn]
  obtain ⟨request0, request1⟩ := newDma_bits s (s.firingSet d)
  refine ⟨fun e => ⟨flag e, fun fired enable => irq_of_event ((flag e).2 (.inl fired)) (enables ▸ enable)⟩, ?_, ?_⟩
  · rw [requests, request0, tableHit_iff_hits h hn]
  · rw [requests, request1, tableHit_iff_hits h hn]

/-! ## The state action -/

/-- A drawn choice among the elements of a list is one of them (R247). -/
theorem pickFrom_mem (x : Slot) (xs : List Slot) (r : Word) : pickFrom x xs r ∈ x :: xs := by
  cases xs with
  | nil => exact List.mem_singleton_self x
  | cons y ys =>
    have inList : r.toNat % (ys.length + 2) < (x :: y :: ys).length := Nat.mod_lt _ (by omega)
    rw [pickFrom, List.getD_eq_getElem _ _ inList]
    exact List.getElem_mem inList

/-- The greatest element of a list, taken by a fold, is one of the list and none is above it. -/
theorem foldl_max_mem_le (x y : Slot) (zs : List Slot) :
    zs.foldl max (max x y) ∈ x :: y :: zs ∧ ∀ e ∈ x :: y :: zs, e ≤ zs.foldl max (max x y) :=
  List.max?_eq_some_iff.1 (List.max?_cons' (x := x) (xs := y :: zs))

section
variable {s : State} {Fk : List Slot} {k : Half}

/-- The events of a firing set that load a state (R118 `load_state`, R247). -/
def State.loadersOf (s : State) (Fk : List Slot) : List Slot := Fk.filter (s.eventFlag EvCtrlLayout.loadState)

/-- Where some event loads a state, the half takes the state of one that does (R247). -/
theorem newStateId_loaded (h : s.loadersOf Fk ≠ []) : ∃ e ∈ s.loadersOf Fk, s.newStateId Fk k = s.nextStateId e := by
  unfold State.newStateId
  rw [State.loadersOf] at h ⊢
  match hL : Fk.filter (s.eventFlag EvCtrlLayout.loadState) with
  | [] => exact absurd hL h
  | [e] => exact ⟨e, List.mem_singleton_self e, rfl⟩
  | x :: y :: zs =>
    cases s.params.multiLoadRule with
    | drawAmongLoaders => exact ⟨_, pickFrom_mem x (y :: zs) _, rfl⟩
    | highestNumbered => exact ⟨_, (foldl_max_mem_le x y zs).1, rfl⟩

/-- Under `highest_numbered` it is that of the last of them (R247). -/
theorem newStateId_highest (hr : s.params.multiLoadRule = .highestNumbered) {e : Slot} (he : e ∈ s.loadersOf Fk)
    (top : ∀ x ∈ s.loadersOf Fk, x ≤ e) : s.newStateId Fk k = s.nextStateId e := by
  unfold State.newStateId
  rw [State.loadersOf] at he top
  match hL : Fk.filter (s.eventFlag EvCtrlLayout.loadState) with
  | [] => rw [hL] at he; cases he
  | [x] => rw [hL] at he; rw [List.mem_singleton.1 he]
  | x :: y :: zs =>
    rw [hL] at he top
    obtain ⟨mem, upper⟩ := foldl_max_mem_le x y zs
    simp only [hr]
    rw [le_antisymm (top _ mem) (upper _ he)]

/-- Where no event loads a state, `NOLOAD_RULE` decides (R247). -/
theorem newStateId_unloaded (h : s.loadersOf Fk = []) : s.newStateId Fk k = s.unloadedState Fk k := by
  rw [State.loadersOf] at h
  rw [State.newStateId, h]

/-- Where every `next_state` is 0 the half keeps its state (R247). -/
theorem unloadedState_of_zero (h : ∀ e ∈ Fk, s.nextStateId e = 0) : s.unloadedState Fk k = s.stateId k :=
  if_pos (List.all_eq_true.2 fun e he => decide_eq_true (h e he))

/-- Under `keep` the half keeps its state (R247). -/
theorem unloadedState_keep (hr : s.params.noLoadRule = .keep) : s.unloadedState Fk k = s.stateId k := by
  unfold State.unloadedState
  rw [hr, ite_self]

/-- Under `add` a `next_state` of one of the events is added (R247). -/
theorem unloadedState_add (hr : s.params.noLoadRule = .add) (h : ∃ e ∈ Fk, s.nextStateId e ≠ 0) :
    ∃ e ∈ Fk, s.unloadedState Fk k = s.stateId k + s.nextStateId e := by
  obtain ⟨e, he, nonzero⟩ := h
  have moves : ¬ (Fk.all fun e => decide (s.nextStateId e = 0)) = true := fun all =>
    nonzero (of_decide_eq_true (List.all_eq_true.1 all e he))
  unfold State.unloadedState
  rw [if_neg moves, hr]
  cases Fk with
  | nil => cases he
  | cons x xs => exact ⟨_, pickFrom_mem x xs _, rfl⟩

end

/-- Settles O54: by the number of loaders of the half. -/
theorem stateAction : Obligations.StateAction := by
  intro s t d k h hn inHalf loads
  have after : t.stateId k = if k ∈ s.halvesInUse then s.newStateId (s.firingOf (s.firingSet d) k) k else s.stateId k := by
    rw [sctEval_rules h hn]; exact newState_id s _ k
  have firing : ∀ e, e ∈ s.firingOf (s.firingSet d) k ↔ inHalf e := fun e => by
    rw [State.firingOf, List.mem_filter, decide_eq_true_iff, ← fired_iff_mem h hn]
  have loader : ∀ e, e ∈ s.loadersOf (s.firingOf (s.firingSet d) k) ↔ loads e := fun e => by
    rw [State.loadersOf, List.mem_filter, firing]
  refine ⟨fun out => after.trans (if_neg out), fun inUse => ?_⟩
  rw [if_pos inUse] at after
  rw [after]
  have loaded : (∃ e, loads e) → ∃ e, loads e ∧ s.newStateId (s.firingOf (s.firingSet d) k) k = s.nextStateId e := by
    rintro ⟨x, hx⟩
    obtain ⟨e, he, chosen⟩ := newStateId_loaded (k := k) (List.ne_nil_of_mem ((loader x).2 hx))
    exact ⟨e, (loader e).1 he, chosen⟩
  refine ⟨fun e he only => ?one, fun none => ?none, loaded, fun rule e he top => ?highest⟩
  case one =>
    obtain ⟨x, hx, chosen⟩ := loaded ⟨e, he⟩
    rw [chosen, only x hx]
  case none =>
    rw [newStateId_unloaded (List.eq_nil_iff_forall_not_mem.2 fun e he => none e ((loader e).1 he))]
    refine ⟨fun zero => unloadedState_of_zero fun e he => zero e ((firing e).1 he), unloadedState_keep, fun rule some => ?_⟩
    obtain ⟨x, hx, nonzero⟩ := some
    obtain ⟨e, he, added⟩ := unloadedState_add rule ⟨x, (firing x).2 hx, nonzero⟩
    exact ⟨e, (firing e).1 he, added⟩
  case highest => exact newStateId_highest rule ((loader e).2 he) fun x hx => top x ((loader x).1 hx)

/-! ## Counter control -/

/-- In a legal layout `halt_sct` and `pause_counter` are two bits of a ControlRegister (R116). -/
theorem legal_runFlags {p : Params} (h : p.legal = true) :
    p.ctrlLayout.haltSct.off < 16 ∧ p.ctrlLayout.pauseCounter.off < 16 ∧ p.ctrlLayout.pauseCounter.off ≠ p.ctrlLayout.haltSct.off := by
  obtain ⟨legal, widths⟩ := legal_ctrl h
  simp only [CtrlLayout.fields, fieldsLegal, disjointFields, List.all_cons, List.all_nil, Bool.and_eq_true, Bool.or_eq_true,
    decide_eq_true_eq] at legal
  simp only [CtrlLayout.fields, List.map_cons, List.map_nil, List.cons.injEq, and_true] at widths
  omega

section
variable {s : State} {F : List Slot} {k : Half}

/-- On a half in use the two flags are the new ones (R250). -/
theorem newControl_flags (hl : s.params.legal = true) (hk : k ∈ s.halvesInUse) :
    fieldFlag s.params.ctrlLayout.haltSct (halfOf k (s.newControl F)) = s.newHalt F k ∧
      fieldFlag s.params.ctrlLayout.pauseCounter (halfOf k (s.newControl F)) = s.newPause F k := by
  obtain ⟨halt, pause, apart⟩ := legal_runFlags hl
  rw [newControl_half, if_pos hk, fieldFlag, fieldFlag, getLsbD_putFlag _ _ _ _ halt, getLsbD_putFlag _ _ _ _ pause,
    getLsbD_putFlag _ _ _ _ pause]
  simp [apart]

/-- A halt that no start opposes halts the half (R250). -/
theorem newHalt_halted (h : hits F s.regs.haltOnEvent (halfOff k) = true) (hs : ¬ hits F s.regs.startOnEvent (halfOff k) = true) :
    s.newHalt F k = true := (if_pos h).trans (if_neg hs)

/-- With no halt `halt_sct` is kept (R250). -/
theorem newHalt_kept (h : ¬ hits F s.regs.haltOnEvent (halfOff k) = true) :
    s.newHalt F k = fieldFlag s.params.ctrlLayout.haltSct (s.controlOf k) := if_neg h

/-- A stop that no start opposes pauses the half (R250). -/
theorem newPause_stopped (h : hits F s.regs.stopOnEvent (halfOff k) = true) (hs : ¬ hits F s.regs.startOnEvent (halfOff k) = true) :
    s.newPause F k = true := (if_neg hs).trans (if_pos h)

/-- A start that nothing opposes ends the pause (R250, R175). -/
theorem newPause_started (h : hits F s.regs.startOnEvent (halfOff k) = true) (hs : ¬ hits F s.regs.stopOnEvent (halfOff k) = true)
    (hh : ¬ hits F s.regs.haltOnEvent (halfOff k) = true) : s.newPause F k = false :=
  (if_pos h).trans (if_neg (by simp [hs, hh]))

/-- With neither a stop nor a start `pause_counter` is kept (R250). -/
theorem newPause_kept (h : ¬ hits F s.regs.startOnEvent (halfOff k) = true) (hs : ¬ hits F s.regs.stopOnEvent (halfOff k) = true) :
    s.newPause F k = fieldFlag s.params.ctrlLayout.pauseCounter (s.controlOf k) := (if_neg h).trans (if_neg hs)

end

/-- Settles O55: each flag of a half in use by the actions on it. -/
theorem counterControl : Obligations.CounterControl := by
  intro s t d k h hl hn c halt stop start
  have after : t.controlOf k = halfOf k (s.newControl (s.firingSet d)) := by rw [sctEval_rules h hn]; rfl
  have hit : ∀ w, t.tableHit w (halfOff k) ↔ hits (s.firingSet d) w (halfOff k) = true := fun w => tableHit_iff_hits h hn
  simp only [halt, stop, start, hit, after]
  refine ⟨fun inUse => ?_, fun out => (newControl_half s _ k).trans (if_neg out)⟩
  obtain ⟨haltFlag, pauseFlag⟩ := newControl_flags (F := s.firingSet d) hl inUse
  rw [haltFlag, pauseFlag]
  exact ⟨newHalt_halted, newHalt_kept, newPause_stopped, newPause_started, newPause_kept⟩

/-! ## Clear actions -/

/-- Before any clear a half that runs is at the counter value of the evaluation, the other keeps its value (R176, R240). -/
theorem halfOf_countNow (s : State) (d : EvalDraws) (k : Half) :
    halfOf k (s.countNow d) = if s.runs k = true then halfOf k d.cnt else halfOf k s.regs.count :=
  halfOf_merge_halvesMask s.runs k _ _

section
variable {s : State} {d : EvalDraws} {F : List Slot}

/-- Unified, a clear that `prevent_reload_low` allows zeroes the whole counter (R250, R256). -/
theorem newCount_unified_cleared (hu : s.unify = true) (hc : hits F s.regs.clearOnEvent 0 = true)
    (hp : s.preventReload .low = false) : s.newCount d F = 0 := by
  simp [State.newCount, hu, halfOff, hc, hp]

/-- Unified, with no clear the counter is the one before any clear (R250). -/
theorem newCount_unified_kept (hu : s.unify = true) (hc : ¬ hits F s.regs.clearOnEvent 0 = true) : s.newCount d F = s.countNow d := by
  simp [State.newCount, hu, halfOff, hc]

end

/-- Settles O56: half by half when split, by the low half's clear when unified. -/
theorem clearActions : Obligations.ClearActions := by
  intro s t d h hn l cfg clear suppressed kept
  have after : t.regs.get .count = s.newCount d (s.firingSet d) := by rw [sctEval_rules h hn]; rfl
  have hit : ∀ k, clear k ↔ hits (s.firingSet d) s.regs.clearOnEvent (halfOff k) = true := fun k => tableHit_iff_hits h hn
  have allowed : ∀ k, ¬ suppressed k ↔ s.preventReload k = false := fun k => by
    cases k <;> exact Iff.of_eq (Bool.not_eq_true _)
  rw [after]
  refine ⟨fun split k => ?split, fun unified => ⟨fun cleared ok => ?cleared, fun uncleared k => ?kept⟩⟩
  case split =>
    rw [newCount_half s d _ k split]
    refine ⟨fun cleared ok => if_pos ⟨(hit k).1 cleared, (allowed k).1 ok⟩, fun no => if_neg fun ⟨cleared, ok⟩ => ?_⟩
    exact no.elim (· ((hit k).2 cleared)) ((allowed k).2 ok)
  case cleared => exact newCount_unified_cleared unified ((hit .low).1 cleared) ((allowed .low).1 ok)
  case kept =>
    rw [newCount_unified_kept unified fun cleared => uncleared ((hit .low).2 cleared)]
    exact halfOf_countNow s d k

/-! ## Outputs -/

/-- The pins after an evaluation are those of the sixteen slots (R252). -/
theorem getLsbD_pins (old : Word) (f : Slot → Bool) (p : Slot) :
    (merge (~~~ aboveSlots) old (slotBits f)).getLsbD p.val = f p := by
  have pin : (~~~ aboveSlots).getLsbD p.val = true := by revert p; decide
  rw [getLsbD_merge, if_pos pin, getLsbD_slotBits]

section
variable {s : State} {F : List Slot} {p : Slot}

/-- A conflict is both requests (R254). -/
theorem conflictOn_iff : s.conflictOn F p = true ↔ s.setsPin F p = true ∧ s.clearsPin F p = true := Bool.and_eq_true_iff

/-- A set request alone raises the pin (R252). -/
theorem newLevel_set (h : s.setsPin F p = true) (hc : ¬ s.clearsPin F p = true) : s.newLevel F p = true := by
  simp [State.newLevel, State.conflictOn, h, hc]

/-- A clear request alone lowers it (R252). -/
theorem newLevel_clear (h : s.clearsPin F p = true) (hs : ¬ s.setsPin F p = true) : s.newLevel F p = false := by
  simp [State.newLevel, State.conflictOn, h, hs]

/-- With neither request it is kept (R252). -/
theorem newLevel_kept (hs : ¬ s.setsPin F p = true) (hc : ¬ s.clearsPin F p = true) :
    s.newLevel F p = (s.regs.get .output).getLsbD p.val := by
  simp [State.newLevel, State.conflictOn, hs, hc, Regs.get]

end

section
variable {s t : State} {d : EvalDraws} (h : exec (.sctEval d) s = .next t) (hn : NoReservedValue s) (p : Slot)
include h hn

/-- The level of a pin after an evaluation (R252). -/
theorem output_level : (t.regs.get .output).getLsbD p.val = s.newLevel (s.firingSet d) p := by
  rw [sctEval_rules h hn]
  exact getLsbD_pins _ _ p

/-- A set request on a pin (R252). -/
theorem tableHit_set_iff : t.tableHit (s.regs.get (.outputOnEventSet p)) 0 ↔ s.setsPin (s.firingSet d) p = true := tableHit_iff_hits h hn

/-- A clear request on a pin (R252). -/
theorem tableHit_clear_iff : t.tableHit (s.regs.get (.outputOnEventClear p)) 0 ↔ s.clearsPin (s.firingSet d) p = true :=
  tableHit_iff_hits h hn

end

/-- Settles O57: by the requests on the pin. -/
theorem outputActions : Obligations.OutputActions := by
  intro s t d p h hn S C level
  simp only [S, C, level, tableHit_set_iff h hn, tableHit_clear_iff h hn, output_level h hn]
  exact ⟨newLevel_set, newLevel_clear, newLevel_kept⟩

/-- Settles O58: a conflict is both requests, and its level is that of the rule. -/
theorem outputConflicts : Obligations.OutputConflicts := by
  intro s t d p h hn S C level before
  have flags : t.regs.get .conflictOccurred =
      setFlags (s.regs.get .conflictOccurred) (slotBits (s.conflictOn (s.firingSet d))) := by rw [sctEval_rules h hn]; rfl
  simp only [S, C, level, before, tableHit_set_iff h hn, tableHit_clear_iff h hn,
    output_level h hn]
  refine ⟨?flag, fun sets clears => ?level⟩
  case flag => rw [flags, getLsbD_setFlags, Bool.or_eq_true, conflictOn_iff]
  case level =>
    unfold State.newLevel
    rw [if_pos (conflictOn_iff.2 ⟨sets, clears⟩)]
    cases s.params.conflictRule with
    | draw => exact trivial
    | _ => rfl

/-! ## Captures -/

section
variable (s : State) (F : List Slot) (i : Slot)

/-- A half of a slot is taken whole or not at all: by its own bits of the capture control word when split, by the low ones when
unified (R213, R253). -/
theorem halfOf_capturedBits (k : Half) :
    halfOf k (s.capturedBits F i) =
      if hits F (s.regs.get (.captureControl i)) (if s.unify = true then 0 else halfOff k) = true then ~~~ 0 else 0 := by
  unfold State.capturedBits
  cases s.unify with
  | false =>
    simp only [Bool.false_eq_true, if_false, Regs.get]
    exact halfOf_halvesMask _ k
  | true =>
    simp only [if_true, Regs.get]
    split
    · rw [halfOf_not, halfOf_zero]
    · exact halfOf_zero k

/-- In match mode the slots are thresholds and are kept (R253). -/
theorem newSlots_matching (d : EvalDraws) (hm : s.params.slotMode = .matching) : s.newSlots d F = s.regs.matchCapture := by
  rw [State.newSlots, hm]

/-- In capture mode a slot takes the counter of the evaluation in its captured bits (R253). -/
theorem newSlots_capturing (d : EvalDraws) (hm : s.params.slotMode = .capturing) :
    (s.newSlots d F)[i] = merge (s.capturedBits F i) (s.regs.get (.matchCapture i)) d.cnt := by
  rw [State.newSlots, hm]
  exact Vector.getElem_ofFn _

end

/-- Settles O59: the captured bits of a half are all or none. -/
theorem captures : Obligations.Captures := by
  intro s t d i k h hn takes
  have slot : t.regs.get (.matchCapture i) = (s.newSlots d (s.firingSet d))[i] := by rw [sctEval_rules h hn]; rfl
  have hit : takes ↔ _ := tableHit_iff_hits h hn
  rw [slot, hit]
  refine ⟨fun capturing => ?capturing, fun matching => ?matching⟩
  case capturing =>
    rw [newSlots_capturing s _ i d capturing, halfOf_merge, halfOf_capturedBits]
    exact ⟨fun taken => by rw [if_pos taken, merge_ones], fun untaken => by rw [if_neg untaken, merge_zero]⟩
  case matching =>
    rw [newSlots_matching s _ d matching]
    rfl

end Sys2Proof.Machine

/-! PROOFS. The family 44_harness: what the checks answer on a descriptor, what its well-formedness says, and what passing checks
establish (spec/44_harness.md R271 to R283). -/

namespace Sys2Proof.Machine

/-! ## The first match of a search -/

/-- A search of a list ends at the first element that has an answer. -/
theorem findSome?_append_cons {α β : Type} {f : α → Option β} {A B : List α} {a : α} {b : β} (before : ∀ x ∈ A, f x = none)
    (here : f a = some b) : (A ++ a :: B).findSome? f = some b :=
  List.findSome?_eq_some_iff.2 ⟨A, a, B, rfl, here, before⟩

/-- The entries before the first one of a name. -/
theorem takeWhile_name {A B : List Entry} {e : Entry} (first : ∀ x ∈ A, x.name ≠ e.name) :
    (A ++ e :: B).takeWhile (fun x => decide (x.name ≠ e.name)) = A := by
  rw [List.takeWhile_append_of_pos (by simpa using first), List.takeWhile_cons_of_neg (by simp), List.append_nil]

/-- The entries from the first one of a name on. -/
theorem dropWhile_name {A B : List Entry} {e : Entry} (first : ∀ x ∈ A, x.name ≠ e.name) :
    (A ++ e :: B).dropWhile (fun x => decide (x.name ≠ e.name)) = e :: B := by
  rw [List.dropWhile_append_of_pos (by simpa using first), List.dropWhile_cons_of_neg (by simp)]

/-! ## The checks on a descriptor -/

/-- `CHECK_OFFSET` passes exactly when the offset of the name is the documented one (R276). -/
theorem checkOffset_eq_none_iff {L : List Entry} {n : FieldName} {d : Nat} :
    checkOffset L n d = none ↔ offsetNamed L n = some d := by
  unfold checkOffset
  cases offsetNamed L n <;> simp

/-- `CHECK_OFFSET` compares the documented offset with the bytes before the first entry of the name (R276, log entry 38). -/
theorem checkOffset_append {A : List Entry} {e : Entry} (first : ∀ x ∈ A, x.name ≠ e.name) (B : List Entry) (d : Nat) :
    checkOffset (A ++ e :: B) e.name d = if totalBytes A = d then none else some (.offset e.name d (totalBytes A)) := by
  rw [checkOffset, offsetNamed_append A B e first]

/-- `CHECK_OFFSET` of a name no entry has (R276). -/
theorem checkOffset_absent {L : List Entry} {n : FieldName} (absent : ∀ x ∈ L, x.name ≠ n) (d : Nat) :
    checkOffset L n d = some (.unknownField n d) := by
  rw [checkOffset, offsetNamed_absent absent]

/-- `CHECK_SIZE` compares the documented extent with the bytes of all entries (R277). -/
theorem checkSize_eq (L : List Entry) (d : Nat) :
    checkSize L d = if totalBytes L = d then none else some (.size d (totalBytes L)) := by
  rw [checkSize, sizeOfLayout_eq]

/-- Where `CHECK_SIZE` passes, the documented extent is that of the entries (R277). -/
theorem totalBytes_of_checkSize {L : List Entry} {d : Nat} (h : checkSize L d = none) : totalBytes L = d := by
  rw [checkSize_eq] at h
  by_contra hne
  rw [if_neg hne] at h
  cases h

/-- The parts of a record are compared with the stride by their total (R278). -/
theorem badRecord_eq (e : Entry) (d : Nat) :
    badRecord e d = if e.subs = [] ∨ (e.subs.map SubEntry.bytes).sum = d then none
      else some (.stride e.name d (e.subs.map SubEntry.bytes).sum) := by
  unfold badRecord
  by_cases hs : e.subs = [] <;> simp [hs]

/-- `CHECK_STRIDE` looks at the slots of the first entry of the name, then at its parts (R278, log entry 38). -/
theorem checkStride_append {A : List Entry} {e : Entry} (first : ∀ x ∈ A, x.name ≠ e.name) (B : List Entry) (d : Nat) :
    checkStride (A ++ e :: B) e.name d =
      if e.count ≤ 1 ∨ e.unit = d then badRecord e d else some (.stride e.name d e.unit) := by
  rw [checkStride, entryNamed_append A B e first, offsetNamed_append A B e first]
  show (badPair e (totalBytes A) d).or (badRecord e d) = _
  rw [badPair_eq]
  split <;> rfl

/-- `CHECK_STRIDE` of a name no entry has (R278). -/
theorem checkStride_absent {L : List Entry} {n : FieldName} (absent : ∀ x ∈ L, x.name ≠ n) (d : Nat) :
    checkStride L n d = some (.unknownField n d) := by
  rw [checkStride, entryNamed_absent absent]

/-! ## The offsets inside an entry -/

/-- The parts of an entry lie inside it, the first one of a sub-name taken (R272, log entry 40). -/
theorem subOffset_part {A : List Entry} {e : Entry} (first : ∀ x ∈ A, x.name ≠ e.name) (B : List Entry) {P Q : List SubEntry}
    {p : SubEntry} (parts : e.subs = P ++ p :: Q) (firstPart : ∀ q ∈ P, q.name ≠ p.name) :
    subOffset (A ++ e :: B) e.name p.name = some (totalBytes A + p.off) := by
  have found : (e.subs.find? fun q => decide (q.name = p.name)) = some p :=
    List.find?_eq_some_iff_append.2 ⟨by simp, P, Q, parts, by simpa using firstPart⟩
  rw [subOffset_append A B e p.name first, found, Option.map_some]

/-- A sub-name no part of the entry has, has no offset (R272). -/
theorem subOffset_absent {A : List Entry} {e : Entry} (first : ∀ x ∈ A, x.name ≠ e.name) (B : List Entry) {n : SubName}
    (absent : ∀ q ∈ e.subs, q.name ≠ n) : subOffset (A ++ e :: B) e.name n = none := by
  have missing : (e.subs.find? fun q => decide (q.name = n)) = none := List.find?_eq_none.2 (by simpa using absent)
  rw [subOffset_append A B e n first, missing, Option.map_none]

/-! ## The single checks as operations -/

/-- A harness operation outside `UNVERIFIED` is refused (R280, R320). -/
@[simp] theorem whenUnverified_of_not {s : State} (h : s.phase ≠ .unverified) (a : Answer) :
    whenUnverified s a = .refused .wrongPhase := if_neg h

/-- A check that compares two numbers passes or halts the build. -/
theorem settleCheck_ite (c : Prop) [Decidable c] (f : BuildFailure) (s : State) :
    settleCheck (if c then none else some f) s = if c then { s with result := .passed } else takeBuildFailure f s := by
  split <;> rfl

section
variable {s : State} (unverified : s.phase = .unverified)
include unverified

/-- `CHECK_OFFSET` settles its check in `UNVERIFIED` (R276). -/
theorem exec_checkOffset (n : FieldName) (d : Nat) :
    exec (.checkOffset n d) s = .next (settleCheck (checkOffset s.params.layout n d) s) := whenUnverified_of_unverified unverified _

/-- `CHECK_SIZE` settles its check in `UNVERIFIED` (R277). -/
theorem exec_checkSize (d : Nat) : exec (.checkSize d) s = .next (settleCheck (checkSize s.params.layout d) s) :=
  whenUnverified_of_unverified unverified _

/-- `CHECK_STRIDE` settles its check in `UNVERIFIED` (R278). -/
theorem exec_checkStride (n : FieldName) (d : Nat) :
    exec (.checkStride n d) s = .next (settleCheck (checkStride s.params.layout n d) s) := whenUnverified_of_unverified unverified _

end

/-- Settles O14: an entry, its slots and its parts lie after the bytes before the entry, which the check compares. -/
theorem checkOffsetVerdict : Obligations.CheckOffsetVerdict := by
  refine ⟨fun A B e => ⟨computedOffset_append A _, fun first => ⟨?entry, ?slots, ?parts, ?noPart⟩⟩, ?compared, ?absent, ?phase⟩
  case entry => exact offsetNamed_append A B e first
  case slots => exact fun i => slotOffset_append A B e i first
  case parts => exact fun P p Q parts firstPart => subOffset_part first B parts firstPart
  case noPart => exact fun n absent => subOffset_absent first B absent
  case compared =>
    intro s A B e d unverified layout first
    rw [exec_checkOffset unverified, layout, checkOffset_append first, settleCheck_ite]
    rfl
  case absent =>
    intro s n d unverified absent
    rw [exec_checkOffset unverified, checkOffset_absent absent]
    rfl
  case phase => exact fun s n d h => whenUnverified_of_not h _

/-- Settles O15. -/
theorem checkSizeVerdict : Obligations.CheckSizeVerdict := by
  refine ⟨fun s d unverified => ?compared, fun s d h => whenUnverified_of_not h _⟩
  case compared =>
    rw [exec_checkSize unverified, checkSize_eq, settleCheck_ite]
    rfl

/-- Settles O16: every two neighbouring slots are the unit apart, so the check compares the unit, then the parts. -/
theorem checkStrideVerdict : Obligations.CheckStrideVerdict := by
  refine ⟨fun s A B e d unverified layout first => ?entry, ?absent, ?phase⟩
  case entry =>
    rw [exec_checkStride unverified, layout, checkStride_append first, badRecord_eq]
    refine ⟨?passes, fun slots => ?slots, fun slots parts => ?parts⟩
    case passes =>
      rintro ⟨slots, parts⟩
      rw [if_pos slots, if_pos parts]
      rfl
    case slots =>
      rw [if_neg slots]
      rfl
    case parts =>
      rw [if_pos slots, if_neg parts]
      rfl
  case absent =>
    intro s n d unverified absent
    rw [exec_checkStride unverified, checkStride_absent absent]
    rfl
  case phase => exact fun s n d h => whenUnverified_of_not h _

/-! ## What passing anchors fix -/

/-- Where an anchor passes, its name cuts the descriptor after the documented number of bytes (R276). -/
theorem cut_of_checkOffset {L : List Entry} {n : FieldName} {d : Nat} (h : checkOffset L n d = none) :
    ∃ A e B, L = A ++ e :: B ∧ e.name = n ∧ (∀ x ∈ A, x.name ≠ n) ∧ totalBytes A = d :=
  offsetNamed_some (checkOffset_eq_none_iff.1 h)

/-- Between two passing anchors lie the bytes between their offsets (R279). -/
theorem totalBytes_between {L : List Entry} {n m : FieldName} {a b : Nat} (hab : a < b) (hn : checkOffset L n a = none)
    (hm : checkOffset L m b = none) :
    totalBytes ((L.dropWhile fun e => decide (e.name ≠ n)).takeWhile fun e => decide (e.name ≠ m)) = b - a := by
  obtain ⟨A, e, B, rfl, rfl, firstN, rfl⟩ := cut_of_checkOffset hn
  obtain ⟨A', e', B', cut, rfl, firstM, rfl⟩ := cut_of_checkOffset hm
  rw [dropWhile_name firstN]
  rcases List.append_eq_append_iff.1 cut with ⟨C, rfl, rest⟩ | ⟨C, rfl, -⟩
  · rw [rest, takeWhile_name fun x hx => firstM x (List.mem_append_right A hx), totalBytes_append]
    omega
  · rw [totalBytes_append] at hab
    omega

/-- From a passing anchor to a passing end lie the bytes between the offset and the extent (R279). -/
theorem totalBytes_to_end {L : List Entry} {n : FieldName} {a b : Nat} (hn : checkOffset L n a = none)
    (hs : checkSize L b = none) : totalBytes (L.dropWhile fun e => decide (e.name ≠ n)) = b - a ∧ a ≤ b := by
  obtain ⟨A, e, B, rfl, rfl, first, rfl⟩ := cut_of_checkOffset hn
  have size := totalBytes_of_checkSize hs
  rw [totalBytes_append] at size
  rw [dropWhile_name first]
  omega

/-- Settles O17: the descriptor of R271 is evaluated; what anchors fix holds of every descriptor. -/
theorem anchorsFixSizesBetween : Obligations.AnchorsFixSizesBetween :=
  ⟨by decide, fun _ _ _ _ _ => totalBytes_between, fun _ _ _ _ => totalBytes_to_end, by decide⟩

/-! ## Well-formedness -/

/-- No name is found twice exactly when the names are unique. -/
theorem duplicateName_eq_none_iff (L : List Entry) : duplicateName L = none ↔ (L.map Entry.name).Nodup := by
  have occurrences (n : FieldName) : (L.map Entry.name).count n = (L.filter fun x => decide (x.name = n)).length := by
    rw [List.count, List.countP_map, List.countP_eq_length_filter]
    rfl
  simp [duplicateName, List.findSome?_eq_none_iff, List.nodup_iff_count_eq_one, occurrences]

/-- No unit is bad exactly when each is a positive multiple of 2. -/
theorem badUnit_eq_none_iff (L : List Entry) : badUnit L = none ↔ ∀ e ∈ L, 0 < e.unit ∧ e.unit % 2 = 0 := by
  simp [badUnit, List.findSome?_eq_none_iff]

/-- No count is bad exactly when each is at least 1. -/
theorem badCount_eq_none_iff (L : List Entry) : badCount L = none ↔ ∀ e ∈ L, 1 ≤ e.count := by
  simp only [badCount, List.findSome?_eq_none_iff, ite_eq_left_iff, reduceCtorEq, imp_false, not_not]

/-- An element with its index in a list, as a cut of the list. -/
theorem mem_zipIdx_iff_cut {α : Type} {L : List α} {e : α} {k : Nat} :
    (e, k) ∈ L.zipIdx ↔ ∃ A B, L = A ++ e :: B ∧ A.length = k := by
  rw [List.mem_zipIdx_iff_getElem?]
  dsimp only
  constructor
  · intro h
    obtain ⟨hk, he⟩ := List.getElem?_eq_some_iff.1 h
    exact ⟨L.take k, L.drop (k + 1), by rw [← he, List.getElem_cons_drop, List.take_append_drop], List.length_take_of_le hk.le⟩
  · rintro ⟨A, B, rfl, rfl⟩
    simp

/-- No entry is misaligned exactly when each one lies, after the entries before it, at a multiple of its alignment. -/
theorem misalignedEntry_eq_none_iff (L : List Entry) : misalignedEntry L = none ↔
    ∀ A B e, L = A ++ e :: B → totalBytes A % entryAlign e = 0 := by
  simp only [misalignedEntry, List.findSome?_eq_none_iff, Prod.forall, ite_eq_left_iff, reduceCtorEq, imp_false, not_not,
    mem_zipIdx_iff_cut]
  constructor
  · rintro h A B e rfl
    simpa [computedOffset_append] using h e A.length ⟨A, B, rfl, rfl⟩
  · rintro h e _ ⟨A, B, rfl, rfl⟩
    simpa [computedOffset_append] using h A B e rfl

/-- No part is outside exactly when each lies in its element. -/
theorem subOutside_eq_none_iff (L : List Entry) : subOutside L = none ↔ ∀ e ∈ L, ∀ p ∈ e.subs, p.off + p.bytes ≤ e.unit := by
  simp [subOutside, List.findSome?_eq_none_iff]

/-- No part overlaps one seen before it exactly when the parts are apart from those seen and from one another. -/
theorem overlappingSub_eq_none_iff (seen ps : List SubEntry) : overlappingSub seen ps = none ↔
    (∀ p ∈ ps, ∀ q ∈ seen, subsDisjoint p q = true) ∧ ps.Pairwise fun p q => subsDisjoint p q = true := by
  induction ps generalizing seen with
  | nil => simp [overlappingSub]
  | cons p ps ih =>
    have symm (q : SubEntry) : subsDisjoint q p = subsDisjoint p q := Bool.or_comm ..
    by_cases apart : seen.all (subsDisjoint p) = true
    · rw [overlappingSub, if_pos apart, ih]
      rw [List.all_eq_true] at apart
      simp only [List.forall_mem_cons, List.pairwise_cons, symm, forall_and]
      tauto
    · rw [overlappingSub, if_neg apart]
      rw [List.all_eq_true] at apart
      simp [apart]

/-- No overlap is found exactly when the parts of each element are pairwise apart. -/
theorem subsOverlap_eq_none_iff (L : List Entry) : subsOverlap L = none ↔
    ∀ e ∈ L, e.subs.Pairwise fun p q => p.off + p.bytes ≤ q.off ∨ q.off + q.bytes ≤ p.off := by
  simp [subsOverlap, List.findSome?_eq_none_iff, overlappingSub_eq_none_iff, subsDisjoint]

/-- A descriptor is well-formed exactly when each of the six searches finds nothing (R273). -/
theorem malformation_eq_none_iff (L : List Entry) : malformation L = none ↔
    duplicateName L = none ∧ badUnit L = none ∧ badCount L = none ∧ misalignedEntry L = none ∧ subOutside L = none ∧
      subsOverlap L = none := by
  simp [malformation, List.findSome?_eq_none_iff]

/-- Settles O18: each search of R273 finds nothing exactly when its condition holds. -/
theorem wellFormedDescriptor : Obligations.WellFormedDescriptor := by
  intro L
  rw [malformation_eq_none_iff, duplicateName_eq_none_iff, badUnit_eq_none_iff, badCount_eq_none_iff, misalignedEntry_eq_none_iff,
    subOutside_eq_none_iff, subsOverlap_eq_none_iff]
  constructor
  · rintro ⟨names, units, counts, aligned, inside, apart⟩
    exact ⟨names, fun e he => ⟨(units e he).1, (units e he).2, counts e he⟩, aligned, inside, apart⟩
  · rintro ⟨names, numbers, aligned, inside, apart⟩
    exact ⟨names, fun e he => ⟨(numbers e he).1, (numbers e he).2.1⟩, fun e he => (numbers e he).2.2, aligned, inside, apart⟩

/-! ## The harness as a whole -/

/-- `VERIFY` with no failure verifies the build (R280). -/
theorem exec_verify_passes {s : State} (unverified : s.phase = .unverified)
    (h : verifyFailure s.params.layout s.params.anchors s.params.extent s.params.strides = none) :
    exec .verify s = .next { s with phase := .verified, result := .passed } := by
  show execVerify s = _
  rw [execVerify, whenUnverified_of_unverified unverified, h]

/-- `VERIFY` with a failure takes it (R280, R304). -/
theorem exec_verify_fails {s : State} {f : BuildFailure} (unverified : s.phase = .unverified)
    (h : verifyFailure s.params.layout s.params.anchors s.params.extent s.params.strides = some f) :
    exec .verify s = .next (takeBuildFailure f s) := by
  show execVerify s = _
  rw [execVerify, whenUnverified_of_unverified unverified, h]

/-- Settles O19: the first failure is that of the first check that fails, all before it passing. -/
theorem verifyVerdict : Obligations.VerifyVerdict := by
  refine ⟨fun s h => whenUnverified_of_not h _, fun s unverified => ⟨?passes, ?malformed, ?anchor, ?size, ?stride⟩⟩
  case passes =>
    intro wellFormed anchors size strides
    refine exec_verify_passes unverified ?_
    rw [verifyFailure, wellFormed, List.findSome?_eq_none_iff.2 anchors, size, List.findSome?_eq_none_iff.2 strides]
    rfl
  case malformed =>
    intro f malformed
    refine exec_verify_fails unverified ?_
    rw [verifyFailure, malformed]
    rfl
  case anchor =>
    intro A a B f wellFormed cut before fails
    refine exec_verify_fails unverified ?_
    rw [verifyFailure, wellFormed, cut, findSome?_append_cons before fails]
    rfl
  case size =>
    intro f wellFormed anchors fails
    refine exec_verify_fails unverified ?_
    rw [verifyFailure, wellFormed, List.findSome?_eq_none_iff.2 anchors, fails]
    rfl
  case stride =>
    intro A a B f wellFormed anchors size cut before fails
    refine exec_verify_fails unverified ?_
    rw [verifyFailure, wellFormed, List.findSome?_eq_none_iff.2 anchors, size, cut, findSome?_append_cons before fails]
    rfl

/-- Settles O20: `VERIFY` is decided by the first failure, a function of the four parameters. -/
theorem verifyIsPure : Obligations.VerifyIsPure := by
  intro s u hs hu layout anchors extent strides
  have same : verifyFailure u.params.layout u.params.anchors u.params.extent u.params.strides =
      verifyFailure s.params.layout s.params.anchors s.params.extent s.params.strides := by
    rw [layout, anchors, extent, strides]
  cases verdict : verifyFailure s.params.layout s.params.anchors s.params.extent s.params.strides with
  | none =>
    exact ⟨_, _, exec_verify_passes hs verdict, exec_verify_passes hu (same.trans verdict), rfl, nofun, fun _ => rfl,
      rfl, rfl, rfl, rfl, ⟨rfl, rfl⟩, fun _ _ => rfl⟩
  | some f =>
    exact ⟨_, _, exec_verify_fails hs verdict, exec_verify_fails hu (same.trans verdict), rfl, fun _ => rfl, nofun,
      rfl, rfl, rfl, rfl, ⟨rfl, rfl⟩, fun _ _ => rfl⟩

/-! ## Binding -/

/-- A base is accepted exactly when it is aligned and the map does not wrap from it (R283). -/
theorem baseOk_iff (base : Word) : baseOk base = true ↔ base.toNat % 4 = 0 ∧ base.toNat + 0x580 ≤ 2 ^ 32 := by
  rw [baseOk, Bool.and_eq_true, decide_eq_true_iff, decide_eq_true_iff]

/-- Settles O21. -/
theorem bindVerdict : Obligations.BindVerdict := by
  intro s base
  refine ⟨fun verified aligned fits => ?binds, fun verified bad => ?badBase, fun h => if_neg h⟩
  case binds => exact (if_pos verified).trans (if_pos ((baseOk_iff base).2 ⟨aligned, fits⟩))
  case badBase => exact (if_pos verified).trans (if_neg (mt (baseOk_iff base).1 bad))

end Sys2Proof.Machine

/-! PROOFS. The family 60_exceptions: the halted build has no step, and when the interrupt request stands
(spec/60_exceptions.md R304, R310). -/

namespace Sys2Proof.Machine

/-! ## Operations outside the phase of their agent -/

/-- No agent acts in `BUILD_HALTED` (R9). -/
theorem homePhase_ne_buildHalted (i : Instr) : homePhase i ≠ .buildHalted := by
  cases i <;> nofun

/-- The transactions are the bus master's, which acts in `BOUND` (R9). -/
theorem homePhase_of_transaction {i : Instr} (h : isTransaction i = true) : homePhase i = .bound := by
  cases i with
  | verify | checkOffset | checkSize | checkStride | bind => cases h
  | _ => rfl

/-- An operation presented outside the phase in which its agent acts is refused (R9, R320). -/
theorem exec_refused_of_phase_ne {i : Instr} {s : State} (h : s.phase ≠ homePhase i) : ∃ r, exec i s = .refused r := by
  cases ht : isTransaction i with
  | true => exact ⟨_, exec_transaction_of_not ht fun hb => h (hb.phase.trans (homePhase_of_transaction ht).symm)⟩
  | false =>
    cases i with
    | verify | checkOffset | checkSize | checkStride => exact ⟨_, whenUnverified_of_not h _⟩
    | bind => exact ⟨_, if_neg h⟩
    | fieldRd | fieldWr | slotAddr | configureEvent => exact ⟨_, withHandle_of_not (fun hb => h hb.phase) _⟩
    | sctEval => exact ⟨_, whenBound_of_not h _⟩
    | _ => cases ht

/-- Settles O13: no agent acts in `BUILD_HALTED`, so there every operation is outside the phase of its agent. -/
theorem buildHaltedTerminal : Obligations.BuildHaltedTerminal := by
  intro i s _ halted
  exact exec_refused_of_phase_ne (halted ▸ (homePhase_ne_buildHalted i).symm)

/-! ## The interrupt request -/

/-- Two words share one of the sixteen flags exactly when their conjunction is nonzero there. -/
theorem and_flags_ne_zero_iff (x y : Word) :
    (x &&& y) &&& 0x0000FFFF ≠ 0 ↔ ∃ e : Slot, x.getLsbD e.val = true ∧ y.getLsbD e.val = true := by
  have bit (n : Nat) : ((x &&& y) &&& 0x0000FFFF).getLsbD n = true ↔
      (x.getLsbD n = true ∧ y.getLsbD n = true) ∧ n < 16 := by
    rw [BitVec.getLsbD_and, BitVec.getLsbD_and, getLsbD_flags, Bool.and_eq_true, Bool.and_eq_true, decide_eq_true_iff]
  constructor
  · intro nonzero
    by_contra unshared
    refine nonzero (BitVec.eq_of_getLsbD_eq fun n _ => (Bool.eq_false_iff.2 fun shared => ?_).trans BitVec.getLsbD_zero.symm)
    obtain ⟨both, flag⟩ := (bit n).1 shared
    exact unshared ⟨⟨n, flag⟩, both⟩
  · rintro ⟨e, both⟩ zero
    have shared := (bit e.val).2 ⟨both, e.isLt⟩
    rw [zero] at shared
    simp at shared

/-- Settles O38: each side of the request is a flag word and its enable word sharing a flag. -/
theorem interruptRequest : Obligations.InterruptRequest := by
  intro s
  rw [State.irq, Bool.or_eq_true, decide_eq_true_iff, decide_eq_true_iff, and_flags_ne_zero_iff, and_flags_ne_zero_iff]
  rfl

end Sys2Proof.Machine

/-! PROOFS. The family 70_reset_and_hazards: what a launch and a hardware reset hold, the invariant at launch, and the hazard of a
`FIELD_WR` on a ControlRegister between whose transactions the SCT agent acts (spec/70_reset_and_hazards.md R330 to R333, R343). -/

namespace Sys2Proof.Machine

/-! ## Evaluations between two transactions -/

/-- The first scheduled evaluation is an `SCT_EVAL` whose answer is not returned; the others follow it (R81, R86, R240). -/
theorem runBetween_sctEval {s t : State} {d : EvalDraws} {ds : List EvalDraws} (scheduled : s.between = d :: ds)
    (ht : exec (.sctEval d) s = .next t) : runBetween s = { runBetween { t with between := ds } with result := s.result } := by
  obtain ⟨-, ht⟩ := whenBound_next ht
  obtain rfl := Host.Outcome.next.inj ht
  have silenced : runBetween { (evaluate d s).silent with between := ds } =
      { runBetween { evaluate d s with between := ds } with result := .nothing } :=
    runBetween_with { evaluate d s with between := ds } .nothing
  have kept : (runBetween { evaluate d s with between := ds }).result = s.result := by rw [runBetween_result, evaluate_result]
  rw [runBetween_cons s d ds scheduled, silenced, ← kept]

/-- What the first transaction returned does not matter to the image the second one meets. -/
theorem beforeWrite_regs (v : View) (s : State) : (beforeWrite v s).regs = (runBetween (readEffect (storage v).1 s)).regs := by
  rw [beforeWrite, afterRead, runBetween_with]

/-! ## `FIELD_WR` on a ControlRegister -/

/-- The view of the ControlRegister of a half (R28). -/
def controlView : Half → View
  | .low => .controlLow
  | .high => .controlHigh

/-- It addresses that half of `control`. -/
@[simp] theorem storage_controlView (k : Half) : storage (controlView k) = (.control, .half k) := by cases k <;> rfl

/-- `FIELD_WR` on a ControlRegister stores the half its read returned with the field inserted, `clear_counter` as 0; the other
ControlRegister is as the second transaction meets it, and of the other words only `count` may change (R146, R171). -/
theorem fieldWr_controlRegister {s : State} (hb : Bound s) (k : Half) {o w : Nat} {f : Word} (hw : 1 ≤ w) (ho : o + w ≤ 16)
    (hf : f.toNat < 2 ^ w) :
    ∃ t, exec (.fieldWr (controlView k) o w f) s = .next t ∧
      t.controlOf k =
        insert (halfOf k (readValue .control s)) o w (f.setWidth 16) &&& ~~~ fieldMask 16 s.params.ctrlLayout.clearCounter ∧
      t.controlOf (otherHalf k) = (beforeWrite (controlView k) s).controlOf (otherHalf k) ∧
      ∀ r, r ≠ .control → r ≠ .count → t.regs.get r = (beforeWrite (controlView k) s).regs.get r := by
  have bits : o + w ≤ (controlView k).bits := by rw [bits_eq_width, storage_controlView]; exact ho
  have content : writtenContent (controlView k) o w f s = withHalf k ((beforeWrite (controlView k) s).regs.get .control)
      (insert (halfOf k (readValue .control s)) o w (f.setWidth 16)) := by
    rw [writtenContent, viewResult, storage_controlView]
    rfl
  obtain ⟨t, ⟨done, -, -, -, -, words⟩, control, -⟩ := completes_control (ks := [k])
    (v := writtenContent (controlView k) o w f s) (beforeWrite_launch (controlView k) s) (runBetween_between _)
  refine ⟨t, ?_, ((control k).1 (by simp)).trans ?_, ((control _).2 (by simp [otherHalf_ne])).trans ?_,
    fun r hr hc => words r hr (by simpa using hc)⟩
  · rw [exec_fieldWr_commit hb hw bits hf (mt input_view.2 (by simp)), storage_controlView]
    exact done
  · rw [content, halfOf_withHalf_same]
  · rw [content, halfOf_withHalf_other _ _ _ _ (otherHalf_ne k)]
    rfl

/-- A steady bit outside the inserted field is stored as it was before the read (R112, R171). -/
theorem getLsbD_inserted_steady {s : State} {k : Half} {o w b : Nat} {x : HalfWord}
    (steady : (steadyControl s.params).getLsbD b = true) (outside : b < o ∨ o + w ≤ b) :
    (insert (halfOf k (readValue .control s)) o w x &&& ~~~ fieldMask 16 s.params.ctrlLayout.clearCounter).getLsbD b =
      (s.controlOf k).getLsbD b := by
  rw [getLsbD_steady steady, getLsbD_insert, if_neg (by omega)]
  exact getLsbD_half_readValue (by rw [halfOf_shownBits_control, steady])

/-- `pause_counter` and `halt_sct` are read as they are stored (R116, R171). -/
theorem runFlag_steady {p : Params} (h : p.legal = true) {g : SubField} (hg : g ∈ [p.ctrlLayout.pauseCounter, p.ctrlLayout.haltSct]) :
    (steadyControl p).getLsbD g.off = true := by
  obtain ⟨one, -⟩ := prescaler_apart h hg
  exact steady_of_legal h (List.mem_append_left [p.ctrlLayout.countPrescaler] hg) le_rfl (by omega)

/-- Settles O47: the written half holds what the first transaction read, whatever the evaluations did to it since. -/
theorem fieldWriteUndoesAgent : Obligations.FieldWriteUndoesAgent := by
  refine ⟨runBetween_of_nil, fun s d ds bound scheduled => ?between, ?hazard⟩
  case between => exact ⟨_, exec_sctEval bound d, runBetween_sctEval scheduled (exec_sctEval bound d)⟩
  case hazard =>
    intro s k o w f hb hl hw ho hf c outside u
    have meets : (beforeWrite (controlView k) s).regs = u.regs := by rw [beforeWrite_regs, storage_controlView]
    obtain ⟨t, ht, stored, other, words⟩ := fieldWr_controlRegister hb k hw ho hf
    have undone : ∀ g ∈ [c.pauseCounter, c.haltSct], outside g.off → fieldFlag g (t.controlOf k) = fieldFlag g (s.controlOf k) :=
      fun g hg apart => (congrArg (fieldFlag g) stored).trans (getLsbD_inserted_steady (runFlag_steady hl hg) apart)
    refine ⟨t, ht, undone _ (by simp), undone _ (by simp), ?_, fun r hr hc => ?_⟩
    · rw [other, State.controlOf, meets, State.controlOf]
    · rw [words r hr hc, meets]

/-! ## Launch and reset -/

/-- The words of the default image (R331, log entry 4). -/
theorem get_defaultImage (r : Reg) : defaultImage.get r = if r = .control then 0x00040004 else 0 := by
  cases r with
  | matchCapture i | captureControl i | eventEnabledInState i | eventControl i | outputOnEventSet i | outputOnEventClear i =>
    exact Vector.getElem_replicate _
  | _ => rfl

/-- Settles O7. -/
theorem resetState : Obligations.ResetState :=
  ⟨fun _ => ⟨rfl, rfl, rfl, rfl, rfl⟩, rfl, get_defaultImage, fun s =>
    ⟨hardwareReset_regs s, hardwareReset_phase s, hardwareReset_base s, hardwareReset_params s, hardwareReset_firing s,
      hardwareReset_dmaRaised s⟩⟩

/-- A launch is unbound and has not failed, so of the invariant only the parameters and their image have to be right (R330, R331). -/
theorem launch_invariant {p : Params} (legal : p.legal = true) (zero : p.resetImage.get .control &&& zeroBits p .control = 0) :
    Invariant (State.launch p) where
  base_iff_bound := rfl
  base_ok := rfl
  failure_iff := rfl
  past_harness := nofun
  params_legal := legal
  clear_is_zero := zero

/-- Settles O8: the default parameters are legal and their image stores `clear_counter` as 0. -/
theorem resetInvariant : Obligations.ResetInvariant :=
  ⟨fun _ => launch_invariant, launch_invariant (by decide) (by decide)⟩

end Sys2Proof.Machine
